-- ==== Sys2Proof/Word.lean ====
section
/-! DEFINITION. The data types of the spec's rule R10 (00_scope.md) and the widths of rule R7:
a Byte, a packed 32-bit register word, a 9-bit bus address, the 4-byte Word, the 16-byte Block,
and a group of four 32-bit registers. -/

namespace Sys2Proof

/-- An 8-bit unsigned value, an element of GF(2^8) (R10, R100). -/
abbrev Byte := BitVec 8

/-- A 32-bit register word as it crosses the bus (R7 BUS_DATA_WIDTH, R52). -/
abbrev Word := BitVec 32

/-- A 9-bit byte address of the register bus (R7 BUS_ADDR_WIDTH, R51). -/
abbrev Addr := BitVec 9

/-- The spec's `Word`: a sequence of 4 Bytes `w[0..3]` (R10). One column of the 4×4 block, row 0 first. -/
structure ByteWord where
  b0 : Byte
  b1 : Byte
  b2 : Byte
  b3 : Byte
deriving DecidableEq, Repr

/-- The spec's `Block` and `Key`: 16 Bytes in column-major order, `s(r, c) = s[4*c + r]` (R10).
Field `c` is column `c`, that is bytes `4c .. 4c+3`. -/
structure Block where
  c0 : ByteWord
  c1 : ByteWord
  c2 : ByteWord
  c3 : ByteWord
deriving DecidableEq, Repr

/-- Four consecutive 32-bit registers: KEY[0..3], DIN[0..3] or DOUT[0..3] (R21, R22, R23). -/
structure Regs4 where
  r0 : Word
  r1 : Word
  r2 : Word
  r3 : Word
deriving DecidableEq, Repr

end Sys2Proof
end

