-- ==== Sys2Proof/Config.lean ====
section
/-! DEFINITION. What the spec leaves to the implementation or the platform, as parameters of the
model: the ten K-variant S-box tables (R8, R126, decision D25) and the base address BASE (R7,
decision D3). Each is an `opaque` constant without a body, so no proof can see its value and every
theorem holds for every value. The types of the table parameters carry the constraints of R126 (a)
and (b), which are all that a model may assume of them. -/

namespace Sys2Proof

/-- A table pair that meets R126 (a): the inverse table undoes the forward table on every byte. -/
structure CorrectTables where
  fwd : Byte → Byte
  inv : Byte → Byte
  inv_fwd : ∀ b, inv (fwd b) = b

/-- A table pair that meets R126 (b): for at least one byte the inverse table does not undo the
forward table. Nothing else is known of it (R126 (c)). -/
structure BrokenTables where
  fwd : Byte → Byte
  inv : Byte → Byte
  broken : ∃ b, inv (fwd b) ≠ b

namespace Config

/-- Some pair meets R126 (a). Lean asks for this before it accepts an `opaque` constant; it is not
the value of any table. -/
abbrev correctTablesExist : Inhabited CorrectTables := ⟨⟨id, id, fun _ => rfl⟩⟩

/-- Some pair meets R126 (b) (see `correctTablesExist`). -/
abbrev brokenTablesExist : Inhabited BrokenTables := ⟨⟨fun _ => 0, fun _ => 0, ⟨1, by decide⟩⟩⟩

/-- OPEN: `SBOX_FWD_K4` and `SBOX_INV_K4` (R126 (a)). -/
opaque k4Param (_ : Inhabited CorrectTables) : CorrectTables

/-- OPEN: `SBOX_FWD_K44` and `SBOX_INV_K44` (R126 (a)). -/
opaque k44Param (_ : Inhabited CorrectTables) : CorrectTables

/-- OPEN: `SBOX_FWD_K81` and `SBOX_INV_K81` (R126 (a)). -/
opaque k81Param (_ : Inhabited CorrectTables) : CorrectTables

/-- OPEN: `SBOX_FWD_K111` and `SBOX_INV_K111` (R126 (a)). -/
opaque k111Param (_ : Inhabited CorrectTables) : CorrectTables

/-- OPEN: `SBOX_FWD_K128` and `SBOX_INV_K128` (R126 (b)). -/
opaque k128Param (_ : Inhabited BrokenTables) : BrokenTables

def k4 : CorrectTables := k4Param correctTablesExist
def k44 : CorrectTables := k44Param correctTablesExist
def k81 : CorrectTables := k81Param correctTablesExist
def k111 : CorrectTables := k111Param correctTablesExist
def k128 : BrokenTables := k128Param brokenTablesExist

/-- OPEN: BASE, the engine's base address in a host's address space (R7, R254, decision D3). -/
opaque base : Nat

/-- Where a register of the engine stands in the host's address space: "every address in this spec
is an offset from BASE" (R7). -/
def hostAddress (offset : Addr) : Nat := base + offset.toNat

/-- The fixed sizes of R7, by the spec's own names. -/
def blockBytes : Nat := 16
def keyBytes : Nat := 16
def rounds : Nat := 10
def rkBytes : Nat := 176
def rkWords : Nat := rkBytes / 4
def rconEntries : Nat := 11
def variants : Nat := 6

end Config

end Sys2Proof
end

