-- ==== Sys2Proof/Syntax.lean ====
section
/-! DEFINITION. The commands of the engine: the six S-box variants (R83, R120), the fields of a
command word (R81), the error codes (R241), what the decoder answers (R88), and the ONE inductive
`Instr` with a constructor for each of the 16 rows of opcode_table.json (R82). -/

namespace Sys2Proof

/-- The S-box variants: "exactly the six values 0..5" (R83). -/
inductive Variant
  | original
  | k4
  | k44
  | k81
  | k111
  | k128
deriving DecidableEq, Repr

/-- The 16 commands (R82). `var` is the variant the VAR field names; `a` and `b` are the byte
operands A and B, "taken from the word unchanged" (R84). Block operands stand in registers (R87). -/
inductive Instr
  | nop
  | expand (var : Variant)
  | encrypt (var : Variant)
  | decrypt (var : Variant)
  | subbytes (var : Variant)
  | invsubbytes (var : Variant)
  | shiftrows
  | invshiftrows
  | mixcolumns
  | invmixcolumns
  | addroundkey
  | gfdouble (a : Byte)
  | gfmul (a b : Byte)
  | sbox (var : Variant) (a : Byte)
  | invsbox (var : Variant) (a : Byte)
  | clear
deriving DecidableEq, Repr

/-- The fields of a 32-bit command word (R81): OP 7:0, VAR 10:8, RSV 15:11, A 23:16, B 31:24. -/
structure Command where
  op : BitVec 8
  var : BitVec 3
  rsv : BitVec 5
  a : Byte
  b : Byte
deriving DecidableEq, Repr

/-- The errors of R241. The codes of `invalidKeyLength`, `invalidTableSize` and `invalidBlockLength`
are allocated, and no rule raises them (R242). -/
inductive ErrCode
  | invalidKeyLength
  | invalidVariant
  | invalidTableSize
  | invalidBlockLength
  | illegalCommand
  | cmdWhileBusy
deriving DecidableEq, Repr

/-- What `Decode(w)` answers (R88): a legal command or the code it is rejected with. -/
inductive Decoded
  | legal (i : Instr)
  | reject (c : ErrCode)
deriving DecidableEq, Repr

end Sys2Proof
end

