-- ==== Sys2Proof/WellFormed.lean ====
section
/-! DEFINITION. When a command word is legal, written from the table of R82 and the rules R85 and
R86 (a). The decoder of Decode.lean is written from R88 instead; that the two agree is a law and
an obligation. A command's fields are checked one by one, so that each check can be seen to refuse
a word of its own. -/

namespace Sys2Proof

/-- One row of the opcode map of R82: the OP value and which fields the command uses. -/
structure OpRow where
  op : BitVec 8
  usesVar : Bool
  usesA : Bool
  usesB : Bool
deriving DecidableEq, Repr

/-- The opcode map of R82, row by row. -/
def opRows : List OpRow :=
  [⟨0x00, false, false, false⟩, ⟨0x01, true, false, false⟩, ⟨0x02, true, false, false⟩,
   ⟨0x03, true, false, false⟩, ⟨0x04, true, false, false⟩, ⟨0x05, true, false, false⟩,
   ⟨0x06, false, false, false⟩, ⟨0x07, false, false, false⟩] ++
  [⟨0x08, false, false, false⟩, ⟨0x09, false, false, false⟩, ⟨0x0A, false, false, false⟩,
   ⟨0x0B, false, true, false⟩, ⟨0x0C, false, true, true⟩, ⟨0x0D, true, true, false⟩,
   ⟨0x0E, true, true, false⟩, ⟨0x0F, false, false, false⟩]

namespace Command

/-- The row of R82 that the OP field selects; none for the reserved values 0x10–0xFF. -/
def row (c : Command) : Option OpRow := opRows.find? (fun r => r.op == c.op)

/-- R86: OP ≤ 0x0F, that is, some row of R82 has it. -/
def opcodeKnown (c : Command) : Bool := c.row.isSome

/-- R85: RSV is 0 always. -/
def reservedZero (c : Command) : Bool := c.rsv == 0

/-- R85: VAR is 0 where the opcode does not use it. -/
def varUnusedZero (c : Command) : Bool :=
  match c.row with
  | some r => r.usesVar || c.var == 0
  | none => false

/-- R85: A is 0 where the opcode does not use it. -/
def aUnusedZero (c : Command) : Bool :=
  match c.row with
  | some r => r.usesA || c.a == 0
  | none => false

/-- R85: B is 0 where the opcode does not use it. -/
def bUnusedZero (c : Command) : Bool :=
  match c.row with
  | some r => r.usesB || c.b == 0
  | none => false

/-- R83, R86 (c): where the opcode uses VAR, it names one of the six variants. -/
def variantNamed (c : Command) : Bool :=
  match c.row with
  | some r => !r.usesVar || decide (c.var ≤ 5)
  | none => false

/-- Legal in form: everything R86 (b) asks for, so that only the variant can still be wrong. -/
def formOk (c : Command) : Bool :=
  c.opcodeKnown && c.reservedZero && c.varUnusedZero && c.aUnusedZero && c.bUnusedZero

/-- R86 (a): the word is legal. -/
def wellFormed (c : Command) : Bool := c.formOk && c.variantNamed

/-- The VAR code of a variant, in the order of R83. -/
def varCode : Variant → BitVec 3
  | .original => 0
  | .k4 => 1
  | .k44 => 2
  | .k81 => 3
  | .k111 => 4
  | .k128 => 5

/-- The fields an instruction fills, by the table of R82: the OP value of its row, its operands,
and 0 in every field the row does not use. -/
def ofInstr : Instr → Command
  | .nop => ⟨0x00, 0, 0, 0, 0⟩
  | .expand v => ⟨0x01, varCode v, 0, 0, 0⟩
  | .encrypt v => ⟨0x02, varCode v, 0, 0, 0⟩
  | .decrypt v => ⟨0x03, varCode v, 0, 0, 0⟩
  | .subbytes v => ⟨0x04, varCode v, 0, 0, 0⟩
  | .invsubbytes v => ⟨0x05, varCode v, 0, 0, 0⟩
  | .shiftrows => ⟨0x06, 0, 0, 0, 0⟩
  | .invshiftrows => ⟨0x07, 0, 0, 0, 0⟩
  | .mixcolumns => ⟨0x08, 0, 0, 0, 0⟩
  | .invmixcolumns => ⟨0x09, 0, 0, 0, 0⟩
  | .addroundkey => ⟨0x0A, 0, 0, 0, 0⟩
  | .gfdouble a => ⟨0x0B, 0, 0, a, 0⟩
  | .gfmul a b => ⟨0x0C, 0, 0, a, b⟩
  | .sbox v a => ⟨0x0D, varCode v, 0, a, 0⟩
  | .invsbox v a => ⟨0x0E, varCode v, 0, a, 0⟩
  | .clear => ⟨0x0F, 0, 0, 0, 0⟩

end Command

/-- An instruction is well-formed when the fields it fills make a legal word (R86 (a)). -/
def Instr.wellFormed (i : Instr) : Bool := (Command.ofInstr i).wellFormed

end Sys2Proof
end

