-- ==== Sys2Proof/Decode.lean ====
section
/-! DEFINITION. The decoder (R88), total on 32-bit command words and rejecting by name, and the
encoder (R92) written from the field layout of R81, the opcodes of R82 and the VAR codes of R83;
the opcode table's masks and patterns; and the host's entry point `decodeTableWord`. -/

namespace Sys2Proof

/-- The VAR code of a variant (R83). -/
def Variant.code : Variant → BitVec 3
  | .original => 0
  | .k4 => 1
  | .k44 => 2
  | .k81 => 3
  | .k111 => 4
  | .k128 => 5

/-- The variant a VAR code names; the codes 6 and 7 name none (R83). -/
def Variant.ofCode (v : BitVec 3) : Option Variant :=
  match v.toNat with
  | 0 => some .original
  | 1 => some .k4
  | 2 => some .k44
  | 3 => some .k81
  | 4 => some .k111
  | 5 => some .k128
  | _ => none

/-- The fields of the command word `w` (R81, R88). -/
def Command.ofWord (w : Word) : Command where
  op := w.extractLsb' 0 8
  var := w.extractLsb' 8 3
  rsv := w.extractLsb' 11 5
  a := w.extractLsb' 16 8
  b := w.extractLsb' 24 8

/-- The word a command's fields make: `b ‖ a ‖ rsv ‖ var ‖ op` (R81). -/
def Command.word (c : Command) : Word := c.b ++ c.a ++ c.rsv ++ c.var ++ c.op

/-- `usesVar` of R88. -/
def usesVar (op : BitVec 8) : Bool :=
  op == 0x01 || op == 0x02 || op == 0x03 || op == 0x04 || op == 0x05 || op == 0x0D || op == 0x0E

/-- `usesA` of R88. -/
def usesA (op : BitVec 8) : Bool := op == 0x0B || op == 0x0C || op == 0x0D || op == 0x0E

/-- `usesB` of R88. -/
def usesB (op : BitVec 8) : Bool := op == 0x0C

/-- A command that uses VAR, with the variant its VAR field names (R83). -/
def withVariant (var : BitVec 3) (k : Variant → Instr) : Decoded :=
  match Variant.ofCode var with
  | some v => .legal (k v)
  | none => .reject .invalidVariant

/-- The command of an opcode (R82), once the tests of R88 have passed. -/
def commandOf (c : Command) : Decoded :=
  match c.op.toNat with
  | 0x00 => .legal .nop
  | 0x01 => withVariant c.var .expand
  | 0x02 => withVariant c.var .encrypt
  | 0x03 => withVariant c.var .decrypt
  | 0x04 => withVariant c.var .subbytes
  | 0x05 => withVariant c.var .invsubbytes
  | 0x06 => .legal .shiftrows
  | 0x07 => .legal .invshiftrows
  | 0x08 => .legal .mixcolumns
  | 0x09 => .legal .invmixcolumns
  | 0x0A => .legal .addroundkey
  | 0x0B => .legal (.gfdouble c.a)
  | 0x0C => .legal (.gfmul c.a c.b)
  | 0x0D => withVariant c.var (fun v => .sbox v c.a)
  | 0x0E => withVariant c.var (fun v => .invsbox v c.a)
  | 0x0F => .legal .clear
  | _ => .reject .illegalCommand

/-- The tests of R88 in the order R88 gives them, on a word's fields. -/
def decodeCommand (c : Command) : Decoded :=
  if c.op > 0x0F then .reject .illegalCommand
  else if c.rsv ≠ 0 then .reject .illegalCommand
  else if (¬usesVar c.op ∧ c.var ≠ 0) ∨ (¬usesA c.op ∧ c.a ≠ 0) ∨ (¬usesB c.op ∧ c.b ≠ 0) then
    .reject .illegalCommand
  else if usesVar c.op ∧ c.var > 5 then .reject .invalidVariant
  else commandOf c

/-- The decoder, "a total function on 32-bit words" (R88). It depends on `w` alone (R89). -/
def decode (w : Word) : Decoded := decodeCommand (Command.ofWord w)

/-- `Encode(op, var, a, b) = b ‖ a ‖ 0b00000 ‖ var ‖ op` (R92). -/
def encodeFields (op : BitVec 8) (var : BitVec 3) (a b : Byte) : Word :=
  b ++ a ++ (0b00000 : BitVec 5) ++ var ++ op

/-- The word of an instruction (R92), with the opcodes of R82 and the codes of R83. -/
def encode : Instr → Word
  | .nop => encodeFields 0x00 0 0 0
  | .expand v => encodeFields 0x01 v.code 0 0
  | .encrypt v => encodeFields 0x02 v.code 0 0
  | .decrypt v => encodeFields 0x03 v.code 0 0
  | .subbytes v => encodeFields 0x04 v.code 0 0
  | .invsubbytes v => encodeFields 0x05 v.code 0 0
  | .shiftrows => encodeFields 0x06 0 0 0
  | .invshiftrows => encodeFields 0x07 0 0 0
  | .mixcolumns => encodeFields 0x08 0 0 0
  | .invmixcolumns => encodeFields 0x09 0 0 0
  | .addroundkey => encodeFields 0x0A 0 0 0
  | .gfdouble a => encodeFields 0x0B 0 a 0
  | .gfmul a b => encodeFields 0x0C 0 a b
  | .sbox v a => encodeFields 0x0D v.code a 0
  | .invsbox v a => encodeFields 0x0E v.code a 0
  | .clear => encodeFields 0x0F 0 0 0

/-- One row of opcode_table.json: the word `w` belongs to it when `w & mask = pattern`. -/
structure TableRow where
  pattern : Word
  mask : Word
deriving DecidableEq, Repr

/-- The instruction's row of opcode_table.json: its `match` and its `mask`. -/
def tableRow : Instr → TableRow
  | .nop => ⟨0x00000000, 0xFFFFFFFF⟩
  | .expand _ => ⟨0x00000001, 0xFFFFF8FF⟩
  | .encrypt _ => ⟨0x00000002, 0xFFFFF8FF⟩
  | .decrypt _ => ⟨0x00000003, 0xFFFFF8FF⟩
  | .subbytes _ => ⟨0x00000004, 0xFFFFF8FF⟩
  | .invsubbytes _ => ⟨0x00000005, 0xFFFFF8FF⟩
  | .shiftrows => ⟨0x00000006, 0xFFFFFFFF⟩
  | .invshiftrows => ⟨0x00000007, 0xFFFFFFFF⟩
  | .mixcolumns => ⟨0x00000008, 0xFFFFFFFF⟩
  | .invmixcolumns => ⟨0x00000009, 0xFFFFFFFF⟩
  | .addroundkey => ⟨0x0000000A, 0xFFFFFFFF⟩
  | .gfdouble _ => ⟨0x0000000B, 0xFF00FFFF⟩
  | .gfmul _ _ => ⟨0x0000000C, 0x0000FFFF⟩
  | .sbox _ _ => ⟨0x0000000D, 0xFF00F8FF⟩
  | .invsbox _ _ => ⟨0x0000000E, 0xFF00F8FF⟩
  | .clear => ⟨0x0000000F, 0xFFFFFFFF⟩

/-- The 32-bit word of an instruction whose low `nbits` bits are those of `w` and whose other bits
are 0. Every command is one 32-bit word (R80), so the table's numbering of bits is the word's own. -/
def tableWord (nbits w : Nat) : Word := BitVec.ofNat 32 (w % 2 ^ nbits)

/-- The instruction the decoder reads from a word numbered as opcode_table.json numbers it; none
where it rejects the word. -/
def decodeTableWord (nbits w : Nat) : Option Instr :=
  match decode (tableWord nbits w) with
  | .legal i => some i
  | .reject _ => none

end Sys2Proof
end

