-- ==== Sys2Proof/Machine/State.lean ====
section
/-! DEFINITION. The state. `Engine` is the table of R20, element by element, and nothing else.
`State` puts beside it what one clock cycle takes and gives (the ports of R50): the level of
`rst_n`, the host's pending bus cycles, and the outputs of the last cycle. -/

namespace Sys2Proof.Machine

/-- PHASE, a 2-bit register: IDLE = 0, KX = 1, ENC = 2, DEC = 3 (R34). Software never sees the
code, only whether it is 0. -/
inductive Phase
  | idle
  | kx
  | enc
  | dec
deriving DecidableEq, Repr

/-- The engine's state: "exactly the following, and nothing else persists from one clock edge to
the next" (R20). STATUS.BUSY is not stored: it is `phase ≠ idle` (R26). -/
structure Engine where
  /-- KEY[0..3] (R21). -/
  key : Regs4
  /-- DIN[0..3] (R22). -/
  din : Regs4
  /-- DOUT[0..3] (R23). -/
  dout : Regs4
  /-- BRES (R24). -/
  bres : Byte
  /-- STATUS.DONE (R26). -/
  done : Bool
  /-- STATUS.ERR (R26). -/
  err : Bool
  /-- STATUS.WARN (R26). -/
  warn : Bool
  /-- STATUS.ERRCODE (R26, R241). -/
  errcode : BitVec 4
  /-- CTRL.IE_DONE (R28). -/
  ieDone : Bool
  /-- CTRL.IE_ERR (R28). -/
  ieErr : Bool
  /-- RK[0..43], the round-key RAM (R31). -/
  rk : Vector Word 44
  /-- ST, the sequencer's working Block (R33). -/
  st : Block
  /-- PHASE (R34). -/
  phase : Phase
  /-- RND, the round counter (R35). -/
  rnd : BitVec 4
  /-- LOP, the opcode of the multi-step command in progress (R36). -/
  lop : BitVec 8
  /-- LVAR, its variant code (R37). -/
  lvar : BitVec 3
deriving DecidableEq, Repr

/-- The all-zero word sequence, Block and register group of R41. -/
def zeroByteWord : ByteWord := ⟨0, 0, 0, 0⟩
def zeroBlock : Block := ⟨zeroByteWord, zeroByteWord, zeroByteWord, zeroByteWord⟩
def zeroRegs : Regs4 := ⟨0, 0, 0, 0⟩

/-- The reset value of every element (R41): "Reset leaves no element unspecified". -/
def Engine.reset : Engine where
  key := zeroRegs
  din := zeroRegs
  dout := zeroRegs
  bres := 0
  done := false
  err := false
  warn := false
  errcode := 0
  ieDone := false
  ieErr := false
  rk := Vector.replicate 44 0
  st := zeroBlock
  phase := .idle
  rnd := 0
  lop := 0
  lvar := 0

/-- The level of the host's ports in one cycle (R50): `sel`, `we`, `addr` and `wdata`. -/
structure Pins where
  sel : Bool
  we : Bool
  addr : Addr
  wdata : Word
deriving DecidableEq, Repr

/-- A cycle's bus access `acc` (R60): `None`, `Read(addr)` or `Write(addr, d)`. -/
inductive Access
  | noAccess
  | read (addr : Addr)
  | write (addr : Addr) (d : Word)
deriving DecidableEq, Repr

/-- The registers of the address map (R51), by the names of R90. -/
inductive RegName
  | cmd
  | status
  | ctrl
  | bres
  | id
  | key (i : Fin 4)
  | din (i : Fin 4)
  | dout (i : Fin 4)
  | rk (i : Fin 44)
deriving DecidableEq, Repr

/-- What happens next at the engine's ports. The host and the platform are the only agents outside
the engine (R61), and the state's list of these events is everything they do, oldest first. -/
inductive HostEvent
  /-- One rising clock edge, at the end of a cycle in which the host drives its ports so (R50, R60). -/
  | clock (p : Pins)
  /-- The host's polling loop WAIT: one read of STATUS a cycle, again while bit 0 of the value read
  is 1 (R91). -/
  | wait
  /-- `rst_n` falls, between two clock edges (R270 (a)). -/
  | rstFall
  /-- `rst_n` rises, between two clock edges (R270 (c)). -/
  | rstRise
deriving DecidableEq, Repr

/-- The whole system: the engine, its ports, and what the host is still to do. -/
structure State where
  /-- The engine (R20). -/
  engine : Engine
  /-- The level of `rst_n` (R50); `true` is 1, not in reset. -/
  rstN : Bool
  /-- The model's own: what the host and the platform do from here on, oldest first (R61). An empty
  list is a host that makes no further access. -/
  host : List HostEvent
  /-- The output `rdata` of the last cycle (R50, R53). -/
  rdata : Word
  /-- The output `irq` of the last cycle (R50, R60). -/
  irq : Bool
  /-- The model's own: the values the host's script has recorded so far, oldest first (R90, R91). -/
  recorded : List Word
deriving DecidableEq, Repr

/-- The machine right after reset (R41, R270, R272): every element at its reset value, `rst_n`
released, both outputs 0, and a host that has not begun. -/
def State.reset : State where
  engine := Engine.reset
  rstN := true
  host := []
  rdata := 0
  irq := false
  recorded := []

/-- Where the model stops. Each is a sequencer state that R42 calls unreachable and for which no
rule of the spec says what a step does (93_implementation_defined.md, section 2: "never reached
from reset", treatment `refuse`). All are raised by a sequencer step (Machine/CipherSequencer.lean)
and all are safe: the model stops where the hardware cannot be. -/
inductive Fault
  /-- A KX step with RND outside 1..10, against R42 (b). Safe. -/
  | kxRoundOutOfRange
  /-- The last KX step with LOP none of EXPAND, ENCRYPT, DECRYPT, against R42 (b) and R202. Safe. -/
  | kxUnknownOpcode
  /-- An ENC step with RND outside 0..10, against R42 (c). Safe. -/
  | encRoundOutOfRange
  /-- A DEC step with RND outside 0..10, against R42 (d). Safe. -/
  | decRoundOutOfRange
  /-- A step that reads the S-box while LVAR names no variant, against R42 (e). Safe. -/
  | variantOutOfRange
deriving DecidableEq, Repr

/-- Why exec answers without a meaning. -/
inductive Refusal
  /-- Raised by exec's own arms, for an instruction that has no meaning yet: no arm of this model
  does so. Safe. -/
  | notModelled (mnemonic : String)
deriving DecidableEq, Repr

/-- The three outcomes of one step of this machine. -/
abbrev Outcome := Host.Outcome State Fault Refusal

end Sys2Proof.Machine
end

