-- ==== Sys2Proof/Machine/Operands.lean ====
section
/-! DEFINITION. Operand forms: packing Bytes into register words (R52), Blocks and round keys over
registers (R32, R52), the round-key RAM's words (R31), the ports' access (R50) and the register
address map (R51, R55). -/

namespace Sys2Proof

/-- Byte `r` of a 4-byte Word (R10). -/
def ByteWord.get (w : ByteWord) : Fin 4 → Byte
  | 0 => w.b0
  | 1 => w.b1
  | 2 => w.b2
  | 3 => w.b3

/-- Column `c` of a Block: bytes `4c .. 4c+3` (R10). -/
def Block.col (s : Block) : Fin 4 → ByteWord
  | 0 => s.c0
  | 1 => s.c1
  | 2 => s.c2
  | 3 => s.c3

/-- `s(r, c)`, "element (row, col)" of the 4×4 matrix, at linear index `4*c + r` (R10). -/
def Block.entry (s : Block) (r c : Fin 4) : Byte := (s.col c).get r

/-- Byte `k` of a Block, `s[k]` (R10). -/
def Block.byte (s : Block) (k : Fin 16) : Byte :=
  s.entry ⟨k.val % 4, by omega⟩ ⟨k.val / 4, by omega⟩

/-- The 16 Bytes of a Block in order. -/
def Block.bytes (s : Block) : List Byte :=
  [s.c0.b0, s.c0.b1, s.c0.b2, s.c0.b3, s.c1.b0, s.c1.b1, s.c1.b2, s.c1.b3] ++
  [s.c2.b0, s.c2.b1, s.c2.b2, s.c2.b3, s.c3.b0, s.c3.b1, s.c3.b2, s.c3.b3]

/-- The same function on every Byte of a Word. -/
def ByteWord.map (f : Byte → Byte) (w : ByteWord) : ByteWord := ⟨f w.b0, f w.b1, f w.b2, f w.b3⟩

/-- The same function on every Byte of a Block. -/
def Block.map (f : Byte → Byte) (s : Block) : Block :=
  ⟨ByteWord.map f s.c0, ByteWord.map f s.c1, ByteWord.map f s.c2, ByteWord.map f s.c3⟩

/-- Exclusive-or of two Words, byte by byte (R9, R100). -/
def ByteWord.xor (v w : ByteWord) : ByteWord :=
  ⟨v.b0 ^^^ w.b0, v.b1 ^^^ w.b1, v.b2 ^^^ w.b2, v.b3 ^^^ w.b3⟩

/-- Exclusive-or of two Blocks, byte by byte (R9, R100). -/
def Block.xor (s k : Block) : Block :=
  ⟨ByteWord.xor s.c0 k.c0, ByteWord.xor s.c1 k.c1, ByteWord.xor s.c2 k.c2, ByteWord.xor s.c3 k.c3⟩

/-- Register `i` of a group (R21, R22, R23). -/
def Regs4.get (g : Regs4) : Fin 4 → Word
  | 0 => g.r0
  | 1 => g.r1
  | 2 => g.r2
  | 3 => g.r3

/-- A group with register `i` replaced: "each write replaces one 32-bit word" (R278). -/
def Regs4.set (g : Regs4) (i : Fin 4) (d : Word) : Regs4 :=
  match i with
  | 0 => { g with r0 := d }
  | 1 => { g with r1 := d }
  | 2 => { g with r2 := d }
  | 3 => { g with r3 := d }

end Sys2Proof

namespace Sys2Proof.Machine

/-- `b2w(x0, x1, x2, x3) = x0 ‖ x1 ‖ x2 ‖ x3` (R52). -/
def b2w (w : ByteWord) : Word := w.b0 ++ w.b1 ++ w.b2 ++ w.b3

/-- `w2b(w) = (w[31:24], w[23:16], w[15:8], w[7:0])` (R52). -/
def w2b (w : Word) : ByteWord :=
  ⟨w.extractLsb' 24 8, w.extractLsb' 16 8, w.extractLsb' 8 8, w.extractLsb' 0 8⟩

/-- `BlockOf(R[0..3])`: the 16 Bytes of a register group, byte 0 first (R52). -/
def blockOf (r : Regs4) : Block := ⟨w2b r.r0, w2b r.r1, w2b r.r2, w2b r.r3⟩

/-- `b2w-packed(s)`: the four register words of a Block (R52). -/
def packed (s : Block) : Regs4 := ⟨b2w s.c0, b2w s.c1, b2w s.c2, b2w s.c3⟩

/-- The Word that begins at byte `j` of a byte sequence. -/
def wordAt (xs : List Byte) (j : Nat) : ByteWord :=
  ⟨xs.getD j 0, xs.getD (j + 1) 0, xs.getD (j + 2) 0, xs.getD (j + 3) 0⟩

/-- The Block that begins at byte `j` of a byte sequence. -/
def blockAt (xs : List Byte) (j : Nat) : Block :=
  ⟨wordAt xs j, wordAt xs (j + 4), wordAt xs (j + 8), wordAt xs (j + 12)⟩

/-- The words RK[0..43] (R31). -/
abbrev RoundKeys := Vector Word 44

/-- RK[i]. The indexes the rules use "are always in range" (R234 (b)). -/
def rkWord (rk : RoundKeys) (i : Nat) : Word := (rk[i]?).getD 0

/-- RK[4n .. 4n+3] as a register group. -/
def rkGroup (rk : RoundKeys) (n : Nat) : Regs4 :=
  ⟨rkWord rk (4 * n), rkWord rk (4 * n + 1), rkWord rk (4 * n + 2), rkWord rk (4 * n + 3)⟩

/-- RK with the four words RK[4n .. 4n+3] replaced. -/
def rkSetGroup (rk : RoundKeys) (n : Nat) (g : Regs4) : RoundKeys :=
  (((rk.setIfInBounds (4 * n) g.r0).setIfInBounds (4 * n + 1) g.r1).setIfInBounds (4 * n + 2)
    g.r2).setIfInBounds (4 * n + 3) g.r3

/-- `RoundKeyRK(n)`, the round-key view: the Block of expanded-key bytes `16n .. 16n+15` (R32). -/
def roundKeyRK (rk : RoundKeys) (n : Nat) : Block := blockOf (rkGroup rk n)

/-- Expanded-key byte `xk[j]`: RK[j / 4] bits `31-8*(j mod 4) : 24-8*(j mod 4)` (R31). -/
def rkByte (rk : RoundKeys) (j : Nat) : Byte :=
  (rkWord rk (j / 4)).extractLsb' (24 - 8 * (j % 4)) 8

/-- The access that the ports carry (R50): with `sel`, a write when `we` and a read otherwise. -/
def Pins.access (p : Pins) : Access :=
  if p.sel then if p.we then .write p.addr p.wdata else .read p.addr else .noAccess

/-- Port levels that carry an access. -/
def Access.pins : Access → Pins
  | .noAccess => ⟨false, false, 0, 0⟩
  | .read a => ⟨true, false, a, 0⟩
  | .write a d => ⟨true, true, a, d⟩

/-- The address map (R51), by the number of a word's first byte; none at "every other word address"
(R56). -/
def regAtWord (a : Nat) : Option RegName :=
  if a = 0x000 then some .cmd
  else if a = 0x004 then some .status
  else if a = 0x008 then some .ctrl
  else if a = 0x00C then some .bres
  else if a = 0x010 then some .id
  else if h : 0x020 ≤ a ∧ a < 0x030 then some (.key ⟨(a - 0x020) / 4, by omega⟩)
  else if h : 0x030 ≤ a ∧ a < 0x040 then some (.din ⟨(a - 0x030) / 4, by omega⟩)
  else if h : 0x040 ≤ a ∧ a < 0x050 then some (.dout ⟨(a - 0x040) / 4, by omega⟩)
  else if h : 0x100 ≤ a ∧ a < 0x1B0 then some (.rk ⟨(a - 0x100) / 4, by omega⟩)
  else none

/-- The register at an address: "an access to addr acts on the word at addr & 0x1FC" (R55). -/
def regAt (addr : Addr) : Option RegName := regAtWord (addr &&& 0x1FC).toNat

/-- The address of a register in the map (R51). -/
def RegName.addr : RegName → Addr
  | .cmd => 0x000
  | .status => 0x004
  | .ctrl => 0x008
  | .bres => 0x00C
  | .id => 0x010
  | .key i => BitVec.ofNat 9 (0x020 + 4 * i.val)
  | .din i => BitVec.ofNat 9 (0x030 + 4 * i.val)
  | .dout i => BitVec.ofNat 9 (0x040 + 4 * i.val)
  | .rk i => BitVec.ofNat 9 (0x100 + 4 * i.val)

/-- The identification value, "the ASCII bytes AES1" (R27). A constant, not state (R271). -/
def idValue : Word := 0x41455331

end Sys2Proof.Machine
end

