-- ==== Sys2Proof/Machine/Flags.lean ====
section
/-! DEFINITION. The status flags: BUSY, DONE, ERR, WARN, ERRCODE, the interrupt enables and `irq`
(R26, R28, R29, R30), how STATUS and CTRL read (R53), and the error codes of R241. -/

namespace Sys2Proof

/-- The code of an error in STATUS.ERRCODE (R241). -/
def ErrCode.code : ErrCode → BitVec 4
  | .invalidKeyLength => 1
  | .invalidVariant => 2
  | .invalidTableSize => 3
  | .invalidBlockLength => 4
  | .illegalCommand => 5
  | .cmdWhileBusy => 6

end Sys2Proof

namespace Sys2Proof.Machine

/-- STATUS.BUSY, "not stored, BUSY = (PHASE ≠ 0)" (R26, R34). -/
def Engine.busy (e : Engine) : Bool := decide (e.phase ≠ .idle)

/-- STATUS as a read returns it: `zext_32(ERRCODE ‖ WARN ‖ ERR ‖ DONE ‖ BUSY)` (R26, R53). -/
def Engine.statusWord (e : Engine) : Word :=
  (e.errcode ++ BitVec.ofBool e.warn ++ BitVec.ofBool e.err ++ BitVec.ofBool e.done ++
    BitVec.ofBool e.busy).setWidth 32

/-- CTRL as a read returns it: `zext_32(IE_ERR ‖ IE_DONE)` (R28, R53). -/
def Engine.ctrlWord (e : Engine) : Word :=
  (BitVec.ofBool e.ieErr ++ BitVec.ofBool e.ieDone).setWidth 32

/-- `irq = (STATUS.DONE & CTRL.IE_DONE) | (STATUS.ERR & CTRL.IE_ERR)` (R30, R250). -/
def Engine.irq (e : Engine) : Bool := (e.done && e.ieDone) || (e.err && e.ieErr)

/-- `DONE <- 0`, at every acceptance (R193). -/
def Engine.clearDone (e : Engine) : Engine := { e with done := false }

/-- `DONE <- 1`, at every completion (R195, R200). -/
def Engine.setDone (e : Engine) : Engine := { e with done := true }

/-- `if usesVar(op) and var = 5 then WARN <- 1` (R193, R249). `none` stands for an opcode that does
not use VAR. -/
def Engine.warnFor (var : Option Variant) (e : Engine) : Engine :=
  match var with
  | some .k128 => { e with warn := true }
  | _ => e

/-- `CTRL <- d`: bits 1:0 are taken and bits 31:2 stay 0 (R28, R57). -/
def Engine.ctrlWrite (d : Word) (e : Engine) : Engine :=
  { e with ieDone := d.getLsbD 0, ieErr := d.getLsbD 1 }

end Sys2Proof.Machine
end

