-- ==== Sys2Proof/Machine/Ops.lean ====
section
/-! DEFINITION. The shared operations: a rejection, which is this engine's way of taking an
exception (R244, R247), and its acknowledgement, which is the way back (R248); the write-1-to-clear
of STATUS (R58); acceptance of a command (R193–R195) and completion (R200); the bus read (R53). -/

namespace Sys2Proof.Machine

/-- `raise c` (R244): STATUS.ERR and STATUS.ERRCODE are written, and nothing else. "The engine saves
nothing, changes no mode and no mask, redirects nothing, and stops nothing" (R247). -/
def Engine.raise (c : ErrCode) (e : Engine) : Engine := { e with err := true, errcode := c.code }

/-- The equivalent of trap return (R248): the host acknowledges an error, ERR and ERRCODE are
cleared, and "no state needs to be restored, because a rejection changed none". -/
def Engine.acknowledge (e : Engine) : Engine := { e with err := false, errcode := 0 }

/-- `StatusWrite(t, doneSet, d)` (R58): each flag whose bit is 1 in `d` is cleared, but DONE is not
when the same edge has set it. -/
def Engine.statusWrite (doneSet : Bool) (d : Word) (e : Engine) : Engine :=
  let e := if d.getLsbD 1 ∧ ¬doneSet then { e with done := false } else e
  let e := if d.getLsbD 2 then e.acknowledge else e
  if d.getLsbD 3 then { e with warn := false } else e

/-- The machine with its engine changed by `f`; the ports and the host keep what they hold. -/
def State.onEngine (f : Engine → Engine) (s : State) : State := { s with engine := f s.engine }

/-- A CMD write that is refused with code `c` (R244). -/
def reject (c : ErrCode) (s : State) : Outcome := .next (s.onEngine (Engine.raise c))

/-- `Accept` (R193): DONE is cleared, WARN is set for K128, and then the command's own effect
happens. Written while BUSY = 1, the command is rejected with CmdWhileBusy instead (R57, R245). -/
def accept (var : Option Variant) (effect : Engine → Engine) (s : State) : Outcome :=
  if s.engine.busy then reject .cmdWhileBusy s
  else .next (s.onEngine fun e => effect ((e.clearDone).warnFor var))

/-- `AcceptSingle` (R195): the command's whole effect, and DONE, at the same edge. -/
def acceptSingle (var : Option Variant) (effect : Engine → Engine) (s : State) : Outcome :=
  accept var (fun e => (effect e).setDone) s

/-- `AcceptMulti` (R194): latch the key into RK[0..3], the block into ST unless the command is
EXPAND, the opcode and the variant, and start key expansion. -/
def Engine.latch (op : BitVec 8) (var : Variant) (e : Engine) : Engine :=
  { e with
    rk := rkSetGroup e.rk 0 e.key
    st := if op ≠ 0x01 then blockOf e.din else e.st
    lop := op
    lvar := var.code
    rnd := 1
    phase := .kx }

/-- Acceptance of a multi-step command (R193, R194). -/
def acceptMulti (op : BitVec 8) (var : Variant) (s : State) : Outcome :=
  accept (some var) (Engine.latch op var) s

/-- `Complete(t)` (R200); the `doneSet` it also sets is answered by the step that completes. -/
def Engine.complete (e : Engine) : Engine := { e with phase := .idle, rnd := 0, done := true }

/-- A block command's result: `DOUT <- b2w-packed(s)` (R173). -/
def Engine.writeDout (s : Block) (e : Engine) : Engine := { e with dout := packed s }

/-- A byte command's result: `BRES <- b` (R106, R128). -/
def Engine.writeBres (b : Byte) (e : Engine) : Engine := { e with bres := b }

/-- The value a register reads as (R53). An RK word reads 0 while BUSY = 1 (R54), and CMD stores
nothing (R25). -/
def Engine.readReg (e : Engine) : RegName → Word
  | .cmd => 0x00000000
  | .status => e.statusWord
  | .ctrl => e.ctrlWord
  | .bres => e.bres.setWidth 32
  | .id => idValue
  | .key i => e.key.get i
  | .din i => e.din.get i
  | .dout i => e.dout.get i
  | .rk i => if e.busy then 0x00000000 else e.rk[i]

/-- `ReadValue(s, addr)` (R53): an address without a register reads 0 (R56). -/
def Engine.readValue (e : Engine) (addr : Addr) : Word :=
  match regAt addr with
  | some r => e.readReg r
  | none => 0x00000000

/-- A write to a register other than CMD and STATUS (R57): KEY, DIN and CTRL take the value,
the read-only registers ignore it (R56). -/
def Engine.writePlain (r : RegName) (d : Word) (e : Engine) : Engine :=
  match r with
  | .ctrl => e.ctrlWrite d
  | .key i => { e with key := e.key.set i d }
  | .din i => { e with din := e.din.set i d }
  | .cmd => e
  | .status => e
  | .bres => e
  | .id => e
  | .dout _ => e
  | .rk _ => e

end Sys2Proof.Machine
end

