-- ==== Sys2Proof/Machine/KeySchedule.lean ====
section
/-! DEFINITION. The key-schedule expander (42_key_schedule.md): the source's byte-by-byte algorithm
`KeyExpansion` (R141), the round-at-a-time form that the sequencer's KX steps use (R144, R201), and
the command EXPAND (R146). -/

namespace Sys2Proof.Machine

/-- `RotWord(w0, w1, w2, w3) = (w1, w2, w3, w0)` (R142). -/
def rotWord (w : ByteWord) : ByteWord := ⟨w.b1, w.b2, w.b3, w.b0⟩

/-- `RotWord32(w) = w[23:0] ‖ w[31:24]`, on a packed word (R142). -/
def rotWord32 (w : Word) : Word := w.extractLsb' 0 24 ++ w.extractLsb' 24 8

/-- The round-constant ROM `RCON[0..10]` (R39, R143). -/
def rconTable : List Byte := [0x00, 0x01, 0x02, 0x04, 0x08, 0x10, 0x20, 0x40, 0x80, 0x1B, 0x36]

/-- `RCON[i]` (R143). The rules read indexes 1..10 only. -/
def rcon (i : Nat) : Byte := rconTable.getD i 0

/-- The word `t` that R141 XORs in at byte offset `i`: the previous word, transformed when `i` is a
round boundary. -/
def scheduleWord (v : Variant) (xk : List Byte) (i : Nat) : ByteWord :=
  let t := wordAt xk (i - 4)
  if i % 16 = 0 then
    (subWord v (rotWord t)).xor ⟨rcon (i / 16), 0x00, 0x00, 0x00⟩
  else t

/-- One turn of the loop of R141: the 4 bytes at offset `i = xk.length` are appended. -/
def appendWord (v : Variant) (xk : List Byte) : List Byte :=
  let i := xk.length
  let w := (wordAt xk (i - 16)).xor (scheduleWord v xk i)
  xk ++ [w.b0, w.b1, w.b2, w.b3]

/-- `n` turns of the loop of R141. -/
def appendWords (v : Variant) : Nat → List Byte → List Byte
  | 0, xk => xk
  | n + 1, xk => appendWords v n (appendWord v xk)

/-- `KeyExpansion(key, v)` (R141): the key, then 40 words, "i is the byte offset" 16, 20, …, 172. -/
def keyExpansion (key : Block) (v : Variant) : List Byte := appendWords v 40 key.bytes

/-- `RoundKey(xk, n)`, the slice `xk[16n .. 16n+15]` (R10). -/
def roundKey (xk : List Byte) (n : Nat) : Block := blockAt xk (16 * n)

/-- Round key `r` from round key `r-1` on packed words (R144, R201): "the chain is combinational
inside the edge". -/
def nextRoundKey (v : Variant) (r : Nat) (g : Regs4) : Regs4 :=
  let w0 := g.r0 ^^^ b2w (subWord v (w2b (rotWord32 g.r3))) ^^^ ((rcon r).setWidth 32 <<< 24)
  let w1 := g.r1 ^^^ w0
  let w2 := g.r2 ^^^ w1
  let w3 := g.r3 ^^^ w2
  ⟨w0, w1, w2, w3⟩

/-- EXPAND (R146): acceptance latches KEY and VAR and starts the KX phase, which 10 steps of the
sequencer then carry out (R201, R202). -/
def execExpand (var : Variant) (s : State) : Outcome := acceptMulti 0x01 var s

end Sys2Proof.Machine
end

