-- ==== Sys2Proof/Machine/GfArith.lean ====
section
/-! DEFINITION. The GF(2^8) multiplier and reducer (40_gf_arith.md, R100–R104) and the commands
GFDOUBLE (R106) and GFMUL (R107). -/

namespace Sys2Proof.Machine

/-- `gf_double(b) = ((b << 1) & 0xFF) ⊕ (if b[7] = 1 then 0x1B else 0x00)` (R102). The left shift
keeps 8 bits, which is the masking. -/
def gfDouble (b : Byte) : Byte := (b <<< 1) ^^^ (if b.getLsbD 7 then 0x1B else 0x00)

/-- The loop of `gf_mul` (R103): `n` more bits of `y`, least significant first. -/
def gfMulLoop : Nat → Byte → Byte → Byte → Byte
  | 0, p, _, _ => p
  | n + 1, p, x, y => gfMulLoop n (if y.getLsbD 0 then p ^^^ x else p) (gfDouble x) (y >>> 1)

/-- `gf_mul(a, b)` (R103): exactly 8 turns of the loop, one per bit of `b`. -/
def gfMul (a b : Byte) : Byte := gfMulLoop 8 0x00 a b

/-- GFDOUBLE (R106): `BRES <- gf_double(A)`. -/
def execGfdouble (a : Byte) (s : State) : Outcome :=
  acceptSingle none (Engine.writeBres (gfDouble a)) s

/-- GFMUL (R107): `BRES <- gf_mul(A, B)`. -/
def execGfmul (a b : Byte) (s : State) : Outcome :=
  acceptSingle none (Engine.writeBres (gfMul a b)) s

end Sys2Proof.Machine
end

