-- ==== Sys2Proof/Machine/RoundTransforms.lean ====
section
/-! DEFINITION. The round-transform datapath (43_round_transforms.md): the primitives and their
inverses as pure functions on Blocks (R160–R167), and the seven block commands (R173–R180). -/

namespace Sys2Proof.Machine

/-- `SubBytes(v, s)` (R160). -/
def subBytes (v : Variant) (s : Block) : Block := s.map (subByte v)

/-- `InvSubBytes(v, s)` (R161). -/
def invSubBytes (v : Variant) (s : Block) : Block := s.map (invSubByte v)

/-- The Block whose element (row, col) is `f row col`, in column-major order (R10). -/
def blockOfEntries (f : Fin 4 → Fin 4 → Byte) : Block :=
  ⟨⟨f 0 0, f 1 0, f 2 0, f 3 0⟩, ⟨f 0 1, f 1 1, f 2 1, f 3 1⟩,
   ⟨f 0 2, f 1 2, f 2 2, f 3 2⟩, ⟨f 0 3, f 1 3, f 2 3, f 3 3⟩⟩

/-- `ShiftRows(s)(r, c) = s(r, (c + r) mod 4)` (R162). Addition on `Fin 4` is modulo 4. -/
def shiftRows (s : Block) : Block := blockOfEntries fun r c => s.entry r (c + r)

/-- `InvShiftRows(s)(r, c) = s(r, (c - r) mod 4)` (R163). -/
def invShiftRows (s : Block) : Block := blockOfEntries fun r c => s.entry r (c - r)

/-- `m3(x) = gf_double(x) ⊕ x` (R164). -/
def gfTriple (x : Byte) : Byte := gfDouble x ^^^ x

/-- One column of MixColumns (R164). -/
def mixColumn (a : ByteWord) : ByteWord where
  b0 := gfDouble a.b0 ^^^ gfTriple a.b1 ^^^ a.b2 ^^^ a.b3
  b1 := a.b0 ^^^ gfDouble a.b1 ^^^ gfTriple a.b2 ^^^ a.b3
  b2 := a.b0 ^^^ a.b1 ^^^ gfDouble a.b2 ^^^ gfTriple a.b3
  b3 := gfTriple a.b0 ^^^ a.b1 ^^^ a.b2 ^^^ gfDouble a.b3

/-- `MixColumns(s)`: "the columns are independent" (R164). -/
def mixColumns (s : Block) : Block :=
  ⟨mixColumn s.c0, mixColumn s.c1, mixColumn s.c2, mixColumn s.c3⟩

/-- One column of InvMixColumns (R165). -/
def invMixColumn (a : ByteWord) : ByteWord where
  b0 := gfMul 0x0E a.b0 ^^^ gfMul 0x0B a.b1 ^^^ gfMul 0x0D a.b2 ^^^ gfMul 0x09 a.b3
  b1 := gfMul 0x09 a.b0 ^^^ gfMul 0x0E a.b1 ^^^ gfMul 0x0B a.b2 ^^^ gfMul 0x0D a.b3
  b2 := gfMul 0x0D a.b0 ^^^ gfMul 0x09 a.b1 ^^^ gfMul 0x0E a.b2 ^^^ gfMul 0x0B a.b3
  b3 := gfMul 0x0B a.b0 ^^^ gfMul 0x0D a.b1 ^^^ gfMul 0x09 a.b2 ^^^ gfMul 0x0E a.b3

/-- `InvMixColumns(s)` (R165). -/
def invMixColumns (s : Block) : Block :=
  ⟨invMixColumn s.c0, invMixColumn s.c1, invMixColumn s.c2, invMixColumn s.c3⟩

/-- `AddRoundKey(s, k)[i] = s[i] ⊕ k[i]` (R166). -/
def addRoundKey (s k : Block) : Block := s.xor k

/-- The template of R173: `DOUT <- b2w-packed(f(BlockOf(DIN)))`, reading the engine "as it stands
before that edge". -/
def blockCommand (var : Option Variant) (f : Engine → Block → Block) (s : State) : Outcome :=
  acceptSingle var (fun e => e.writeDout (f e (blockOf e.din))) s

/-- SUBBYTES (R174): `DOUT <- SubBytes(VAR, BlockOf(DIN))`. -/
def execSubbytes (var : Variant) (s : State) : Outcome :=
  blockCommand (some var) (fun _ b => subBytes var b) s

/-- INVSUBBYTES (R175): `DOUT <- InvSubBytes(VAR, BlockOf(DIN))`. -/
def execInvsubbytes (var : Variant) (s : State) : Outcome :=
  blockCommand (some var) (fun _ b => invSubBytes var b) s

/-- SHIFTROWS (R176): `DOUT <- ShiftRows(BlockOf(DIN))`. -/
def execShiftrows (s : State) : Outcome := blockCommand none (fun _ b => shiftRows b) s

/-- INVSHIFTROWS (R177): `DOUT <- InvShiftRows(BlockOf(DIN))`. -/
def execInvshiftrows (s : State) : Outcome := blockCommand none (fun _ b => invShiftRows b) s

/-- MIXCOLUMNS (R178): `DOUT <- MixColumns(BlockOf(DIN))`. -/
def execMixcolumns (s : State) : Outcome := blockCommand none (fun _ b => mixColumns b) s

/-- INVMIXCOLUMNS (R179): `DOUT <- InvMixColumns(BlockOf(DIN))`. -/
def execInvmixcolumns (s : State) : Outcome := blockCommand none (fun _ b => invMixColumns b) s

/-- ADDROUNDKEY (R180): `DOUT <- AddRoundKey(BlockOf(DIN), BlockOf(KEY))`. It uses KEY, not RK. -/
def execAddroundkey (s : State) : Outcome :=
  blockCommand none (fun e b => addRoundKey b (blockOf e.key)) s

end Sys2Proof.Machine
end

