-- ==== Sys2Proof/Machine/CipherSequencer.lean ====
section
/-! DEFINITION. The encrypt/decrypt sequencer (44_cipher_sequencer.md): the cipher functions
`Cipher` (R190) and `InvCipher` (R191), the sequencer's steps (R196, R200–R208), and the commands
ENCRYPT (R211) and DECRYPT (R212). -/

namespace Sys2Proof.Machine

/-- A full encryption round: AddRoundKey ∘ MixColumns ∘ ShiftRows ∘ SubBytes (R190, R204). -/
def encRound (v : Variant) (k s : Block) : Block :=
  addRoundKey (mixColumns (shiftRows (subBytes v s))) k

/-- The last encryption round, "MixColumns omitted" (R190, R205). -/
def encLastRound (v : Variant) (k s : Block) : Block := addRoundKey (shiftRows (subBytes v s)) k

/-- A full decryption round: InvMixColumns ∘ AddRoundKey ∘ InvSubBytes ∘ InvShiftRows (R191, R207). -/
def decRound (v : Variant) (k s : Block) : Block :=
  invMixColumns (addRoundKey (invSubBytes v (invShiftRows s)) k)

/-- The last decryption round (R191, R208). -/
def decLastRound (v : Variant) (k s : Block) : Block :=
  addRoundKey (invSubBytes v (invShiftRows s)) k

/-- `Cipher(b, key, v)` (R190): rounds 1..9 in order, then round 10. -/
def cipher (b key : Block) (v : Variant) : Block :=
  let xk := keyExpansion key v
  let s := addRoundKey b (roundKey xk 0)
  let s := [1, 2, 3, 4, 5, 6, 7, 8, 9].foldl (fun s r => encRound v (roundKey xk r) s) s
  encLastRound v (roundKey xk 10) s

/-- `InvCipher(b, key, v)` (R191): rounds 9, 8, …, 1 in order, then the last. The expansion is "the
same forward-table expansion". -/
def invCipher (b key : Block) (v : Variant) : Block :=
  let xk := keyExpansion key v
  let s := addRoundKey b (roundKey xk 10)
  let s := [9, 8, 7, 6, 5, 4, 3, 2, 1].foldl (fun s r => decRound v (roundKey xk r) s) s
  decLastRound v (roundKey xk 0) s

/-- What a sequencer step answers: the engine after it and `doneSet`, or the reason why the spec
has no step for the engine it was given. -/
abbrev StepResult := Except Fault (Engine × Bool)

/-- A step that goes on, so that `doneSet` is false (R196). -/
def goesOn (e : Engine) : StepResult := .ok (e, false)

/-- A step that completes the command, so that `doneSet` is true (R200). -/
def completes (e : Engine) : StepResult := .ok (e.complete, true)

/-- A step that reads the S-box with the variant of LVAR, "never the VAR field of a later command
write" (R37). -/
def withLvar (e : Engine) (k : Variant → StepResult) : StepResult :=
  match Variant.ofCode e.lvar with
  | some v => k v
  | none => .error .variantOutOfRange

/-- `KXLast(t, s)` (R202): the choice on LOP at the last KX step. -/
def kxLast (t : Engine) : StepResult :=
  if t.lop = 0x01 then completes t
  else if t.lop = 0x02 then goesOn { t with phase := .enc, rnd := 0 }
  else if t.lop = 0x03 then goesOn { t with phase := .dec, rnd := 10 }
  else .error .kxUnknownOpcode

/-- `KXStep(t, s)` (R201): round key `r = RND` from round key `r - 1`. -/
def kxStep (s : Engine) : StepResult :=
  let r := s.rnd.toNat
  if r = 0 ∨ 10 < r then .error .kxRoundOutOfRange
  else withLvar s fun v =>
    let t := { s with rk := rkSetGroup s.rk r (nextRoundKey v r (rkGroup s.rk (r - 1))) }
    if r < 10 then goesOn { t with rnd := s.rnd + 1 } else kxLast t

/-- `EncStep(t, s)` (R203, R204, R205). -/
def encStep (s : Engine) : StepResult :=
  let r := s.rnd.toNat
  if r = 0 then goesOn { s with st := addRoundKey s.st (roundKeyRK s.rk 0), rnd := 1 }
  else if r ≤ 9 then withLvar s fun v =>
    goesOn { s with st := encRound v (roundKeyRK s.rk r) s.st, rnd := s.rnd + 1 }
  else if r = 10 then withLvar s fun v =>
    let b := encLastRound v (roundKeyRK s.rk 10) s.st
    completes { s with st := b, dout := packed b }
  else .error .encRoundOutOfRange

/-- `DecStep(t, s)` (R206, R207, R208). -/
def decStep (s : Engine) : StepResult :=
  let r := s.rnd.toNat
  if r = 10 then goesOn { s with st := addRoundKey s.st (roundKeyRK s.rk 10), rnd := 9 }
  else if r = 0 then withLvar s fun v =>
    let b := decLastRound v (roundKeyRK s.rk 0) s.st
    completes { s with st := b, dout := packed b }
  else if r ≤ 9 then withLvar s fun v =>
    goesOn { s with st := decRound v (roundKeyRK s.rk r) s.st, rnd := s.rnd - 1 }
  else .error .decRoundOutOfRange

/-- `Step(s)` (R196), chosen by PHASE; in IDLE no step is due (R60). -/
def seqStep (s : Engine) : StepResult :=
  match s.phase with
  | .idle => goesOn s
  | .kx => kxStep s
  | .enc => encStep s
  | .dec => decStep s

/-- ENCRYPT (R211): acceptance latches KEY, DIN and VAR; 10 KX steps and 11 ENC steps follow. -/
def execEncrypt (var : Variant) (s : State) : Outcome := acceptMulti 0x02 var s

/-- DECRYPT (R212): acceptance latches KEY, DIN and VAR; 10 KX steps and 11 DEC steps follow. -/
def execDecrypt (var : Variant) (s : State) : Outcome := acceptMulti 0x03 var s

end Sys2Proof.Machine
end

