-- ==== Sys2Proof/Machine/Control.lean ====
section
/-! DEFINITION. The control commands NOP (R230) and CLEAR (R231). -/

namespace Sys2Proof.Machine

/-- NOP (R230): DONE is 1 afterwards, and "nothing else changes". -/
def execNop (s : State) : Outcome := acceptSingle none id s

/-- The elements CLEAR zeroes (R231). PHASE is IDLE already; CTRL, ERR, ERRCODE and WARN stay. -/
def Engine.erase (e : Engine) : Engine :=
  { e with
    key := zeroRegs
    din := zeroRegs
    dout := zeroRegs
    bres := 0
    rk := Vector.replicate 44 0
    st := zeroBlock
    rnd := 0
    lop := 0x00
    lvar := 0 }

/-- CLEAR (R231): erase all key and data state. -/
def execClear (s : State) : Outcome := acceptSingle none Engine.erase s

end Sys2Proof.Machine
end

