-- ==== Sys2Proof/Machine/Dispatch.lean ====
section
/-! DEFINITION. exec: one arm per constructor of Instr, each a call of its meaning. exec is the edge at
which the command word of `i` is written to CMD (R192): its acceptance (R193), or its rejection with
CmdWhileBusy when the engine is busy (R57). -/

namespace Sys2Proof.Machine

def exec (i : Instr) (s : State) : Host.Outcome State Fault Refusal :=
  match i with
  | .nop => Sys2Proof.Machine.execNop s
  | .expand var => Sys2Proof.Machine.execExpand var s
  | .encrypt var => Sys2Proof.Machine.execEncrypt var s
  | .decrypt var => Sys2Proof.Machine.execDecrypt var s
  | .subbytes var => Sys2Proof.Machine.execSubbytes var s
  | .invsubbytes var => Sys2Proof.Machine.execInvsubbytes var s
  | .shiftrows => Sys2Proof.Machine.execShiftrows s
  | .invshiftrows => Sys2Proof.Machine.execInvshiftrows s
  | .mixcolumns => Sys2Proof.Machine.execMixcolumns s
  | .invmixcolumns => Sys2Proof.Machine.execInvmixcolumns s
  | .addroundkey => Sys2Proof.Machine.execAddroundkey s
  | .gfdouble a => Sys2Proof.Machine.execGfdouble a s
  | .gfmul a b => Sys2Proof.Machine.execGfmul a b s
  | .sbox var a => Sys2Proof.Machine.execSbox var a s
  | .invsbox var a => Sys2Proof.Machine.execInvsbox var a s
  | .clear => Sys2Proof.Machine.execClear s

end Sys2Proof.Machine
end

