-- ==== Sys2Proof/Machine/Bus.lean ====
section
/-! DEFINITION. The clock edge: the bus write (R57), the command write (R192), and `Cycle` (R60);
reset (R270); and the host's side of one cycle: the outputs it sees (R50) and the values its script
records (R90, R91). -/

namespace Sys2Proof.Machine

/-- `CommandWrite(t, d)` (R192): decode, and reject or accept. -/
def commandWrite (d : Word) (s : State) : Outcome :=
  match decode d with
  | .reject c => reject c s
  | .legal i => exec i s

/-- `HostWrite(t, busy0, doneSet, a, d)` (R57). `busy0` is BUSY before the edge, so a command written
while BUSY = 1 is not decoded, even when the same edge completes the running command (R251 (b)). -/
def hostWrite (busy0 doneSet : Bool) (addr : Addr) (d : Word) (s : State) : Outcome :=
  match regAt addr with
  | some .cmd => if busy0 then reject .cmdWhileBusy s else commandWrite d s
  | some .status => .next (s.onEngine (Engine.statusWrite doneSet d))
  | some r => .next (s.onEngine (Engine.writePlain r d))
  | none => .next s

/-- The host's part of an edge (R60): a write is applied after the sequencer's step, and a read
"changes no state" (R53). -/
def hostAccess (acc : Access) (busy0 doneSet : Bool) (s : State) : Outcome :=
  match acc with
  | .noAccess => .next s
  | .read _ => .next s
  | .write addr d => hostWrite busy0 doneSet addr d s

/-- The state part of `Cycle(s, acc)` (R60): the sequencer's step if one is due, then the host's
write. The outputs are those of `outRdata` and `outIrq`. -/
def cycle (acc : Access) (s : State) : Outcome :=
  match seqStep s.engine with
  | .error f => .fault f
  | .ok (t, doneSet) => hostAccess acc s.engine.busy doneSet { s with engine := t }

/-- `rdata` in a cycle (R50, R60): the value read, from the state before the edge; 0 when the access
is no read, and 0 while `rst_n` = 0 (R270 (b)). -/
def outRdata (acc : Access) (s : State) : Word :=
  match acc with
  | .read addr => if s.rstN then s.engine.readValue addr else 0x00000000
  | .noAccess => 0x00000000
  | .write _ _ => 0x00000000

/-- `irq` in a cycle (R60), from the state before the edge; 0 while `rst_n` = 0 (R270 (b)). -/
def outIrq (s : State) : Bool := s.rstN && s.engine.irq

/-- The outputs of the cycle that carries `acc`, for the host to see. -/
def State.outputs (acc : Access) (s : State) : State :=
  { s with rdata := outRdata acc s, irq := outIrq s }

/-- The state with the host's remaining events replaced. -/
def State.withHost (rest : List HostEvent) (s : State) : State := { s with host := rest }

/-- "The script records the value" (R90). -/
def State.record (v : Word) (s : State) : State := { s with recorded := s.recorded ++ [v] }

/-- What the script records of an access: a read's value, and nothing otherwise (R90). -/
def State.recordRead (acc : Access) (s : State) : State :=
  match acc with
  | .read _ => s.record s.rdata
  | .noAccess => s
  | .write _ _ => s

/-- A rising clock edge with access `acc`. While `rst_n` = 0 "no Cycle is applied" and "the state
stays the reset state" (R270 (b)). -/
def clockEdge (acc : Access) (s : State) : Outcome :=
  if s.rstN then cycle acc s else .next { s with engine := Engine.reset }

/-- A cycle in which the host drives its ports with `acc`. -/
def clockStep (acc : Access) (rest : List HostEvent) (s : State) : Outcome :=
  clockEdge acc (((s.outputs acc).recordRead acc).withHost rest)

/-- One turn of WAIT (R91): read STATUS; "repeat while bit 0 of the value read is 1"; "the script
records the last value read". -/
def waitStep (rest : List HostEvent) (s : State) : Outcome :=
  let acc := Access.read RegName.status.addr
  let t := s.outputs acc
  if t.rdata.getLsbD 0 then clockEdge acc (t.withHost (.wait :: rest))
  else clockEdge acc ((t.record t.rdata).withHost rest)

/-- `rst_n` falls (R270 (a)): "every element of the state takes the reset value at once, without
waiting for a clock edge", and the outputs are 0. -/
def resetFall (rest : List HostEvent) (s : State) : Outcome :=
  .next { s with engine := Engine.reset, rstN := false, host := rest, rdata := 0, irq := false }

/-- `rst_n` rises (R270 (c)): the next clock edge is the first that applies Cycle. -/
def resetRise (rest : List HostEvent) (s : State) : Outcome :=
  .next { s with rstN := true, host := rest }

/-- What the next event of the host and the platform does; with none left, the clock runs on and the
host makes no access. -/
def nextEvent (s : State) : Outcome :=
  match s.host with
  | [] => clockStep .noAccess [] s
  | .clock p :: rest => clockStep p.access rest s
  | .wait :: rest => waitStep rest s
  | .rstFall :: rest => resetFall rest s
  | .rstRise :: rest => resetRise rest s

/-- The host is about to write the word `d` to CMD, to an engine that can take a command: `rst_n` = 1
and PHASE = IDLE, RND = 0. -/
def presentCommand (d : Word) (s : State) : State :=
  { s with
    engine := { s.engine with phase := .idle, rnd := 0 }
    rstN := true
    host := .clock (Access.pins (.write RegName.cmd.addr d)) :: s.host }

end Sys2Proof.Machine
end

