-- ==== Sys2Proof/Machine/HostScript.lean ====
section
/-! DEFINITION. The host-script statements of R90 and the pseudo-instructions of R91, as data, with
their exact expansions into bus cycles. Their spelling as text is not modelled (decision D34: "a
model need not parse it"). -/

namespace Sys2Proof.Machine

/-- `<reg>` "is a name of R51 … or an address" (R90). -/
inductive Target
  | named (r : RegName)
  | address (a : Addr)
deriving DecidableEq, Repr

/-- A host-script statement (R90) or pseudo-instruction (R91). -/
inductive Stmt
  | w (reg : Target) (value : Word)
  | r (reg : Target)
  | idle (n : Nat)
  | c (i : Instr)
  | wait
  | ldkey (k : Block)
  | ldin (b : Block)
  | rdout
  | clrst
deriving DecidableEq, Repr

/-- The address a target stands for (R51). -/
def Target.addr : Target → Addr
  | .named r => r.addr
  | .address a => a

/-- One bus write in one cycle. -/
def writeCycle (a : Addr) (d : Word) : HostEvent := .clock (Access.pins (.write a d))

/-- One bus read in one cycle. -/
def readCycle (a : Addr) : HostEvent := .clock (Access.pins (.read a))

/-- The bus cycles of a statement (R90, R91). -/
def Stmt.expand : Stmt → List HostEvent
  | .w reg v => [writeCycle reg.addr v]
  | .r reg => [readCycle reg.addr]
  | .idle n => List.replicate n (.clock (Access.pins .noAccess))
  | .c i => [writeCycle RegName.cmd.addr (encode i)]
  | .wait => [.wait]
  | .ldkey k =>
    [writeCycle (RegName.key 0).addr (packed k).r0, writeCycle (RegName.key 1).addr (packed k).r1,
     writeCycle (RegName.key 2).addr (packed k).r2, writeCycle (RegName.key 3).addr (packed k).r3]
  | .ldin b =>
    [writeCycle (RegName.din 0).addr (packed b).r0, writeCycle (RegName.din 1).addr (packed b).r1,
     writeCycle (RegName.din 2).addr (packed b).r2, writeCycle (RegName.din 3).addr (packed b).r3]
  | .rdout =>
    [readCycle (RegName.dout 0).addr, readCycle (RegName.dout 1).addr,
     readCycle (RegName.dout 2).addr, readCycle (RegName.dout 3).addr]
  | .clrst => [writeCycle RegName.status.addr 0x0000000E]

/-- The bus cycles of a script, statement by statement. -/
def expandScript (script : List Stmt) : List HostEvent := script.flatMap Stmt.expand

/-- The machine with a script for its host still to run. -/
def State.withScript (script : List Stmt) (s : State) : State :=
  { s with host := s.host ++ expandScript script }

end Sys2Proof.Machine
end

