-- ==== Sys2Proof/Machine/Step.lean ====
section
/-! DEFINITION. The step function: one event at the engine's ports, which is one clock edge or one
change of `rst_n` (R60, R270); and the host's entry point `State.withFetchWord`. -/

namespace Sys2Proof.Machine

/-- One step of the machine (R60, R270): a next state, or a fault where the spec has no rule. -/
def step (s : State) : Host.Outcome State Fault Refusal := nextEvent s

/-- The state in which the very next step writes the given command word to CMD and the engine takes
it: the engine fetches nothing (R63), so its "next instruction" is the host's next CMD write. -/
def State.withFetchWord (s : State) (nbits w : Nat) : State := presentCommand (tableWord nbits w) s

end Sys2Proof.Machine
end

