-- ==== Sys2Proof/Safety.lean ====
section
/-! DEFINITION. The terms in which claims are stated: the invariant of R42, what a safe state is, and
what the next step is about to be (a clock edge, a write to a register, an accepted or a rejected
command, a reset). -/

namespace Sys2Proof

/-- The variant a command uses; none where its opcode has no variant (R82). -/
def Instr.variant : Instr → Option Variant
  | .nop => none
  | .expand v => some v
  | .encrypt v => some v
  | .decrypt v => some v
  | .subbytes v => some v
  | .invsubbytes v => some v
  | .shiftrows => none
  | .invshiftrows => none
  | .mixcolumns => none
  | .invmixcolumns => none
  | .addroundkey => none
  | .gfdouble _ => none
  | .gfmul _ _ => none
  | .sbox v _ => some v
  | .invsbox v _ => some v
  | .clear => none

/-- The multi-step commands, which run on after their acceptance edge; every other command is
single-edge (R82). -/
def Instr.multiStep : Instr → Bool
  | .expand _ => true
  | .encrypt _ => true
  | .decrypt _ => true
  | .nop => false
  | .subbytes _ => false
  | .invsubbytes _ => false
  | .shiftrows => false
  | .invshiftrows => false
  | .mixcolumns => false
  | .invmixcolumns => false
  | .addroundkey => false
  | .gfdouble _ => false
  | .gfmul _ _ => false
  | .sbox _ _ => false
  | .invsbox _ _ => false
  | .clear => false

end Sys2Proof

namespace Sys2Proof.Machine

/-- The invariant of R42 on the engine, clause by clause. -/
structure Engine.Inv (e : Engine) : Prop where
  /-- R42 (a). -/
  idleRound : e.phase = .idle → e.rnd = 0
  /-- R42 (b). -/
  kxRound : e.phase = .kx → 1 ≤ e.rnd ∧ e.rnd ≤ 10 ∧ (e.lop = 0x01 ∨ e.lop = 0x02 ∨ e.lop = 0x03)
  /-- R42 (c). -/
  encRound : e.phase = .enc → e.rnd ≤ 10 ∧ e.lop = 0x02
  /-- R42 (d). -/
  decRound : e.phase = .dec → e.rnd ≤ 10 ∧ e.lop = 0x03
  /-- R42 (e). -/
  variantCode : e.lvar ≤ 5
  /-- R42 (f). -/
  noCodeWithoutErr : e.err = false → e.errcode = 0
  /-- R42 (g): the codes 1, 3 and 4 are "allocated but no rule raises them" (R242). -/
  codeRaised : e.errcode = 0 ∨ e.errcode = 2 ∨ e.errcode = 5 ∨ e.errcode = 6

/-- The invariant of the machine: R42, and "the state stays the reset state" while `rst_n` = 0
(R270 (b)). -/
structure State.Inv (s : State) : Prop where
  engine : s.engine.Inv
  inReset : s.rstN = false → s.engine = Engine.reset

/-- A safe state: the next step is neither a fault nor a refusal. -/
def State.Safe (s : State) : Prop := ∃ t, step s = .next t

/-- An event that is a clock edge, not a change of `rst_n`. -/
def HostEvent.isEdge : HostEvent → Bool
  | .clock _ => true
  | .wait => true
  | .rstFall => false
  | .rstRise => false

/-- The next step is a clock edge: the host's next event is one, or the host has no event left. -/
def State.atEdge (s : State) : Prop :=
  match s.host with
  | [] => True
  | ev :: _ => ev.isEdge = true

/-- The next step is a clock edge at which Cycle is applied (R60, R270 (c)). -/
def State.atCycle (s : State) : Prop := s.rstN = true ∧ s.atEdge

/-- The next `n` steps are clock edges. -/
def State.edgesAhead (s : State) (n : Nat) : Prop := ∀ ev ∈ s.host.take n, ev.isEdge = true

/-- The access that the ports carry in the next step's cycle; WAIT reads STATUS (R91). -/
def State.access (s : State) : Access :=
  match s.host with
  | [] => .noAccess
  | .clock p :: _ => p.access
  | .wait :: _ => .read RegName.status.addr
  | .rstFall :: _ => .noAccess
  | .rstRise :: _ => .noAccess

/-- In the next step the ports carry the access `acc`, and Cycle is applied. -/
def State.presents (s : State) (acc : Access) : Prop := s.atCycle ∧ s.access = acc

/-- In the next step the host writes `d` to the register `r`. -/
def State.writesReg (s : State) (r : RegName) (d : Word) : Prop :=
  ∃ addr, regAt addr = some r ∧ s.presents (.write addr d)

/-- In the next step the host writes `d` to the address `addr`, which has no register. -/
def State.writesNowhere (s : State) (addr : Addr) (d : Word) : Prop :=
  regAt addr = none ∧ s.presents (.write addr d)

/-- The next step is the acceptance edge of the command `i` (R193). -/
def State.accepts (s : State) (i : Instr) : Prop :=
  s.engine.phase = .idle ∧ ∃ d, decode d = .legal i ∧ s.writesReg .cmd d

/-- The next step is a rejection with code `c` (R244): a CMD write while BUSY = 1 with CmdWhileBusy,
or a word written while BUSY = 0 that the decoder rejects. -/
def State.rejects (s : State) (c : ErrCode) : Prop :=
  ∃ d, s.writesReg .cmd d ∧
    ((s.engine.phase ≠ .idle ∧ c = .cmdWhileBusy) ∨ (s.engine.phase = .idle ∧ decode d = .reject c))

/-- The next step is taken in reset: `rst_n` falls, or it is 0 at a clock edge (R270). -/
def State.resets (s : State) : Prop :=
  (∃ rest, s.host = .rstFall :: rest) ∨ (s.rstN = false ∧ s.atEdge)

end Sys2Proof.Machine
end

