-- ==== Sys2Proof/Certificates/Slice0/Obligations.lean ====
section
/-! DEFINITION. The statements for the provers, one `def Obligations.<Name> : Prop` each, listed in
OBLIGATIONS.json. Each docstring names the rule of the spec it formalises. "The engine `e` after the
step" in a statement about an edge is `seqStep s.engine = .ok (e, b)`: the step that is due when
BUSY = 1, and `e = s.engine` when it is not (R60). -/

namespace Sys2Proof.Claims

open Sys2Proof.Machine

/-- The product of `a` and `b` as polynomials over GF(2), before any reduction: bit `i` of `b` adds
`a · x^i` (R100). -/
def polyProduct (a b : Byte) : BitVec 16 :=
  [0, 1, 2, 3, 4, 5, 6, 7].foldl
    (fun p i => if b.getLsbD i then p ^^^ (a.setWidth 16 <<< i) else p) 0

/-- The remainder modulo `m(x) = x^8 + x^4 + x^3 + x + 1`, 0x11B (R101), by long division. -/
def polyMod (p : BitVec 16) : Byte :=
  ([14, 13, 12, 11, 10, 9, 8].foldl
    (fun p d => if p.getLsbD d then p ^^^ ((0x11B : BitVec 16) <<< (d - 8)) else p) p).setWidth 8

/-- `Affine(c)` of R124. -/
def affine (c : Byte) : Byte :=
  c ^^^ c.rotateLeft 1 ^^^ c.rotateLeft 2 ^^^ c.rotateLeft 3 ^^^ c.rotateLeft 4 ^^^ 0x63

/-- The permutation `P` of R162. -/
def shiftP : List Nat := [0, 5, 10, 15, 4, 9, 14, 3, 8, 13, 2, 7, 12, 1, 6, 11]

/-- The permutation `Q` of R163. -/
def shiftQ : List Nat := [0, 13, 10, 7, 4, 1, 14, 11, 8, 5, 2, 15, 12, 9, 6, 3]

/-- The Block of bytes written in order, byte 0 first, as four 32-bit columns (R52). -/
def hexBlock (w0 w1 w2 w3 : Word) : Block := blockOf ⟨w0, w1, w2, w3⟩

/-- The commands whose result is DOUT (R23). -/
def writesDout : Instr → Bool
  | .subbytes _ => true
  | .invsubbytes _ => true
  | .shiftrows => true
  | .invshiftrows => true
  | .mixcolumns => true
  | .invmixcolumns => true
  | .addroundkey => true
  | .clear => true
  | .nop => false
  | .expand _ => false
  | .encrypt _ => false
  | .decrypt _ => false
  | .gfdouble _ => false
  | .gfmul _ _ => false
  | .sbox _ _ => false
  | .invsbox _ _ => false

/-- The commands whose result is BRES (R24). -/
def writesBres : Instr → Bool
  | .gfdouble _ => true
  | .gfmul _ _ => true
  | .sbox _ _ => true
  | .invsbox _ _ => true
  | .clear => true
  | .nop => false
  | .expand _ => false
  | .encrypt _ => false
  | .decrypt _ => false
  | .subbytes _ => false
  | .invsubbytes _ => false
  | .shiftrows => false
  | .invshiftrows => false
  | .mixcolumns => false
  | .invmixcolumns => false
  | .addroundkey => false

/-- The completion edge of a command, counted from its acceptance edge E0 (R197, R282). -/
def completionEdge : Instr → Nat
  | .expand _ => 10
  | .encrypt _ => 21
  | .decrypt _ => 21
  | .nop => 0
  | .subbytes _ => 0
  | .invsubbytes _ => 0
  | .shiftrows => 0
  | .invshiftrows => 0
  | .mixcolumns => 0
  | .invmixcolumns => 0
  | .addroundkey => 0
  | .gfdouble _ => 0
  | .gfmul _ _ => 0
  | .sbox _ _ => 0
  | .invsbox _ _ => 0
  | .clear => 0

/-- PHASE and RND after edge `n` of a command (R197). Before its completion edge a command is in KX
after edges 0..9, and after the edges 10..20 ENCRYPT is in ENC and DECRYPT in DEC. -/
def schedule (i : Instr) (n : Nat) : Phase × BitVec 4 :=
  if completionEdge i ≤ n then (.idle, 0)
  else if n < 10 then (.kx, BitVec.ofNat 4 (n + 1))
  else match i with
    | .decrypt _ => (.dec, BitVec.ofNat 4 (20 - n))
    | _ => (.enc, BitVec.ofNat 4 (n - 10))

/-- The word `w`, written to CMD while BUSY = 0, is refused with code `c`, and nothing changes but ERR
and ERRCODE (R244). -/
def rejectedWith (w : Word) (c : ErrCode) : Prop :=
  decode w = .reject c ∧
  ∀ s : State, commandWrite w s =
    .next { s with engine := { s.engine with err := true, errcode := c.code } }

end Sys2Proof.Claims

open Sys2Proof Sys2Proof.Machine Sys2Proof.Claims

/-! ## Encoding -/

/-- Every instruction is well-formed, and decoding its word gives it back with every operand
(30_encoding.md sections 3 to 5: Encode of R92 and Decode of R88). -/
def Obligations.EncodeDecodeRoundTrip : Prop :=
  ∀ i : Instr, i.wellFormed = true ∧ decode (encode i) = .legal i

/-- R85: a word with a non-zero unused field is rejected with IllegalCommand; each command has
exactly one encoding; and its row of the opcode table masks exactly the used fields. -/
def Obligations.UnusedFieldsRejectedOneEncodingEach : Prop :=
  (∀ w : Word,
    ((Command.ofWord w).rsv ≠ 0 ∨
     ((Command.ofWord w).var ≠ 0 ∧
        (Command.ofWord w).op ∉ [0x01#8, 0x02#8, 0x03#8, 0x04#8, 0x05#8, 0x0D#8, 0x0E#8]) ∨
     ((Command.ofWord w).a ≠ 0 ∧ (Command.ofWord w).op ∉ [0x0B#8, 0x0C#8, 0x0D#8, 0x0E#8]) ∨
     ((Command.ofWord w).b ≠ 0 ∧ (Command.ofWord w).op ≠ 0x0C)) →
    decode w = .reject .illegalCommand) ∧
  (∀ (w : Word) (i : Instr), decode w = .legal i ↔ w = encode i) ∧
  (∀ i : Instr, (tableRow i).mask = ~~~(
    (if (Command.ofInstr i).op ∈ [0x01#8, 0x02#8, 0x03#8, 0x04#8, 0x05#8, 0x0D#8, 0x0E#8]
      then 0x00000700#32 else 0) |||
    (if (Command.ofInstr i).op ∈ [0x0B#8, 0x0C#8, 0x0D#8, 0x0E#8] then 0x00FF0000#32 else 0) |||
    (if (Command.ofInstr i).op = 0x0C then 0xFF000000#32 else 0)))

/-- R86: every word is legal, illegal, or legal in form but naming no variant; the checks are those
of WellFormed.lean, written from R82 and R85. NOP has one encoding, and a rejected word changes
nothing but ERR and ERRCODE. -/
def Obligations.EveryWordInExactlyOneClass : Prop :=
  (∀ w : Word,
    ((∃ i, decode w = .legal i) ↔ (Command.ofWord w).wellFormed = true) ∧
    (decode w = .reject .illegalCommand ↔ (Command.ofWord w).formOk = false) ∧
    (decode w = .reject .invalidVariant ↔
      (Command.ofWord w).formOk = true ∧ (Command.ofWord w).variantNamed = false) ∧
    (decode w = .legal .nop ↔ w = 0) ∧
    (0x10 ≤ (Command.ofWord w).op → decode w = .reject .illegalCommand)) ∧
  (∀ (w : Word) (c : ErrCode) (s : State), decode w = .reject c →
    commandWrite w s =
      .next { s with engine := { s.engine with err := true, errcode := c.code } })

/-- Words written out bit by bit from the format `BBBBBBBB AAAAAAAA 00000vvv oooooooo` (R81) and the
opcodes of R82 decode to the commands they stand for, and the rejected words of R92's table are
rejected as it says. -/
def Obligations.WordsDecodeAsWritten : Prop :=
  decode 0b00000000_00000000_00000000_00000000 = .legal .nop ∧
  decode 0b00000000_00000000_00000011_00000001 = .legal (.expand .k81) ∧
  decode 0b00000000_00000000_00000010_00000010 = .legal (.encrypt .k44) ∧
  decode 0b00000000_00000000_00000101_00000011 = .legal (.decrypt .k128) ∧
  decode 0b00000000_00000000_00000100_00000100 = .legal (.subbytes .k111) ∧
  decode 0b00000000_00000000_00000000_00001010 = .legal .addroundkey ∧
  decode 0b00000000_10000000_00000000_00001011 = .legal (.gfdouble 0x80) ∧
  decode 0b10000011_01010111_00000000_00001100 = .legal (.gfmul 0x57 0x83) ∧
  decode 0b00000000_01010011_00000000_00001101 = .legal (.sbox .original 0x53) ∧
  decode 0b00000000_11101101_00000001_00001110 = .legal (.invsbox .k4 0xED) ∧
  decode 0b00000000_00000000_00000000_00001111 = .legal .clear ∧
  decode 0x00000010 = .reject .illegalCommand ∧
  decode 0x00000106 = .reject .illegalCommand ∧
  decode 0x00000800 = .reject .illegalCommand ∧
  decode 0x00000602 = .reject .invalidVariant ∧
  decode 0x00010702 = .reject .illegalCommand

/-- opcode_table.json against the decoder: a word that decodes to a command lies in the command's
row; a word lies in at most one row; and a word in a row decodes to a command of that row, unless its
VAR is 6 or 7. -/
def Obligations.OpcodeTableAgreesWithDecoder : Prop :=
  (∀ (w : Word) (i : Instr), decode w = .legal i →
    w &&& (tableRow i).mask = (tableRow i).pattern) ∧
  (∀ (w : Word) (i j : Instr), w &&& (tableRow i).mask = (tableRow i).pattern →
    w &&& (tableRow j).mask = (tableRow j).pattern → tableRow i = tableRow j) ∧
  (∀ (w : Word) (i : Instr), w &&& (tableRow i).mask = (tableRow i).pattern →
    (∃ j, decode w = .legal j ∧ tableRow j = tableRow i) ∨
    (5 < (Command.ofWord w).var ∧ decode w = .reject .invalidVariant))

/-! ## The step runs the decoded command -/

/-- When the host writes to CMD, while BUSY = 0, a word that decodes to `i`, the step is exec of `i`
on the state with the cycle's outputs set (R57, R60, R192): `rdata` is 0 for a write, `irq` is the
level before the edge, and the host's event is used up. -/
def Obligations.StepRunsTheDecodedCommand : Prop :=
  ∀ (s : State) (p : Pins) (rest : List HostEvent) (a : Addr) (d : Word) (i : Instr),
    s.rstN = true → s.host = .clock p :: rest → p.access = .write a d → regAt a = some .cmd →
    s.engine.phase = .idle → decode d = .legal i →
    step s = exec i { s with host := rest, rdata := 0, irq := s.engine.irq }

/-- `withFetchWord` presents a word so that the very next step runs it (log entry 3: a program comes
to the engine as the host's CMD writes). -/
def Obligations.PresentedWordRunsNext : Prop :=
  ∀ (s : State) (w : Nat) (i : Instr), decode (BitVec.ofNat 32 w) = .legal i →
    step (s.withFetchWord 32 w) =
      exec i { s with engine := { s.engine with phase := .idle, rnd := 0 }, rstN := true,
                      rdata := 0, irq := s.engine.irq }

/-! ## Rejection, priority and the flags -/

/-- R244: a rejection with code `c` sets ERR and ERRCODE and changes nothing else of the engine that
the edge would leave without it; a step still runs if one is due. -/
def Obligations.RejectionChangesOnlyErrAndErrcode : Prop :=
  ∀ (s : State) (c : ErrCode) (e : Engine) (b : Bool), s.rejects c →
    seqStep s.engine = .ok (e, b) →
    ∃ t, step s = .next t ∧ t.engine = { e with err := true, errcode := c.code } ∧
      (s.engine.phase = .idle → e = s.engine)

/-- R245: CmdWhileBusy before IllegalCommand before InvalidVariant, and exactly one code; with the
rule's own example words. -/
def Obligations.RejectionPriority : Prop :=
  (∀ (s : State) (d : Word) (e : Engine) (b : Bool), s.writesReg .cmd d →
    seqStep s.engine = .ok (e, b) →
    ∃ t, step s = .next t ∧
      (s.engine.phase ≠ .idle → t.engine.err = true ∧ t.engine.errcode = 6) ∧
      (s.engine.phase = .idle → (Command.ofWord d).formOk = false →
        t.engine.err = true ∧ t.engine.errcode = 5) ∧
      (s.engine.phase = .idle → (Command.ofWord d).formOk = true →
        (Command.ofWord d).variantNamed = false → t.engine.err = true ∧ t.engine.errcode = 2) ∧
      (s.engine.phase = .idle → (Command.ofWord d).wellFormed = true →
        t.engine.err = s.engine.err ∧ t.engine.errcode = s.engine.errcode)) ∧
  decode 0x00000702 = .reject .invalidVariant ∧ decode 0x00010702 = .reject .illegalCommand

/-- R246, over every step: ERR and ERRCODE become 1 and the code at a rejection, 0 at a
write-1-to-clear of ERR and in reset, and change at nothing else. -/
def Obligations.ErrcodeHoldsMostRecentRejection : Prop :=
  ∀ s t : State, step s = .next t →
    (∀ c, s.rejects c → t.engine.err = true ∧ t.engine.errcode = c.code) ∧
    (∀ d, s.writesReg .status d → d.getLsbD 2 = true →
      t.engine.err = false ∧ t.engine.errcode = 0) ∧
    (s.resets → t.engine.err = false ∧ t.engine.errcode = 0) ∧
    ((∀ c, ¬ s.rejects c) → (∀ d, s.writesReg .status d → d.getLsbD 2 = false) → ¬ s.resets →
      t.engine.err = s.engine.err ∧ t.engine.errcode = s.engine.errcode)

/-- R249, over every step: WARN is set at the acceptance of a command with variant K128, cleared by a
write-1-to-clear and in reset, and changes at nothing else (a rejection among them); acceptance does
not touch ERR and ERRCODE. The flag does not change a command, K128's tables are read as stored, and
WARN does not drive `irq`. -/
def Obligations.WarnMarksAcceptedK128 : Prop :=
  (∀ s t : State, step s = .next t →
    (∀ i, s.accepts i →
      t.engine.warn = (s.engine.warn || decide (i.variant = some .k128)) ∧
      t.engine.err = s.engine.err ∧ t.engine.errcode = s.engine.errcode) ∧
    (∀ d, s.writesReg .status d → d.getLsbD 3 = true → t.engine.warn = false) ∧
    (s.resets → t.engine.warn = false) ∧
    ((∀ i, ¬ s.accepts i) → (∀ d, s.writesReg .status d → d.getLsbD 3 = false) → ¬ s.resets →
      t.engine.warn = s.engine.warn)) ∧
  (∀ (i : Instr) (s t : State) (w : Bool), s.engine.phase = .idle → exec i s = .next t →
    exec i { s with engine := { s.engine with warn := w } } =
      .next { t with engine := { t.engine with warn := w || decide (i.variant = some .k128) } }) ∧
  (∀ b : Byte, sboxFwd .k128 b = Config.k128.fwd b ∧ sboxInv .k128 b = Config.k128.inv b) ∧
  (∀ (e : Engine) (w : Bool), ({ e with warn := w } : Engine).irq = e.irq)

/-- DONE over every step (10_state.md section 3, 44_cipher_sequencer.md sections 2 and 3): 1 after a
completion, even when the same edge clears it; 1 after the acceptance of a single-edge command and 0
after that of a multi-step command; 0 after a write-1-to-clear and in reset; else unchanged. -/
def Obligations.DoneMarksCompletion : Prop :=
  (∀ (s t : State) (e : Engine) (b : Bool), s.atCycle → seqStep s.engine = .ok (e, b) →
    step s = .next t →
    (b = true → t.engine.done = true) ∧
    (∀ i, s.accepts i → t.engine.done = !i.multiStep) ∧
    (b = false → ∀ d, s.writesReg .status d → d.getLsbD 1 = true → t.engine.done = false) ∧
    (b = false → (∀ i, ¬ s.accepts i) → (∀ d, s.writesReg .status d → d.getLsbD 1 = false) →
      t.engine.done = s.engine.done)) ∧
  (∀ s t : State, step s = .next t → s.resets → t.engine.done = false)

/-! ## The commands

Each statement says, for every state and operand: the command's word; that exec on an idle engine answers
the next state with the command's effect, DONE = 1 (and WARN for K128) and nothing else changed; that
exec on a busy engine is the rejection CmdWhileBusy; and which words of the opcode are refused. The
values at the end are the rule's corner cases and its Example, which the spec marks as an inference of
its own ("derived"): they follow from the rest of the statement. -/

/-- R230, NOP: DONE is 1 afterwards and nothing else changes; with IE_DONE, `irq` is 1 in the next cycle.
The last clause is the rule's Example, from reset. -/
def Obligations.NopCommand : Prop :=
  encode .nop = 0x00000000 ∧
  (∀ w : Word, decode w = .legal .nop ↔ w = 0) ∧
  (∀ s : State, s.engine.phase = .idle →
    exec .nop s = .next { s with engine := { s.engine with done := true } } ∧
    (s.engine.ieDone = true → ∃ t, exec .nop s = .next t ∧
      ∀ u, t.rstN = true → t.atEdge → step t = .next u → u.irq = true)) ∧
  (∀ s : State, s.engine.phase ≠ .idle →
    exec .nop s = .next { s with engine := { s.engine with err := true, errcode := 6 } }) ∧
  (∀ w : Word, w.extractLsb' 0 8 = 0x00 → w.extractLsb' 8 24 ≠ 0 →
    rejectedWith w .illegalCommand) ∧
  (∃ t, step (State.reset.withFetchWord 32 0x00000000) = .next t ∧
    t.engine.readValue 0x004 = 0x00000002)

/-- R231, CLEAR. "After CLEAR, every register a bus read can see, except STATUS, CTRL and ID, reads
0"; with no error pending STATUS then reads 0x00000002, the rule's example. -/
def Obligations.ClearCommand : Prop :=
  encode .clear = 0x0000000F ∧
  (∀ s : State, s.engine.phase = .idle →
    ∃ t, exec .clear s = .next t ∧
      t = { s with engine := { s.engine with
              key := ⟨0, 0, 0, 0⟩, din := ⟨0, 0, 0, 0⟩, dout := ⟨0, 0, 0, 0⟩, bres := 0,
              rk := Vector.replicate 44 0,
              st := ⟨⟨0, 0, 0, 0⟩, ⟨0, 0, 0, 0⟩, ⟨0, 0, 0, 0⟩, ⟨0, 0, 0, 0⟩⟩,
              rnd := 0, lop := 0x00, lvar := 0, done := true } } ∧
      (∀ a, regAt a ∉ [some .status, some .ctrl, some .id] → t.engine.readValue a = 0) ∧
      (s.engine.err = false → s.engine.warn = false → s.engine.errcode = 0 →
        t.engine.readValue 0x004 = 0x00000002)) ∧
  (∀ s : State, s.engine.phase ≠ .idle →
    exec .clear s = .next { s with engine := { s.engine with err := true, errcode := 6 } }) ∧
  (∀ w : Word, w.extractLsb' 0 8 = 0x0F → w.extractLsb' 8 24 ≠ 0 →
    rejectedWith w .illegalCommand)

/-- R106, GFDOUBLE, with the doubling of R102 written out. The values of the last clause are the
rule's corner cases and its example. -/
def Obligations.GfdoubleCommand : Prop :=
  (∀ a : Byte, encode (.gfdouble a) = (0x00#8 ++ a ++ 0x000B#16 : BitVec 32)) ∧
  (∀ (a : Byte) (s : State), s.engine.phase = .idle →
    exec (.gfdouble a) s = .next { s with engine := { s.engine with
      bres := ((a <<< 1) &&& 0xFF) ^^^ (if a.getLsbD 7 then 0x1B else 0x00), done := true } }) ∧
  (∀ (a : Byte) (s : State), s.engine.phase ≠ .idle →
    exec (.gfdouble a) s =
      .next { s with engine := { s.engine with err := true, errcode := 6 } }) ∧
  (∀ w : Word, w.extractLsb' 0 8 = 0x0B →
    (w.extractLsb' 8 3 ≠ 0 ∨ w.extractLsb' 11 5 ≠ 0 ∨ w.extractLsb' 24 8 ≠ 0) →
    rejectedWith w .illegalCommand) ∧
  gfDouble 0x00 = 0x00 ∧ gfDouble 0x80 = 0x1B ∧ gfDouble 0xFF = 0xE5 ∧ gfDouble 0x57 = 0xAE ∧
  (∀ b : Byte, b.getLsbD 7 = true → b <<< 1 = 0 → b = 0x80)

/-- R107, GFMUL, with `gf_mul` of R103; the corner cases and the example are the rule's. -/
def Obligations.GfmulCommand : Prop :=
  (∀ a b : Byte, encode (.gfmul a b) = (b ++ a ++ 0x000C#16 : BitVec 32)) ∧
  (∀ (a b : Byte) (s : State), s.engine.phase = .idle →
    exec (.gfmul a b) s =
      .next { s with engine := { s.engine with bres := gfMul a b, done := true } }) ∧
  (∀ (a b : Byte) (s : State), s.engine.phase ≠ .idle →
    exec (.gfmul a b) s =
      .next { s with engine := { s.engine with err := true, errcode := 6 } }) ∧
  (∀ w : Word, w.extractLsb' 0 8 = 0x0C → (w.extractLsb' 8 3 ≠ 0 ∨ w.extractLsb' 11 5 ≠ 0) →
    rejectedWith w .illegalCommand) ∧
  (∀ a b : Byte, gfMul a b = gfMul b a ∧ gfMul a 0x00 = 0x00 ∧ gfMul 0x00 a = 0x00 ∧
    gfMul a 0x01 = a ∧ gfMul 0x01 a = a) ∧
  gfMul 0xFF 0xFF = 0x13 ∧ gfMul 0x57 0x83 = 0xC1

/-- R128, SBOX. For a K variant the result is the table parameter's value. -/
def Obligations.SboxCommand : Prop :=
  (∀ (v : Variant) (a : Byte),
    encode (.sbox v a) = (0x00#8 ++ a ++ 0b00000#5 ++ v.code ++ 0x0D#8 : BitVec 32)) ∧
  (∀ (v : Variant) (a : Byte) (s : State), s.engine.phase = .idle →
    exec (.sbox v a) s = .next { s with engine := { s.engine with
      bres := sboxFwd v a, done := true, warn := s.engine.warn || decide (v = .k128) } }) ∧
  (∀ (v : Variant) (a : Byte) (s : State), s.engine.phase ≠ .idle →
    exec (.sbox v a) s =
      .next { s with engine := { s.engine with err := true, errcode := 6 } }) ∧
  (∀ w : Word, w.extractLsb' 0 8 = 0x0D →
    ((w.extractLsb' 11 5 ≠ 0 ∨ w.extractLsb' 24 8 ≠ 0) → rejectedWith w .illegalCommand) ∧
    (w.extractLsb' 11 5 = 0 → w.extractLsb' 24 8 = 0 →
      (w.extractLsb' 8 3 = 6 ∨ w.extractLsb' 8 3 = 7) → rejectedWith w .invalidVariant)) ∧
  sboxFwd .original 0x00 = 0x63 ∧ sboxFwd .original 0x53 = 0xED

/-- R129, INVSBOX. For a variant other than K128 it undoes SBOX; for K128 it fails to for some byte. -/
def Obligations.InvsboxCommand : Prop :=
  (∀ (v : Variant) (a : Byte),
    encode (.invsbox v a) = (0x00#8 ++ a ++ 0b00000#5 ++ v.code ++ 0x0E#8 : BitVec 32)) ∧
  (∀ (v : Variant) (a : Byte) (s : State), s.engine.phase = .idle →
    exec (.invsbox v a) s = .next { s with engine := { s.engine with
      bres := sboxInv v a, done := true, warn := s.engine.warn || decide (v = .k128) } }) ∧
  (∀ (v : Variant) (a : Byte) (s : State), s.engine.phase ≠ .idle →
    exec (.invsbox v a) s =
      .next { s with engine := { s.engine with err := true, errcode := 6 } }) ∧
  (∀ w : Word, w.extractLsb' 0 8 = 0x0E →
    ((w.extractLsb' 11 5 ≠ 0 ∨ w.extractLsb' 24 8 ≠ 0) → rejectedWith w .illegalCommand) ∧
    (w.extractLsb' 11 5 = 0 → w.extractLsb' 24 8 = 0 →
      (w.extractLsb' 8 3 = 6 ∨ w.extractLsb' 8 3 = 7) → rejectedWith w .invalidVariant)) ∧
  (∀ v : Variant, v ≠ .k128 → ∀ a, sboxInv v (sboxFwd v a) = a) ∧
  (∃ a, sboxInv .k128 (sboxFwd .k128 a) ≠ a) ∧
  sboxInv .original 0xED = 0x53

/-- R174, SUBBYTES: every byte of DIN through the forward table (R160), into DOUT. -/
def Obligations.SubbytesCommand : Prop :=
  (∀ v : Variant, encode (.subbytes v) = (0x0000#16 ++ 0b00000#5 ++ v.code ++ 0x04#8 : BitVec 32)) ∧
  (∀ (v : Variant) (s : State), s.engine.phase = .idle →
    ∃ d, exec (.subbytes v) s = .next { s with engine := { s.engine with
           dout := d, done := true, warn := s.engine.warn || decide (v = .k128) } } ∧
      ∀ k, (blockOf d).byte k = sboxFwd v ((blockOf s.engine.din).byte k)) ∧
  (∀ (v : Variant) (s : State), s.engine.phase ≠ .idle →
    exec (.subbytes v) s =
      .next { s with engine := { s.engine with err := true, errcode := 6 } }) ∧
  (∀ w : Word, w.extractLsb' 0 8 = 0x04 →
    ((w.extractLsb' 11 5 ≠ 0 ∨ w.extractLsb' 16 16 ≠ 0) → rejectedWith w .illegalCommand) ∧
    (w.extractLsb' 11 5 = 0 → w.extractLsb' 16 16 = 0 →
      (w.extractLsb' 8 3 = 6 ∨ w.extractLsb' 8 3 = 7) → rejectedWith w .invalidVariant)) ∧
  subBytes .original (hexBlock 0 0 0 0) =
    hexBlock 0x63636363 0x63636363 0x63636363 0x63636363 ∧
  subBytes .original (hexBlock 0x193de3be 0xa0f4e22b 0x9ac68d2a 0xe9f84808) =
    hexBlock 0xd42711ae 0xe0bf98f1 0xb8b45de5 0x1e415230

/-- R175, INVSUBBYTES: every byte of DIN through the inverse table (R161), into DOUT. -/
def Obligations.InvsubbytesCommand : Prop :=
  (∀ v : Variant,
    encode (.invsubbytes v) = (0x0000#16 ++ 0b00000#5 ++ v.code ++ 0x05#8 : BitVec 32)) ∧
  (∀ (v : Variant) (s : State), s.engine.phase = .idle →
    ∃ d, exec (.invsubbytes v) s = .next { s with engine := { s.engine with
           dout := d, done := true, warn := s.engine.warn || decide (v = .k128) } } ∧
      ∀ k, (blockOf d).byte k = sboxInv v ((blockOf s.engine.din).byte k)) ∧
  (∀ (v : Variant) (s : State), s.engine.phase ≠ .idle →
    exec (.invsubbytes v) s =
      .next { s with engine := { s.engine with err := true, errcode := 6 } }) ∧
  (∀ w : Word, w.extractLsb' 0 8 = 0x05 →
    ((w.extractLsb' 11 5 ≠ 0 ∨ w.extractLsb' 16 16 ≠ 0) → rejectedWith w .illegalCommand) ∧
    (w.extractLsb' 11 5 = 0 → w.extractLsb' 16 16 = 0 →
      (w.extractLsb' 8 3 = 6 ∨ w.extractLsb' 8 3 = 7) → rejectedWith w .invalidVariant)) ∧
  (∀ v : Variant, v ≠ .k128 → ∀ b, invSubBytes v (subBytes v b) = b) ∧
  invSubBytes .original (hexBlock 0 0 0 0) =
    hexBlock 0x52525252 0x52525252 0x52525252 0x52525252 ∧
  invSubBytes .original (hexBlock 0xd42711ae 0xe0bf98f1 0xb8b45de5 0x1e415230) =
    hexBlock 0x193de3be 0xa0f4e22b 0x9ac68d2a 0xe9f84808

/-- R176, SHIFTROWS: row `r` moves left by `r` columns (R162), with the permutation `P`. -/
def Obligations.ShiftrowsCommand : Prop :=
  encode .shiftrows = 0x00000006 ∧
  (∀ s : State, s.engine.phase = .idle →
    ∃ d, exec .shiftrows s =
        .next { s with engine := { s.engine with dout := d, done := true } } ∧
      (∀ r c, (blockOf d).entry r c = (blockOf s.engine.din).entry r (c + r)) ∧
      (∀ k j : Fin 16, shiftP[k.val]? = some j.val →
        (blockOf d).byte k = (blockOf s.engine.din).byte j)) ∧
  (∀ s : State, s.engine.phase ≠ .idle →
    exec .shiftrows s = .next { s with engine := { s.engine with err := true, errcode := 6 } }) ∧
  (∀ w : Word, w.extractLsb' 0 8 = 0x06 → w.extractLsb' 8 24 ≠ 0 →
    rejectedWith w .illegalCommand) ∧
  (∀ b : Block, (∀ r c, b.entry r c = b.entry r 0) → shiftRows b = b) ∧
  shiftRows (hexBlock 0x00010203 0x04050607 0x08090a0b 0x0c0d0e0f) =
    hexBlock 0x00050a0f 0x04090e03 0x080d0207 0x0c01060b

/-- R177, INVSHIFTROWS: row `r` moves right by `r` columns (R163), with the permutation `Q`. -/
def Obligations.InvshiftrowsCommand : Prop :=
  encode .invshiftrows = 0x00000007 ∧
  (∀ s : State, s.engine.phase = .idle →
    ∃ d, exec .invshiftrows s =
        .next { s with engine := { s.engine with dout := d, done := true } } ∧
      (∀ r c, (blockOf d).entry r c = (blockOf s.engine.din).entry r (c - r)) ∧
      (∀ k j : Fin 16, shiftQ[k.val]? = some j.val →
        (blockOf d).byte k = (blockOf s.engine.din).byte j)) ∧
  (∀ s : State, s.engine.phase ≠ .idle →
    exec .invshiftrows s =
      .next { s with engine := { s.engine with err := true, errcode := 6 } }) ∧
  (∀ w : Word, w.extractLsb' 0 8 = 0x07 → w.extractLsb' 8 24 ≠ 0 →
    rejectedWith w .illegalCommand) ∧
  (∀ b : Block, invShiftRows (shiftRows b) = b) ∧
  invShiftRows (hexBlock 0x00010203 0x04050607 0x08090a0b 0x0c0d0e0f) =
    hexBlock 0x000d0a07 0x04010e0b 0x0805020f 0x0c090603

/-- R178, MIXCOLUMNS: row `i` of a column applies {02} to byte `i`, {03} to byte `i + 1` and {01} to
the other two (R164), here by `gf_mul`. -/
def Obligations.MixcolumnsCommand : Prop :=
  encode .mixcolumns = 0x00000008 ∧
  (∀ s : State, s.engine.phase = .idle →
    ∃ d, exec .mixcolumns s =
        .next { s with engine := { s.engine with dout := d, done := true } } ∧
      ∀ r c, (blockOf d).entry r c =
        gfMul 0x02 ((blockOf s.engine.din).entry r c) ^^^
        gfMul 0x03 ((blockOf s.engine.din).entry (r + 1) c) ^^^
        (blockOf s.engine.din).entry (r + 2) c ^^^ (blockOf s.engine.din).entry (r + 3) c) ∧
  (∀ s : State, s.engine.phase ≠ .idle →
    exec .mixcolumns s = .next { s with engine := { s.engine with err := true, errcode := 6 } }) ∧
  (∀ w : Word, w.extractLsb' 0 8 = 0x08 → w.extractLsb' 8 24 ≠ 0 →
    rejectedWith w .illegalCommand) ∧
  mixColumns (hexBlock 0 0 0 0) = hexBlock 0 0 0 0 ∧
  (∀ x : Byte, mixColumn ⟨x, x, x, x⟩ = ⟨x, x, x, x⟩) ∧
  mixColumn ⟨0x01, 0x00, 0x00, 0x00⟩ = ⟨0x02, 0x01, 0x01, 0x03⟩ ∧
  mixColumns (hexBlock 0xdb135345 0xf20a225c 0x01010101 0xc6c6c6c6) =
    hexBlock 0x8e4da1bc 0x9fdc589d 0x01010101 0xc6c6c6c6

/-- R179, INVMIXCOLUMNS: row `i` of a column applies {0E}, {0B}, {0D}, {09} to the bytes `i`, `i + 1`,
`i + 2`, `i + 3` (R165). -/
def Obligations.InvmixcolumnsCommand : Prop :=
  encode .invmixcolumns = 0x00000009 ∧
  (∀ s : State, s.engine.phase = .idle →
    ∃ d, exec .invmixcolumns s =
        .next { s with engine := { s.engine with dout := d, done := true } } ∧
      ∀ r c, (blockOf d).entry r c =
        gfMul 0x0E ((blockOf s.engine.din).entry r c) ^^^
        gfMul 0x0B ((blockOf s.engine.din).entry (r + 1) c) ^^^
        gfMul 0x0D ((blockOf s.engine.din).entry (r + 2) c) ^^^
        gfMul 0x09 ((blockOf s.engine.din).entry (r + 3) c)) ∧
  (∀ s : State, s.engine.phase ≠ .idle →
    exec .invmixcolumns s =
      .next { s with engine := { s.engine with err := true, errcode := 6 } }) ∧
  (∀ w : Word, w.extractLsb' 0 8 = 0x09 → w.extractLsb' 8 24 ≠ 0 →
    rejectedWith w .illegalCommand) ∧
  (∀ x : Byte, invMixColumn ⟨x, x, x, x⟩ = ⟨x, x, x, x⟩) ∧
  invMixColumn ⟨0x01, 0x00, 0x00, 0x00⟩ = ⟨0x0E, 0x09, 0x0D, 0x0B⟩ ∧
  invMixColumns (hexBlock 0x8e4da1bc 0x9fdc589d 0x01010101 0xc6c6c6c6) =
    hexBlock 0xdb135345 0xf20a225c 0x01010101 0xc6c6c6c6

/-- R180, ADDROUNDKEY: DIN XOR KEY, register word by register word (R166). It uses KEY, not RK. -/
def Obligations.AddroundkeyCommand : Prop :=
  encode .addroundkey = 0x0000000A ∧
  (∀ s : State, s.engine.phase = .idle →
    exec .addroundkey s = .next { s with engine := { s.engine with
      dout := ⟨s.engine.din.r0 ^^^ s.engine.key.r0, s.engine.din.r1 ^^^ s.engine.key.r1,
               s.engine.din.r2 ^^^ s.engine.key.r2, s.engine.din.r3 ^^^ s.engine.key.r3⟩,
      done := true } } ∧
    (s.engine.key = ⟨0, 0, 0, 0⟩ →
      ∃ t, exec .addroundkey s = .next t ∧ t.engine.dout = s.engine.din) ∧
    (s.engine.key = s.engine.din →
      ∃ t, exec .addroundkey s = .next t ∧ t.engine.dout = ⟨0, 0, 0, 0⟩)) ∧
  (∀ s : State, s.engine.phase ≠ .idle →
    exec .addroundkey s =
      .next { s with engine := { s.engine with err := true, errcode := 6 } }) ∧
  (∀ w : Word, w.extractLsb' 0 8 = 0x0A → w.extractLsb' 8 24 ≠ 0 →
    rejectedWith w .illegalCommand) ∧
  addRoundKey (hexBlock 0x3243f6a8 0x885a308d 0x313198a2 0xe0370734)
      (hexBlock 0x2b7e1516 0x28aed2a6 0xabf71588 0x09cf4f3c) =
    hexBlock 0x193de3be 0xa0f4e22b 0x9ac68d2a 0xe9f84808

/-- R194: the acceptance edge of EXPAND, ENCRYPT and DECRYPT on an idle engine. RK[0..3] take KEY and
RK[4..43] keep their words; ST takes DIN, except for EXPAND; LOP, LVAR, RND and PHASE are set; DONE
and WARN are as R193 says; nothing else changes. -/
def Obligations.MultiStepAcceptance : Prop :=
  ∀ (v : Variant) (s : State), s.engine.phase = .idle →
    ∃ rk : RoundKeys,
      (∀ i : Fin 44, rk[i] = if h : i.val < 4 then s.engine.key.get ⟨i.val, h⟩ else s.engine.rk[i]) ∧
      exec (.expand v) s = .next { s with engine := { s.engine with
        rk := rk, lop := 0x01, lvar := v.code, rnd := 1, phase := .kx, done := false,
        warn := s.engine.warn || decide (v = .k128) } } ∧
      exec (.encrypt v) s = .next { s with engine := { s.engine with
        rk := rk, st := blockOf s.engine.din, lop := 0x02, lvar := v.code, rnd := 1, phase := .kx,
        done := false, warn := s.engine.warn || decide (v = .k128) } } ∧
      exec (.decrypt v) s = .next { s with engine := { s.engine with
        rk := rk, st := blockOf s.engine.din, lop := 0x03, lvar := v.code, rnd := 1, phase := .kx,
        done := false, warn := s.engine.warn || decide (v = .k128) } }

/-! ## The sequencer's steps -/

/-- R201 and R202: the KX step of round `r = RND` in 1..10, for a variant code that names a variant
and a LOP of EXPAND, ENCRYPT or DECRYPT. Round key `r` is computed from round key `r - 1`; the last
step completes EXPAND and starts the cipher phase of ENCRYPT and DECRYPT. -/
def Obligations.KeyExpansionStep : Prop :=
  ∀ (s : Engine) (v : Variant) (r : Nat), s.phase = .kx → s.rnd.toNat = r → 1 ≤ r → r ≤ 10 →
    Variant.ofCode s.lvar = some v → (s.lop = 0x01 ∨ s.lop = 0x02 ∨ s.lop = 0x03) →
    ∃ t b, seqStep s = .ok (t, b) ∧
      rkWord t.rk (4 * r) = rkWord s.rk (4 * r - 4) ^^^
        b2w (subWord v (w2b (rotWord32 (rkWord s.rk (4 * r - 1))))) ^^^
        ((rcon r).setWidth 32 <<< 24) ∧
      rkWord t.rk (4 * r + 1) = rkWord s.rk (4 * r - 3) ^^^ rkWord t.rk (4 * r) ∧
      rkWord t.rk (4 * r + 2) = rkWord s.rk (4 * r - 2) ^^^ rkWord t.rk (4 * r + 1) ∧
      rkWord t.rk (4 * r + 3) = rkWord s.rk (4 * r - 1) ^^^ rkWord t.rk (4 * r + 2) ∧
      (∀ i, i / 4 ≠ r → rkWord t.rk i = rkWord s.rk i) ∧
      (r < 10 → b = false ∧ t = { s with rk := t.rk, rnd := s.rnd + 1 }) ∧
      (r = 10 → s.lop = 0x01 →
        b = true ∧ t = { s with rk := t.rk, phase := .idle, rnd := 0, done := true }) ∧
      (r = 10 → s.lop = 0x02 → b = false ∧ t = { s with rk := t.rk, phase := .enc, rnd := 0 }) ∧
      (r = 10 → s.lop = 0x03 → b = false ∧ t = { s with rk := t.rk, phase := .dec, rnd := 10 })

/-- R203, R204 and R205: the ENC steps, round 0, rounds 1..9 and round 10. -/
def Obligations.EncryptionStep : Prop :=
  ∀ (s : Engine) (v : Variant), s.phase = .enc → Variant.ofCode s.lvar = some v →
    (s.rnd = 0 → seqStep s =
      .ok ({ s with st := addRoundKey s.st (roundKeyRK s.rk 0), rnd := 1 }, false)) ∧
    (1 ≤ s.rnd.toNat → s.rnd.toNat ≤ 9 → seqStep s =
      .ok ({ s with st := addRoundKey (mixColumns (shiftRows (subBytes v s.st)))
                            (roundKeyRK s.rk s.rnd.toNat),
                    rnd := s.rnd + 1 }, false)) ∧
    (s.rnd = 10 → seqStep s =
      .ok ({ s with st := addRoundKey (shiftRows (subBytes v s.st)) (roundKeyRK s.rk 10),
                    dout := packed (addRoundKey (shiftRows (subBytes v s.st))
                              (roundKeyRK s.rk 10)),
                    phase := .idle, rnd := 0, done := true }, true))

/-- R206, R207 and R208: the DEC steps, round 10, rounds 9..1 and round 0. -/
def Obligations.DecryptionStep : Prop :=
  ∀ (s : Engine) (v : Variant), s.phase = .dec → Variant.ofCode s.lvar = some v →
    (s.rnd = 10 → seqStep s =
      .ok ({ s with st := addRoundKey s.st (roundKeyRK s.rk 10), rnd := 9 }, false)) ∧
    (1 ≤ s.rnd.toNat → s.rnd.toNat ≤ 9 → seqStep s =
      .ok ({ s with st := invMixColumns (addRoundKey (invSubBytes v (invShiftRows s.st))
                            (roundKeyRK s.rk s.rnd.toNat)),
                    rnd := s.rnd - 1 }, false)) ∧
    (s.rnd = 0 → seqStep s =
      .ok ({ s with st := addRoundKey (invSubBytes v (invShiftRows s.st)) (roundKeyRK s.rk 0),
                    dout := packed (addRoundKey (invSubBytes v (invShiftRows s.st))
                              (roundKeyRK s.rk 0)),
                    phase := .idle, rnd := 0, done := true }, true))

/-- R198: two busy machines that agree on what a step may read (ST, RK, RND, LOP and LVAR, in the same
PHASE) still agree on it after an edge, whatever else they hold and whatever their hosts do at that
edge; and when the edge ends a cipher phase, both hold the same block in DOUT. -/
def Obligations.StepReadsOnlySequencerState : Prop :=
  ∀ s₁ s₂ t₁ : State, s₁.atCycle → s₂.atCycle → s₁.engine.phase ≠ .idle →
    s₂.engine.phase = s₁.engine.phase → s₂.engine.rnd = s₁.engine.rnd →
    s₂.engine.lop = s₁.engine.lop → s₂.engine.lvar = s₁.engine.lvar →
    s₂.engine.st = s₁.engine.st → s₂.engine.rk = s₁.engine.rk → step s₁ = .next t₁ →
    ∃ t₂, step s₂ = .next t₂ ∧
      t₂.engine.phase = t₁.engine.phase ∧ t₂.engine.rnd = t₁.engine.rnd ∧
      t₂.engine.lop = t₁.engine.lop ∧ t₂.engine.lvar = t₁.engine.lvar ∧
      t₂.engine.st = t₁.engine.st ∧ t₂.engine.rk = t₁.engine.rk ∧
      (t₁.engine.phase = .idle → t₁.engine.done = true ∧ t₂.engine.done = true ∧
        (s₁.engine.phase ≠ .kx → t₂.engine.dout = t₁.engine.dout))

/-- The timing depends on the opcode only (70_reset_and_hazards.md section 3): two machines of the
invariant in the same PHASE, RND and LOP move alike, whatever their data, key and variant; and so do
two acceptances of one opcode. -/
def Obligations.TimingDependsOnOpcodeOnly : Prop :=
  (∀ s₁ s₂ : State, s₁.Inv → s₂.Inv → s₁.atCycle → s₂.atCycle → s₁.engine.phase ≠ .idle →
    s₂.engine.phase = s₁.engine.phase → s₂.engine.rnd = s₁.engine.rnd →
    s₂.engine.lop = s₁.engine.lop →
    ∃ t₁ t₂, step s₁ = .next t₁ ∧ step s₂ = .next t₂ ∧
      t₂.engine.phase = t₁.engine.phase ∧ t₂.engine.rnd = t₁.engine.rnd ∧
      t₂.engine.lop = t₁.engine.lop) ∧
  (∀ (s₁ s₂ : State) (i₁ i₂ : Instr), s₁.engine.rnd = 0 → s₂.engine.rnd = 0 →
    s₁.accepts i₁ → s₂.accepts i₂ →
    (Command.ofInstr i₁).op = (Command.ofInstr i₂).op →
    ∃ t₁ t₂, step s₁ = .next t₁ ∧ step s₂ = .next t₂ ∧
      t₂.engine.phase = t₁.engine.phase ∧ t₂.engine.rnd = t₁.engine.rnd ∧
      (t₁.engine.phase ≠ .idle → t₂.engine.lop = t₁.engine.lop))

/-- The step sequence of every command (44_cipher_sequencer.md section 3, the table after "The step
sequence of each multi-step command is fixed"): after the acceptance edge E0 and `n` more edges, up
to the completion edge, PHASE and RND are the table's, whatever the host does in between. -/
def Obligations.StepSequenceOfEveryCommand : Prop :=
  ∀ (s : State) (i : Instr) (n : Nat), s.engine.rnd = 0 → s.accepts i → s.edgesAhead (n + 1) →
    n ≤ completionEdge i →
    ∃ t, Host.Core.run core (n + 1) s = .next t ∧
      (t.engine.phase, t.engine.rnd) = schedule i n

/-! ## What the sequencer computes -/

/-- Correctness of the sequencer (44_cipher_sequencer.md section 4): from the acceptance of EXPAND,
ENCRYPT or DECRYPT, and whatever the host does at the edges in between, the completion edge leaves
the key expansion in RK, and the cipher's or the inverse cipher's block in DOUT and in ST. -/
def Obligations.SequencerComputesTheCipher : Prop :=
  ∀ (s : State) (v : Variant),
    (s.accepts (.expand v) → s.edgesAhead 11 →
      ∃ t, Host.Core.run core 11 s = .next t ∧ t.engine.phase = .idle ∧ t.engine.done = true ∧
        ∀ j, j < 176 →
          rkByte t.engine.rk j = (keyExpansion (blockOf s.engine.key) v).getD j 0) ∧
    (s.accepts (.encrypt v) → s.edgesAhead 22 →
      ∃ t, Host.Core.run core 22 s = .next t ∧ t.engine.phase = .idle ∧ t.engine.done = true ∧
        blockOf t.engine.dout = cipher (blockOf s.engine.din) (blockOf s.engine.key) v ∧
        t.engine.st = cipher (blockOf s.engine.din) (blockOf s.engine.key) v ∧
        ∀ j, j < 176 →
          rkByte t.engine.rk j = (keyExpansion (blockOf s.engine.key) v).getD j 0) ∧
    (s.accepts (.decrypt v) → s.edgesAhead 22 →
      ∃ t, Host.Core.run core 22 s = .next t ∧ t.engine.phase = .idle ∧ t.engine.done = true ∧
        blockOf t.engine.dout = invCipher (blockOf s.engine.din) (blockOf s.engine.key) v ∧
        t.engine.st = invCipher (blockOf s.engine.din) (blockOf s.engine.key) v ∧
        ∀ j, j < 176 →
          rkByte t.engine.rk j = (keyExpansion (blockOf s.engine.key) v).getD j 0)

/-- Round trip (44_cipher_sequencer.md section 4): for every variant other than K128, decryption
inverts encryption. It holds for every value of the table parameters. -/
def Obligations.DecryptionInvertsEncryption : Prop :=
  ∀ (v : Variant) (p k : Block), v ≠ .k128 → invCipher (cipher p k v) k v = p

/-! ## The cipher functions -/

/-- The laws of GF(2^8) (40_gf_arith.md section 3, (a) to (i)). -/
def Obligations.GfLaws : Prop :=
  (∀ a, gfMul a 0x00 = 0x00 ∧ gfMul 0x00 a = 0x00) ∧
  (∀ a, gfMul a 0x01 = a ∧ gfMul 0x01 a = a) ∧
  (∀ a, gfMul a 0x02 = gfDouble a) ∧
  (∀ a, gfMul a 0x03 = gfDouble a ^^^ a) ∧
  (∀ a b, gfMul a b = gfMul b a) ∧
  (∀ a b c, gfMul a (gfMul b c) = gfMul (gfMul a b) c) ∧
  (∀ a b c, gfMul a (b ^^^ c) = gfMul a b ^^^ gfMul a c) ∧
  (Function.Bijective gfDouble ∧ ∀ a, gfDouble a = 0x00 → a = 0x00) ∧
  (∀ a, a ≠ 0x00 → ∃! b, gfMul a b = 0x01)

/-- `gf_mul(a, b)` "equals a·b mod m(x)" (40_gf_arith.md sections 1 and 2): the loop computes the
product of polynomials over GF(2), reduced modulo 0x11B. -/
def Obligations.GfMulIsProductModPolynomial : Prop :=
  ∀ a b : Byte, gfMul a b = polyMod (polyProduct a b)

/-- The cross-check of the Original table (41_sbox.md section 2): each entry is `Affine(Inv(b))`, with
`Inv(0) = 0` and `Inv(b)` the inverse of `b` otherwise. -/
def Obligations.OriginalSboxIsAffineOfInverse : Prop :=
  ∀ b : Byte, ∃ c : Byte, ((b = 0x00 ∧ c = 0x00) ∨ gfMul b c = 0x01) ∧
    sboxFwd .original b = affine c

/-- The S-box tables (41_sbox.md section 2): for every variant but K128 the two tables are inverse in
both directions, for K128 some byte is not restored, and Original has neither a fixed point nor an
opposite fixed point. It holds for every value of the table parameters. -/
def Obligations.SboxTablesAreInverse : Prop :=
  (∀ v : Variant, v ≠ .k128 →
    ∀ b, sboxInv v (sboxFwd v b) = b ∧ sboxFwd v (sboxInv v b) = b) ∧
  (∃ b, sboxInv .k128 (sboxFwd .k128 b) ≠ b) ∧
  (∀ b, sboxFwd .original b ≠ b ∧ sboxFwd .original b ≠ b ^^^ 0xFF) ∧
  sboxFwd .original 0x00 = 0x63 ∧ sboxInv .original 0x00 = 0x52

/-- The laws of the round transforms (43_round_transforms.md section 2, (a) to (e)), and the inverse of
SubBytes for every variant but K128. -/
def Obligations.RoundTransformLaws : Prop :=
  (∀ s, invShiftRows (shiftRows s) = s ∧ shiftRows (invShiftRows s) = s) ∧
  (∀ s, invMixColumns (mixColumns s) = s ∧ mixColumns (invMixColumns s) = s) ∧
  (∀ s k, addRoundKey (addRoundKey s k) k = s) ∧
  (∀ s k : Block, mixColumns (s.xor k) = (mixColumns s).xor (mixColumns k) ∧
    invMixColumns (s.xor k) = (invMixColumns s).xor (invMixColumns k)) ∧
  (∀ v s, subBytes v (shiftRows s) = shiftRows (subBytes v s) ∧
    invSubBytes v (invShiftRows s) = invShiftRows (invSubBytes v s)) ∧
  (∀ v s, v ≠ .k128 → invSubBytes v (subBytes v s) = s) ∧
  (∃ s, invSubBytes .k128 (subBytes .k128 s) ≠ s)

/-- The round-at-a-time form of the key schedule (42_key_schedule.md section 1): the source's
byte-by-byte expansion has 176 bytes, begins with the key, and satisfies the recurrences of round
keys 1 to 10. `wordAt xk (4 * k)` is the spec's `W[k]`. -/
def Obligations.KeyExpansionRoundForm : Prop :=
  ∀ (key : Block) (v : Variant),
    (keyExpansion key v).length = 176 ∧
    (keyExpansion key v).take 16 = key.bytes ∧
    roundKey (keyExpansion key v) 0 = key ∧
    ∀ r, 1 ≤ r → r ≤ 10 →
      wordAt (keyExpansion key v) (16 * r) =
        ((wordAt (keyExpansion key v) (16 * r - 16)).xor
          (subWord v (rotWord (wordAt (keyExpansion key v) (16 * r - 4))))).xor
            ⟨rcon r, 0x00, 0x00, 0x00⟩ ∧
      wordAt (keyExpansion key v) (16 * r + 4) =
        (wordAt (keyExpansion key v) (16 * r - 12)).xor (wordAt (keyExpansion key v) (16 * r)) ∧
      wordAt (keyExpansion key v) (16 * r + 8) =
        (wordAt (keyExpansion key v) (16 * r - 8)).xor (wordAt (keyExpansion key v) (16 * r + 4)) ∧
      wordAt (keyExpansion key v) (16 * r + 12) =
        (wordAt (keyExpansion key v) (16 * r - 4)).xor (wordAt (keyExpansion key v) (16 * r + 8))

/-! ## The bus -/

/-- R53: what a read of each address returns, and that a read changes no state. -/
def Obligations.ReadValueMap : Prop :=
  (∀ (e : Engine) (addr : Addr) (a : Nat), (addr &&& 0x1FC).toNat = a →
    (a = 0x000 → e.readValue addr = 0) ∧
    (a = 0x004 → (e.readValue addr).toNat = 16 * e.errcode.toNat + 8 * e.warn.toNat +
      4 * e.err.toNat + 2 * e.done.toNat + (if e.phase = .idle then 0 else 1)) ∧
    (a = 0x008 → (e.readValue addr).toNat = 2 * e.ieErr.toNat + e.ieDone.toNat) ∧
    (a = 0x00C → (e.readValue addr).toNat = e.bres.toNat) ∧
    (a = 0x010 → e.readValue addr = 0x41455331) ∧
    (∀ i : Fin 4, a = 0x020 + 4 * i.val → e.readValue addr = e.key.get i) ∧
    (∀ i : Fin 4, a = 0x030 + 4 * i.val → e.readValue addr = e.din.get i) ∧
    (∀ i : Fin 4, a = 0x040 + 4 * i.val → e.readValue addr = e.dout.get i) ∧
    (∀ i : Fin 44, a = 0x100 + 4 * i.val →
      e.readValue addr = if e.phase ≠ .idle then 0 else e.rk[i]) ∧
    (a ∉ [0x000, 0x004, 0x008, 0x00C, 0x010] → ¬ (0x020 ≤ a ∧ a < 0x050) →
      ¬ (0x100 ≤ a ∧ a < 0x1B0) → e.readValue addr = 0)) ∧
  (∀ (s : State) (addr : Addr) (e : Engine) (b : Bool), s.presents (.read addr) →
    seqStep s.engine = .ok (e, b) →
    ∃ t, step s = .next t ∧ t.rdata = s.engine.readValue addr ∧ t.engine = e)

/-- R55: "an access to addr acts on the word at addr & 0x1FC", so that a misaligned address aliases
the word that contains it; and an access never faults in a state of the invariant. -/
def Obligations.LowAddressBitsIgnored : Prop :=
  ∀ (s : State) (rest : List HostEvent) (a : Addr) (d : Word),
    step { s with host := .clock (Access.pins (.write a d)) :: rest } =
      step { s with host := .clock (Access.pins (.write (a &&& 0x1FC) d)) :: rest } ∧
    step { s with host := .clock (Access.pins (.read a)) :: rest } =
      step { s with host := .clock (Access.pins (.read (a &&& 0x1FC))) :: rest } ∧
    (s.Inv →
      (∃ t, step { s with host := .clock (Access.pins (.write a d)) :: rest } = .next t) ∧
      (∃ t, step { s with host := .clock (Access.pins (.read a)) :: rest } = .next t))

/-- R57: what a write of `d` to each address does at an edge, on the engine `e` after the step. -/
def Obligations.HostWriteMap : Prop :=
  ∀ (s : State) (addr : Addr) (d : Word) (e : Engine) (b : Bool) (a : Nat),
    s.presents (.write addr d) → seqStep s.engine = .ok (e, b) → (addr &&& 0x1FC).toNat = a →
    ∃ t, step s = .next t ∧
      (a = 0x000 → s.engine.phase ≠ .idle →
        t.engine = { e with err := true, errcode := 6 }) ∧
      (a = 0x000 → s.engine.phase = .idle → ∀ c, decode d = .reject c →
        t.engine = { e with err := true, errcode := c.code }) ∧
      (a = 0x000 → s.engine.phase = .idle → ∀ i, decode d = .legal i →
        ∃ u, exec i s = .next u ∧ t.engine = u.engine) ∧
      (a = 0x004 → t.engine = e.statusWrite b d) ∧
      (a = 0x008 → t.engine = { e with ieDone := d.getLsbD 0, ieErr := d.getLsbD 1 }) ∧
      (∀ i : Fin 4, a = 0x020 + 4 * i.val → t.engine = { e with key := e.key.set i d }) ∧
      (∀ i : Fin 4, a = 0x030 + 4 * i.val → t.engine = { e with din := e.din.set i d }) ∧
      (a ∉ [0x000, 0x004, 0x008] → ¬ (0x020 ≤ a ∧ a < 0x040) → t.engine = e)

/-- R58: a write to STATUS clears DONE, ERR with ERRCODE, and WARN by bits 1, 2 and 3, ignores every
other bit, and "the set wins" when the same edge completes a command. -/
def Obligations.StatusWriteOneToClear : Prop :=
  ∀ (s : State) (d : Word) (e : Engine) (b : Bool), s.writesReg .status d →
    seqStep s.engine = .ok (e, b) →
    ∃ t, step s = .next t ∧
      t.engine = { e with
        done := if d.getLsbD 1 = true ∧ b = false then false else e.done
        err := if d.getLsbD 2 then false else e.err
        errcode := if d.getLsbD 2 then 0 else e.errcode
        warn := if d.getLsbD 3 then false else e.warn } ∧
      (b = true → t.engine.done = true)

/-- R28: CTRL takes bits 1:0 of any value written, reads them back with bits 31:2 zero, may be written
while BUSY = 1, drives the next cycle's `irq`, and is not changed by CLEAR. -/
def Obligations.CtrlRegister : Prop :=
  (∀ (s : State) (d : Word) (e : Engine) (b : Bool), s.writesReg .ctrl d →
    seqStep s.engine = .ok (e, b) →
    ∃ t, step s = .next t ∧
      t.engine = { e with ieDone := d.getLsbD 0, ieErr := d.getLsbD 1 } ∧
      t.engine.readValue 0x008 = d &&& 0x3 ∧
      (∀ u, t.atEdge → step t = .next u →
        u.irq = ((t.engine.done && d.getLsbD 0) || (t.engine.err && d.getLsbD 1)))) ∧
  (∀ s : State, s.engine.phase = .idle → ∃ t, exec .clear s = .next t ∧
    t.engine.ieDone = s.engine.ieDone ∧ t.engine.ieErr = s.engine.ieErr)

/-- R30: `irq` in a cycle is `(DONE & IE_DONE) | (ERR & IE_ERR)` of the state before the edge, and
WARN does not drive it. -/
def Obligations.IrqLevel : Prop :=
  (∀ s t : State, s.atCycle → step s = .next t →
    t.irq = ((s.engine.done && s.engine.ieDone) || (s.engine.err && s.engine.ieErr))) ∧
  (∀ (s t u : State) (w : Bool), s.atCycle → step s = .next t →
    step { s with engine := { s.engine with warn := w } } = .next u → u.irq = t.irq)

/-- Writing KEY[i] or DIN[i] on an idle engine (10_state.md section 2, 20_memory.md section 5): the
register reads back the value, and every other address reads as before. -/
def Obligations.KeyAndDinReadBack : Prop :=
  ∀ (s : State) (i : Fin 4) (d : Word), s.engine.phase = .idle →
    (s.writesReg (.key i) d → ∃ t, step s = .next t ∧
      t.engine.readValue (RegName.key i).addr = d ∧
      ∀ a, regAt a ≠ some (.key i) → t.engine.readValue a = s.engine.readValue a) ∧
    (s.writesReg (.din i) d → ∃ t, step s = .next t ∧
      t.engine.readValue (RegName.din i).addr = d ∧
      ∀ a, regAt a ≠ some (.din i) → t.engine.readValue a = s.engine.readValue a)

/-- Byte order (20_memory.md section 3, 10_state.md section 4): byte `k` of a group of registers is in
word `k / 4` at bits `31-8*(k mod 4) : 24-8*(k mod 4)`; packing and unpacking undo each other; and
byte `k` of round key `n` is expanded-key byte `16n + k`. -/
def Obligations.BytesAreBigEndianInWords : Prop :=
  (∀ (g : Regs4) (k : Fin 16), (blockOf g).byte k =
    (g.get ⟨k.val / 4, by omega⟩).extractLsb' (24 - 8 * (k.val % 4)) 8) ∧
  (∀ b : Block, blockOf (packed b) = b) ∧ (∀ g : Regs4, packed (blockOf g) = g) ∧
  (∀ (rk : RoundKeys) (n : Nat) (k : Fin 16), n ≤ 10 →
    (roundKeyRK rk n).byte k = rkByte rk (16 * n + k.val)) ∧
  (blockOf ⟨0x00112233, 0x44556677, 0x8899AABB, 0xCCDDEEFF⟩).bytes =
    [0x00, 0x11, 0x22, 0x33, 0x44, 0x55, 0x66, 0x77] ++
    [0x88, 0x99, 0xAA, 0xBB, 0xCC, 0xDD, 0xEE, 0xFF]

/-! ## Who writes what -/

/-- KEY and DIN (10_state.md section 2): a step changes them only by the host's write, by the
acceptance of CLEAR, or in reset. -/
def Obligations.KeyAndDinWriters : Prop :=
  ∀ s t : State, step s = .next t →
    (t.engine.key ≠ s.engine.key →
      (∃ i d, s.writesReg (.key i) d) ∨ s.accepts .clear ∨ s.resets) ∧
    (t.engine.din ≠ s.engine.din →
      (∃ i d, s.writesReg (.din i) d) ∨ s.accepts .clear ∨ s.resets)

/-- DOUT, BRES and RK (10_state.md sections 2 and 4): a step changes DOUT only at the completion step
of ENCRYPT or DECRYPT, at the acceptance of a block command or CLEAR, or in reset; BRES only at the
acceptance of a byte command or CLEAR, or in reset; RK only at the acceptance of a multi-step command
or CLEAR, at a KX step, or in reset. -/
def Obligations.ResultRegisterWriters : Prop :=
  ∀ s t : State, step s = .next t →
    (t.engine.dout ≠ s.engine.dout →
      (s.engine.phase = .enc ∧ s.engine.rnd = 10) ∨ (s.engine.phase = .dec ∧ s.engine.rnd = 0) ∨
      (∃ i, s.accepts i ∧ writesDout i = true) ∨ s.resets) ∧
    (t.engine.bres ≠ s.engine.bres → (∃ i, s.accepts i ∧ writesBres i = true) ∨ s.resets) ∧
    (t.engine.rk ≠ s.engine.rk →
      s.engine.phase = .kx ∨ (∃ i, s.accepts i ∧ (i.multiStep = true ∨ i = .clear)) ∨ s.resets)

/-- DOUT while a command runs (70_reset_and_hazards.md section 2): as long as BUSY stays 1 across an
edge, DOUT keeps its value. -/
def Obligations.DoutHeldWhileBusy : Prop :=
  ∀ s t : State, s.atCycle → s.engine.phase ≠ .idle → step s = .next t → t.engine.phase ≠ .idle →
    t.engine.dout = s.engine.dout

/-- The frame of the single-edge commands other than CLEAR, through bus reads and the hidden state: on
an idle engine they complete, and every address reads as before but those of STATUS and of the
command's result (DOUT for a block command, BRES for a byte command); the hidden state, RK and the
ports are unchanged (30_encoding.md section 4, the table of operands and destinations). -/
def Obligations.SingleEdgeFrame : Prop :=
  ∀ (i : Instr) (s : State), i.multiStep = false → i ≠ .clear → s.engine.phase = .idle →
    ∃ t, exec i s = .next t ∧
      (∀ a, regAt a ≠ some .status →
        (writesDout i = true → ∀ j, regAt a ≠ some (.dout j)) →
        (writesBres i = true → regAt a ≠ some .bres) →
        t.engine.readValue a = s.engine.readValue a) ∧
      t.engine.rk = s.engine.rk ∧ t.engine.st = s.engine.st ∧ t.engine.phase = .idle ∧
      t.engine.rnd = s.engine.rnd ∧ t.engine.lop = s.engine.lop ∧
      t.engine.lvar = s.engine.lvar ∧ t.rstN = s.rstN ∧ t.host = s.host ∧ t.rdata = s.rdata ∧
      t.irq = s.irq ∧ t.recorded = s.recorded

/-! ## Reset -/

/-- R41: the value of every element of the state after reset, with the constants ID and RCON (the S-box
ROM of Original is the constant `sboxFwd .original`, which is no state); and a fall of `rst_n` gives the
same values from every state. -/
def Obligations.ResetValues : Prop :=
  State.reset.engine =
    { key := ⟨0, 0, 0, 0⟩, din := ⟨0, 0, 0, 0⟩, dout := ⟨0, 0, 0, 0⟩, bres := 0,
      done := false, err := false, warn := false, errcode := 0, ieDone := false, ieErr := false,
      rk := Vector.replicate 44 0,
      st := ⟨⟨0, 0, 0, 0⟩, ⟨0, 0, 0, 0⟩, ⟨0, 0, 0, 0⟩, ⟨0, 0, 0, 0⟩⟩,
      phase := .idle, rnd := 0, lop := 0x00, lvar := 0 } ∧
  State.reset.engine.busy = false ∧ State.reset.engine.irq = false ∧
  State.reset.engine.readValue 0x010 = 0x41455331 ∧
  (List.range 11).map rcon = [0x00, 0x01, 0x02, 0x04, 0x08, 0x10, 0x20, 0x40, 0x80, 0x1B, 0x36] ∧
  (∀ (s : State) (rest : List HostEvent), s.host = .rstFall :: rest →
    ∃ t, step s = .next t ∧ t.engine = State.reset.engine)

/-- Reset (70_reset_and_hazards.md section 1): a fall of `rst_n` puts the engine in the reset state at
once, whatever it was doing; while `rst_n` = 0 every edge leaves the reset state, host writes are ignored,
and `rdata` and `irq` are 0; and the first edge at which `rst_n` = 1 applies Cycle. The model's choice, and
no sentence of R270: that a fall and a rise are steps of their own (log entry 2), and that a rise changes
only the level and so leaves the fields `rdata` and `irq` (log entry 8). -/
def Obligations.ResetOverridesEverything : Prop :=
  (∀ (s : State) (rest : List HostEvent), s.host = .rstFall :: rest →
    step s = .next { s with engine := State.reset.engine, rstN := false, host := rest,
                            rdata := 0, irq := false }) ∧
  (∀ s : State, s.rstN = false → s.atEdge →
    ∃ t, step s = .next t ∧ t.engine = State.reset.engine ∧ t.rstN = false ∧ t.rdata = 0 ∧
      t.irq = false) ∧
  (∀ (s : State) (rest : List HostEvent), s.host = .rstRise :: rest →
    step s = .next { s with rstN := true, host := rest }) ∧
  (∀ (s : State) (e : Engine) (b : Bool), s.atCycle → seqStep s.engine = .ok (e, b) →
    ∃ t u, step s = .next t ∧ cycle s.access s = .next u ∧ t.engine = u.engine ∧
      (∀ a, s.access = .read a → t.rdata = s.engine.readValue a) ∧
      (s.access = .noAccess → t.engine = e))

/-! ## The invariant -/

/-- The invariant (10_state.md section 9) holds after reset. -/
def Obligations.InvariantHoldsAtReset : Prop := State.reset.Inv

/-- The invariant (10_state.md section 9) is kept by every step: the round counter, the opcode and the
variant latched, and the error codes, which are never 1, 3 or 4. -/
def Obligations.EveryStepKeepsInvariant : Prop :=
  ∀ s t : State, s.Inv → step s = .next t → t.Inv

/-- No state of the invariant stops: "no error arises during a step", no access raises a fault, and a
command that has been accepted goes on (60_exceptions.md section 1, 20_memory.md section 4). -/
def Obligations.NoStopFromInvariant : Prop :=
  ∀ s : State, s.Inv → s.Safe

/-- Where the model stops (log entry 6): exactly at an edge with the sequencer in a state that no rule
gives a step, and never with a refusal. -/
def Obligations.FaultsExactlyWhereNoRule : Prop :=
  (∀ s : State, (∃ f, step s = .fault f) ↔
    s.atCycle ∧
    ((s.engine.phase = .kx ∧
        (s.engine.rnd = 0 ∨ 10 < s.engine.rnd ∨ 5 < s.engine.lvar ∨
          (s.engine.rnd = 10 ∧ s.engine.lop ≠ 0x01 ∧ s.engine.lop ≠ 0x02 ∧
            s.engine.lop ≠ 0x03))) ∨
     (s.engine.phase = .enc ∧
        (10 < s.engine.rnd ∨ (s.engine.rnd ≠ 0 ∧ 5 < s.engine.lvar))) ∨
     (s.engine.phase = .dec ∧
        (10 < s.engine.rnd ∨ (s.engine.rnd ≠ 10 ∧ 5 < s.engine.lvar))))) ∧
  (∀ (s : State) (r : Refusal), step s ≠ .refused r)

/-! ## Timing -/

/-- The reads of a WAIT right after a command (70_reset_and_hazards.md section 3, the timing table):
1 for a single-edge command, 11 for EXPAND, 22 for ENCRYPT and DECRYPT. The WAIT goes on until then,
and the value it records has BUSY = 0 and DONE = 1. -/
def Obligations.WaitReadsAfterCommand : Prop :=
  ∀ (s : State) (p : Pins) (rest : List HostEvent) (a : Addr) (d : Word) (i : Instr),
    s.rstN = true → s.engine.phase = .idle → s.engine.rnd = 0 →
    s.host = .clock p :: .wait :: rest → p.access = .write a d → regAt a = some .cmd →
    decode d = .legal i →
    (∀ n, n ≤ completionEdge i →
      ∃ t, Host.Core.run core (n + 1) s = .next t ∧ t.host = .wait :: rest ∧
        t.recorded = s.recorded) ∧
    (∃ t v, Host.Core.run core (completionEdge i + 2) s = .next t ∧ t.host = rest ∧
      t.recorded = s.recorded ++ [v] ∧ v.getLsbD 0 = false ∧ v.getLsbD 1 = true)
end

