-- ==== Sys2Proof/Laws/Encoding.lean ====
section
/-! SUPPORT. The laws of command words: the fields of R81 and the word they make determine each
other, and the encoder of R92 fills the fields that the table of R82 gives the instruction. -/

namespace Sys2Proof

/-- Bit `i` of a command word, by the format table of R81. -/
theorem Command.word_getLsbD (c : Command) (i : Nat) :
    c.word.getLsbD i =
      if i < 8 then c.op.getLsbD i
      else if i < 11 then c.var.getLsbD (i - 8)
      else if i < 16 then c.rsv.getLsbD (i - 11)
      else if i < 24 then c.a.getLsbD (i - 16)
      else c.b.getLsbD (i - 24) := by
  change (c.b ++ c.a ++ c.rsv ++ c.var ++ c.op : BitVec (8 + 8 + 5 + 3 + 8)).getLsbD i = _
  simp only [BitVec.getLsbD_append]
  by_cases h1 : i < 8 <;> by_cases h2 : i < 11 <;> by_cases h3 : i < 16 <;> by_cases h4 : i < 24 <;>
    simp [h1, h2, h3, h4, show i - 8 < 3 ↔ i < 11 by omega, show i - 11 < 5 ↔ i < 16 by omega,
      show i - 16 < 8 ↔ i < 24 by omega, Nat.sub_sub]

@[simp] theorem Command.ofWord_word (c : Command) : Command.ofWord c.word = c := by
  obtain ⟨op, var, rsv, a, b⟩ := c
  simp only [Command.ofWord, Command.mk.injEq]
  refine ⟨?_, ?_, ?_, ?_, ?_⟩ <;>
  · apply BitVec.eq_of_getLsbD_eq
    intro i hi
    simp only [BitVec.getLsbD_extractLsb', Command.word_getLsbD, hi]
    simp
    split_ifs <;> first | omega | rfl

@[simp] theorem Command.word_ofWord (w : Word) : (Command.ofWord w).word = w := by
  apply BitVec.eq_of_getLsbD_eq
  intro i hi
  rw [Command.word_getLsbD]
  simp only [Command.ofWord, BitVec.getLsbD_extractLsb']
  split_ifs with h1 h2 h3 h4
  · simp [h1]
  · rw [show 8 + (i - 8) = i by omega]; simp; omega
  · rw [show 11 + (i - 11) = i by omega]; simp; omega
  · rw [show 16 + (i - 16) = i by omega]; simp; omega
  · rw [show 24 + (i - 24) = i by omega]; simp; omega

/-- The two spellings of the VAR codes of R83 agree. -/
@[simp] theorem Command.varCode_eq (v : Variant) : Command.varCode v = v.code := by
  cases v <;> rfl

/-- The encoder fills the fields that R82 gives the instruction. -/
theorem encode_eq_word (i : Instr) : encode i = (Command.ofInstr i).word := by
  cases i <;> simp [Command.ofInstr] <;> rfl

/-- The fields of an encoded instruction. -/
theorem ofWord_encode (i : Instr) : Command.ofWord (encode i) = Command.ofInstr i := by
  rw [encode_eq_word, Command.ofWord_word]

/-- `decodeCommand` decodes a word's fields (R88). -/
theorem decode_word (c : Command) : decode c.word = decodeCommand c := by
  rw [decode, Command.ofWord_word]

/-- The OP values of the map of R82. -/
theorem op_cases {op : BitVec 8} (h : ¬ op > 0x0F) :
    op ∈ ([0x00, 0x01, 0x02, 0x03, 0x04, 0x05, 0x06, 0x07] : List (BitVec 8)) ++
      [0x08, 0x09, 0x0A, 0x0B, 0x0C, 0x0D, 0x0E, 0x0F] := by
  revert h; revert op; decide

/-- An instruction's variant is what its VAR field names, where its opcode uses VAR (R82, R83). -/
theorem variant_code (i : Instr) :
    (Command.ofInstr i).var = (i.variant.map Variant.code).getD 0 := by
  cases i <;> simp [Command.ofInstr, Instr.variant]

end Sys2Proof
end

