-- ==== Sys2Proof/Laws/State.lean ====
section
/-! SUPPORT. One lemma per field per update of the state, so that no later proof unfolds a record
update: what each shared operation writes, and that it writes nothing else. -/

namespace Sys2Proof.Machine

/-! A rejection (R244) writes ERR and ERRCODE. -/

@[simp] theorem Engine.raise_key (c : ErrCode) (e : Engine) : (e.raise c).key = e.key := rfl
@[simp] theorem Engine.raise_din (c : ErrCode) (e : Engine) : (e.raise c).din = e.din := rfl
@[simp] theorem Engine.raise_dout (c : ErrCode) (e : Engine) : (e.raise c).dout = e.dout := rfl
@[simp] theorem Engine.raise_bres (c : ErrCode) (e : Engine) : (e.raise c).bres = e.bres := rfl
@[simp] theorem Engine.raise_done (c : ErrCode) (e : Engine) : (e.raise c).done = e.done := rfl
@[simp] theorem Engine.raise_err (c : ErrCode) (e : Engine) : (e.raise c).err = true := rfl
@[simp] theorem Engine.raise_warn (c : ErrCode) (e : Engine) : (e.raise c).warn = e.warn := rfl
@[simp] theorem Engine.raise_errcode (c : ErrCode) (e : Engine) : (e.raise c).errcode = c.code := rfl
@[simp] theorem Engine.raise_ieDone (c : ErrCode) (e : Engine) : (e.raise c).ieDone = e.ieDone := rfl
@[simp] theorem Engine.raise_ieErr (c : ErrCode) (e : Engine) : (e.raise c).ieErr = e.ieErr := rfl
@[simp] theorem Engine.raise_rk (c : ErrCode) (e : Engine) : (e.raise c).rk = e.rk := rfl
@[simp] theorem Engine.raise_st (c : ErrCode) (e : Engine) : (e.raise c).st = e.st := rfl
@[simp] theorem Engine.raise_phase (c : ErrCode) (e : Engine) : (e.raise c).phase = e.phase := rfl
@[simp] theorem Engine.raise_rnd (c : ErrCode) (e : Engine) : (e.raise c).rnd = e.rnd := rfl
@[simp] theorem Engine.raise_lop (c : ErrCode) (e : Engine) : (e.raise c).lop = e.lop := rfl
@[simp] theorem Engine.raise_lvar (c : ErrCode) (e : Engine) : (e.raise c).lvar = e.lvar := rfl

/-! The acknowledgement (R248) writes ERR and ERRCODE. -/

@[simp] theorem Engine.acknowledge_key (e : Engine) : (e.acknowledge).key = e.key := rfl
@[simp] theorem Engine.acknowledge_din (e : Engine) : (e.acknowledge).din = e.din := rfl
@[simp] theorem Engine.acknowledge_dout (e : Engine) : (e.acknowledge).dout = e.dout := rfl
@[simp] theorem Engine.acknowledge_bres (e : Engine) : (e.acknowledge).bres = e.bres := rfl
@[simp] theorem Engine.acknowledge_done (e : Engine) : (e.acknowledge).done = e.done := rfl
@[simp] theorem Engine.acknowledge_err (e : Engine) : (e.acknowledge).err = false := rfl
@[simp] theorem Engine.acknowledge_warn (e : Engine) : (e.acknowledge).warn = e.warn := rfl
@[simp] theorem Engine.acknowledge_errcode (e : Engine) : (e.acknowledge).errcode = 0 := rfl
@[simp] theorem Engine.acknowledge_ieDone (e : Engine) : (e.acknowledge).ieDone = e.ieDone := rfl
@[simp] theorem Engine.acknowledge_ieErr (e : Engine) : (e.acknowledge).ieErr = e.ieErr := rfl
@[simp] theorem Engine.acknowledge_rk (e : Engine) : (e.acknowledge).rk = e.rk := rfl
@[simp] theorem Engine.acknowledge_st (e : Engine) : (e.acknowledge).st = e.st := rfl
@[simp] theorem Engine.acknowledge_phase (e : Engine) : (e.acknowledge).phase = e.phase := rfl
@[simp] theorem Engine.acknowledge_rnd (e : Engine) : (e.acknowledge).rnd = e.rnd := rfl
@[simp] theorem Engine.acknowledge_lop (e : Engine) : (e.acknowledge).lop = e.lop := rfl
@[simp] theorem Engine.acknowledge_lvar (e : Engine) : (e.acknowledge).lvar = e.lvar := rfl

/-! Acceptance (R193) clears DONE. -/

@[simp] theorem Engine.clearDone_key (e : Engine) : (e.clearDone).key = e.key := rfl
@[simp] theorem Engine.clearDone_din (e : Engine) : (e.clearDone).din = e.din := rfl
@[simp] theorem Engine.clearDone_dout (e : Engine) : (e.clearDone).dout = e.dout := rfl
@[simp] theorem Engine.clearDone_bres (e : Engine) : (e.clearDone).bres = e.bres := rfl
@[simp] theorem Engine.clearDone_done (e : Engine) : (e.clearDone).done = false := rfl
@[simp] theorem Engine.clearDone_err (e : Engine) : (e.clearDone).err = e.err := rfl
@[simp] theorem Engine.clearDone_warn (e : Engine) : (e.clearDone).warn = e.warn := rfl
@[simp] theorem Engine.clearDone_errcode (e : Engine) : (e.clearDone).errcode = e.errcode := rfl
@[simp] theorem Engine.clearDone_ieDone (e : Engine) : (e.clearDone).ieDone = e.ieDone := rfl
@[simp] theorem Engine.clearDone_ieErr (e : Engine) : (e.clearDone).ieErr = e.ieErr := rfl
@[simp] theorem Engine.clearDone_rk (e : Engine) : (e.clearDone).rk = e.rk := rfl
@[simp] theorem Engine.clearDone_st (e : Engine) : (e.clearDone).st = e.st := rfl
@[simp] theorem Engine.clearDone_phase (e : Engine) : (e.clearDone).phase = e.phase := rfl
@[simp] theorem Engine.clearDone_rnd (e : Engine) : (e.clearDone).rnd = e.rnd := rfl
@[simp] theorem Engine.clearDone_lop (e : Engine) : (e.clearDone).lop = e.lop := rfl
@[simp] theorem Engine.clearDone_lvar (e : Engine) : (e.clearDone).lvar = e.lvar := rfl

/-! Completion (R195, R200) sets DONE. -/

@[simp] theorem Engine.setDone_key (e : Engine) : (e.setDone).key = e.key := rfl
@[simp] theorem Engine.setDone_din (e : Engine) : (e.setDone).din = e.din := rfl
@[simp] theorem Engine.setDone_dout (e : Engine) : (e.setDone).dout = e.dout := rfl
@[simp] theorem Engine.setDone_bres (e : Engine) : (e.setDone).bres = e.bres := rfl
@[simp] theorem Engine.setDone_done (e : Engine) : (e.setDone).done = true := rfl
@[simp] theorem Engine.setDone_err (e : Engine) : (e.setDone).err = e.err := rfl
@[simp] theorem Engine.setDone_warn (e : Engine) : (e.setDone).warn = e.warn := rfl
@[simp] theorem Engine.setDone_errcode (e : Engine) : (e.setDone).errcode = e.errcode := rfl
@[simp] theorem Engine.setDone_ieDone (e : Engine) : (e.setDone).ieDone = e.ieDone := rfl
@[simp] theorem Engine.setDone_ieErr (e : Engine) : (e.setDone).ieErr = e.ieErr := rfl
@[simp] theorem Engine.setDone_rk (e : Engine) : (e.setDone).rk = e.rk := rfl
@[simp] theorem Engine.setDone_st (e : Engine) : (e.setDone).st = e.st := rfl
@[simp] theorem Engine.setDone_phase (e : Engine) : (e.setDone).phase = e.phase := rfl
@[simp] theorem Engine.setDone_rnd (e : Engine) : (e.setDone).rnd = e.rnd := rfl
@[simp] theorem Engine.setDone_lop (e : Engine) : (e.setDone).lop = e.lop := rfl
@[simp] theorem Engine.setDone_lvar (e : Engine) : (e.setDone).lvar = e.lvar := rfl

/-! A write to CTRL (R28) writes the two enables. -/

@[simp] theorem Engine.ctrlWrite_key (d : Word) (e : Engine) : (e.ctrlWrite d).key = e.key := rfl
@[simp] theorem Engine.ctrlWrite_din (d : Word) (e : Engine) : (e.ctrlWrite d).din = e.din := rfl
@[simp] theorem Engine.ctrlWrite_dout (d : Word) (e : Engine) : (e.ctrlWrite d).dout = e.dout := rfl
@[simp] theorem Engine.ctrlWrite_bres (d : Word) (e : Engine) : (e.ctrlWrite d).bres = e.bres := rfl
@[simp] theorem Engine.ctrlWrite_done (d : Word) (e : Engine) : (e.ctrlWrite d).done = e.done := rfl
@[simp] theorem Engine.ctrlWrite_err (d : Word) (e : Engine) : (e.ctrlWrite d).err = e.err := rfl
@[simp] theorem Engine.ctrlWrite_warn (d : Word) (e : Engine) : (e.ctrlWrite d).warn = e.warn := rfl
@[simp] theorem Engine.ctrlWrite_errcode (d : Word) (e : Engine) : (e.ctrlWrite d).errcode = e.errcode := rfl
@[simp] theorem Engine.ctrlWrite_ieDone (d : Word) (e : Engine) : (e.ctrlWrite d).ieDone = d.getLsbD 0 := rfl
@[simp] theorem Engine.ctrlWrite_ieErr (d : Word) (e : Engine) : (e.ctrlWrite d).ieErr = d.getLsbD 1 := rfl
@[simp] theorem Engine.ctrlWrite_rk (d : Word) (e : Engine) : (e.ctrlWrite d).rk = e.rk := rfl
@[simp] theorem Engine.ctrlWrite_st (d : Word) (e : Engine) : (e.ctrlWrite d).st = e.st := rfl
@[simp] theorem Engine.ctrlWrite_phase (d : Word) (e : Engine) : (e.ctrlWrite d).phase = e.phase := rfl
@[simp] theorem Engine.ctrlWrite_rnd (d : Word) (e : Engine) : (e.ctrlWrite d).rnd = e.rnd := rfl
@[simp] theorem Engine.ctrlWrite_lop (d : Word) (e : Engine) : (e.ctrlWrite d).lop = e.lop := rfl
@[simp] theorem Engine.ctrlWrite_lvar (d : Word) (e : Engine) : (e.ctrlWrite d).lvar = e.lvar := rfl

/-! Acceptance of a multi-step command (R194) writes RK[0..3], ST, LOP, LVAR, RND and PHASE. -/

@[simp] theorem Engine.latch_key (op : BitVec 8) (v : Variant) (e : Engine) : (e.latch op v).key = e.key := rfl
@[simp] theorem Engine.latch_din (op : BitVec 8) (v : Variant) (e : Engine) : (e.latch op v).din = e.din := rfl
@[simp] theorem Engine.latch_dout (op : BitVec 8) (v : Variant) (e : Engine) : (e.latch op v).dout = e.dout := rfl
@[simp] theorem Engine.latch_bres (op : BitVec 8) (v : Variant) (e : Engine) : (e.latch op v).bres = e.bres := rfl
@[simp] theorem Engine.latch_done (op : BitVec 8) (v : Variant) (e : Engine) : (e.latch op v).done = e.done := rfl
@[simp] theorem Engine.latch_err (op : BitVec 8) (v : Variant) (e : Engine) : (e.latch op v).err = e.err := rfl
@[simp] theorem Engine.latch_warn (op : BitVec 8) (v : Variant) (e : Engine) : (e.latch op v).warn = e.warn := rfl
@[simp] theorem Engine.latch_errcode (op : BitVec 8) (v : Variant) (e : Engine) : (e.latch op v).errcode = e.errcode := rfl
@[simp] theorem Engine.latch_ieDone (op : BitVec 8) (v : Variant) (e : Engine) : (e.latch op v).ieDone = e.ieDone := rfl
@[simp] theorem Engine.latch_ieErr (op : BitVec 8) (v : Variant) (e : Engine) : (e.latch op v).ieErr = e.ieErr := rfl
@[simp] theorem Engine.latch_rk (op : BitVec 8) (v : Variant) (e : Engine) : (e.latch op v).rk = rkSetGroup e.rk 0 e.key := rfl
@[simp] theorem Engine.latch_st (op : BitVec 8) (v : Variant) (e : Engine) : (e.latch op v).st = (if op ≠ 0x01 then blockOf e.din else e.st) := rfl
@[simp] theorem Engine.latch_phase (op : BitVec 8) (v : Variant) (e : Engine) : (e.latch op v).phase = .kx := rfl
@[simp] theorem Engine.latch_rnd (op : BitVec 8) (v : Variant) (e : Engine) : (e.latch op v).rnd = 1 := rfl
@[simp] theorem Engine.latch_lop (op : BitVec 8) (v : Variant) (e : Engine) : (e.latch op v).lop = op := rfl
@[simp] theorem Engine.latch_lvar (op : BitVec 8) (v : Variant) (e : Engine) : (e.latch op v).lvar = v.code := rfl

/-! Completion of a multi-step command (R200) writes PHASE, RND and DONE. -/

@[simp] theorem Engine.complete_key (e : Engine) : (e.complete).key = e.key := rfl
@[simp] theorem Engine.complete_din (e : Engine) : (e.complete).din = e.din := rfl
@[simp] theorem Engine.complete_dout (e : Engine) : (e.complete).dout = e.dout := rfl
@[simp] theorem Engine.complete_bres (e : Engine) : (e.complete).bres = e.bres := rfl
@[simp] theorem Engine.complete_done (e : Engine) : (e.complete).done = true := rfl
@[simp] theorem Engine.complete_err (e : Engine) : (e.complete).err = e.err := rfl
@[simp] theorem Engine.complete_warn (e : Engine) : (e.complete).warn = e.warn := rfl
@[simp] theorem Engine.complete_errcode (e : Engine) : (e.complete).errcode = e.errcode := rfl
@[simp] theorem Engine.complete_ieDone (e : Engine) : (e.complete).ieDone = e.ieDone := rfl
@[simp] theorem Engine.complete_ieErr (e : Engine) : (e.complete).ieErr = e.ieErr := rfl
@[simp] theorem Engine.complete_rk (e : Engine) : (e.complete).rk = e.rk := rfl
@[simp] theorem Engine.complete_st (e : Engine) : (e.complete).st = e.st := rfl
@[simp] theorem Engine.complete_phase (e : Engine) : (e.complete).phase = .idle := rfl
@[simp] theorem Engine.complete_rnd (e : Engine) : (e.complete).rnd = 0 := rfl
@[simp] theorem Engine.complete_lop (e : Engine) : (e.complete).lop = e.lop := rfl
@[simp] theorem Engine.complete_lvar (e : Engine) : (e.complete).lvar = e.lvar := rfl

/-! A block result (R173) writes DOUT. -/

@[simp] theorem Engine.writeDout_key (b : Block) (e : Engine) : (e.writeDout b).key = e.key := rfl
@[simp] theorem Engine.writeDout_din (b : Block) (e : Engine) : (e.writeDout b).din = e.din := rfl
@[simp] theorem Engine.writeDout_dout (b : Block) (e : Engine) : (e.writeDout b).dout = packed b := rfl
@[simp] theorem Engine.writeDout_bres (b : Block) (e : Engine) : (e.writeDout b).bres = e.bres := rfl
@[simp] theorem Engine.writeDout_done (b : Block) (e : Engine) : (e.writeDout b).done = e.done := rfl
@[simp] theorem Engine.writeDout_err (b : Block) (e : Engine) : (e.writeDout b).err = e.err := rfl
@[simp] theorem Engine.writeDout_warn (b : Block) (e : Engine) : (e.writeDout b).warn = e.warn := rfl
@[simp] theorem Engine.writeDout_errcode (b : Block) (e : Engine) : (e.writeDout b).errcode = e.errcode := rfl
@[simp] theorem Engine.writeDout_ieDone (b : Block) (e : Engine) : (e.writeDout b).ieDone = e.ieDone := rfl
@[simp] theorem Engine.writeDout_ieErr (b : Block) (e : Engine) : (e.writeDout b).ieErr = e.ieErr := rfl
@[simp] theorem Engine.writeDout_rk (b : Block) (e : Engine) : (e.writeDout b).rk = e.rk := rfl
@[simp] theorem Engine.writeDout_st (b : Block) (e : Engine) : (e.writeDout b).st = e.st := rfl
@[simp] theorem Engine.writeDout_phase (b : Block) (e : Engine) : (e.writeDout b).phase = e.phase := rfl
@[simp] theorem Engine.writeDout_rnd (b : Block) (e : Engine) : (e.writeDout b).rnd = e.rnd := rfl
@[simp] theorem Engine.writeDout_lop (b : Block) (e : Engine) : (e.writeDout b).lop = e.lop := rfl
@[simp] theorem Engine.writeDout_lvar (b : Block) (e : Engine) : (e.writeDout b).lvar = e.lvar := rfl

/-! A byte result (R106) writes BRES. -/

@[simp] theorem Engine.writeBres_key (b : Byte) (e : Engine) : (e.writeBres b).key = e.key := rfl
@[simp] theorem Engine.writeBres_din (b : Byte) (e : Engine) : (e.writeBres b).din = e.din := rfl
@[simp] theorem Engine.writeBres_dout (b : Byte) (e : Engine) : (e.writeBres b).dout = e.dout := rfl
@[simp] theorem Engine.writeBres_bres (b : Byte) (e : Engine) : (e.writeBres b).bres = b := rfl
@[simp] theorem Engine.writeBres_done (b : Byte) (e : Engine) : (e.writeBres b).done = e.done := rfl
@[simp] theorem Engine.writeBres_err (b : Byte) (e : Engine) : (e.writeBres b).err = e.err := rfl
@[simp] theorem Engine.writeBres_warn (b : Byte) (e : Engine) : (e.writeBres b).warn = e.warn := rfl
@[simp] theorem Engine.writeBres_errcode (b : Byte) (e : Engine) : (e.writeBres b).errcode = e.errcode := rfl
@[simp] theorem Engine.writeBres_ieDone (b : Byte) (e : Engine) : (e.writeBres b).ieDone = e.ieDone := rfl
@[simp] theorem Engine.writeBres_ieErr (b : Byte) (e : Engine) : (e.writeBres b).ieErr = e.ieErr := rfl
@[simp] theorem Engine.writeBres_rk (b : Byte) (e : Engine) : (e.writeBres b).rk = e.rk := rfl
@[simp] theorem Engine.writeBres_st (b : Byte) (e : Engine) : (e.writeBres b).st = e.st := rfl
@[simp] theorem Engine.writeBres_phase (b : Byte) (e : Engine) : (e.writeBres b).phase = e.phase := rfl
@[simp] theorem Engine.writeBres_rnd (b : Byte) (e : Engine) : (e.writeBres b).rnd = e.rnd := rfl
@[simp] theorem Engine.writeBres_lop (b : Byte) (e : Engine) : (e.writeBres b).lop = e.lop := rfl
@[simp] theorem Engine.writeBres_lvar (b : Byte) (e : Engine) : (e.writeBres b).lvar = e.lvar := rfl

/-! CLEAR (R231) zeroes the key and data state. -/

@[simp] theorem Engine.erase_key (e : Engine) : (e.erase).key = zeroRegs := rfl
@[simp] theorem Engine.erase_din (e : Engine) : (e.erase).din = zeroRegs := rfl
@[simp] theorem Engine.erase_dout (e : Engine) : (e.erase).dout = zeroRegs := rfl
@[simp] theorem Engine.erase_bres (e : Engine) : (e.erase).bres = 0 := rfl
@[simp] theorem Engine.erase_done (e : Engine) : (e.erase).done = e.done := rfl
@[simp] theorem Engine.erase_err (e : Engine) : (e.erase).err = e.err := rfl
@[simp] theorem Engine.erase_warn (e : Engine) : (e.erase).warn = e.warn := rfl
@[simp] theorem Engine.erase_errcode (e : Engine) : (e.erase).errcode = e.errcode := rfl
@[simp] theorem Engine.erase_ieDone (e : Engine) : (e.erase).ieDone = e.ieDone := rfl
@[simp] theorem Engine.erase_ieErr (e : Engine) : (e.erase).ieErr = e.ieErr := rfl
@[simp] theorem Engine.erase_rk (e : Engine) : (e.erase).rk = Vector.replicate 44 0 := rfl
@[simp] theorem Engine.erase_st (e : Engine) : (e.erase).st = zeroBlock := rfl
@[simp] theorem Engine.erase_phase (e : Engine) : (e.erase).phase = e.phase := rfl
@[simp] theorem Engine.erase_rnd (e : Engine) : (e.erase).rnd = 0 := rfl
@[simp] theorem Engine.erase_lop (e : Engine) : (e.erase).lop = 0 := rfl
@[simp] theorem Engine.erase_lvar (e : Engine) : (e.erase).lvar = 0 := rfl

/-! The warning (R249) writes WARN. -/

@[simp] theorem Engine.warnFor_key (v : Option Variant) (e : Engine) : (e.warnFor v).key = e.key := by
  rcases v with _ | v
  · rfl
  · cases v <;> rfl
@[simp] theorem Engine.warnFor_din (v : Option Variant) (e : Engine) : (e.warnFor v).din = e.din := by
  rcases v with _ | v
  · rfl
  · cases v <;> rfl
@[simp] theorem Engine.warnFor_dout (v : Option Variant) (e : Engine) : (e.warnFor v).dout = e.dout := by
  rcases v with _ | v
  · rfl
  · cases v <;> rfl
@[simp] theorem Engine.warnFor_bres (v : Option Variant) (e : Engine) : (e.warnFor v).bres = e.bres := by
  rcases v with _ | v
  · rfl
  · cases v <;> rfl
@[simp] theorem Engine.warnFor_done (v : Option Variant) (e : Engine) : (e.warnFor v).done = e.done := by
  rcases v with _ | v
  · rfl
  · cases v <;> rfl
@[simp] theorem Engine.warnFor_err (v : Option Variant) (e : Engine) : (e.warnFor v).err = e.err := by
  rcases v with _ | v
  · rfl
  · cases v <;> rfl
@[simp] theorem Engine.warnFor_warn (v : Option Variant) (e : Engine) :
    (e.warnFor v).warn = (e.warn || decide (v = some .k128)) := by
  rcases v with _ | v
  · simp [Engine.warnFor]
  · cases v <;> simp [Engine.warnFor]
@[simp] theorem Engine.warnFor_errcode (v : Option Variant) (e : Engine) : (e.warnFor v).errcode = e.errcode := by
  rcases v with _ | v
  · rfl
  · cases v <;> rfl
@[simp] theorem Engine.warnFor_ieDone (v : Option Variant) (e : Engine) : (e.warnFor v).ieDone = e.ieDone := by
  rcases v with _ | v
  · rfl
  · cases v <;> rfl
@[simp] theorem Engine.warnFor_ieErr (v : Option Variant) (e : Engine) : (e.warnFor v).ieErr = e.ieErr := by
  rcases v with _ | v
  · rfl
  · cases v <;> rfl
@[simp] theorem Engine.warnFor_rk (v : Option Variant) (e : Engine) : (e.warnFor v).rk = e.rk := by
  rcases v with _ | v
  · rfl
  · cases v <;> rfl
@[simp] theorem Engine.warnFor_st (v : Option Variant) (e : Engine) : (e.warnFor v).st = e.st := by
  rcases v with _ | v
  · rfl
  · cases v <;> rfl
@[simp] theorem Engine.warnFor_phase (v : Option Variant) (e : Engine) : (e.warnFor v).phase = e.phase := by
  rcases v with _ | v
  · rfl
  · cases v <;> rfl
@[simp] theorem Engine.warnFor_rnd (v : Option Variant) (e : Engine) : (e.warnFor v).rnd = e.rnd := by
  rcases v with _ | v
  · rfl
  · cases v <;> rfl
@[simp] theorem Engine.warnFor_lop (v : Option Variant) (e : Engine) : (e.warnFor v).lop = e.lop := by
  rcases v with _ | v
  · rfl
  · cases v <;> rfl
@[simp] theorem Engine.warnFor_lvar (v : Option Variant) (e : Engine) : (e.warnFor v).lvar = e.lvar := by
  rcases v with _ | v
  · rfl
  · cases v <;> rfl

/-! A write to STATUS (R58) writes DONE, ERR, ERRCODE and WARN. -/

@[simp] theorem Engine.statusWrite_key (b : Bool) (d : Word) (e : Engine) : (e.statusWrite b d).key = e.key := by
  simp only [Engine.statusWrite]
  split_ifs <;> rfl
@[simp] theorem Engine.statusWrite_din (b : Bool) (d : Word) (e : Engine) : (e.statusWrite b d).din = e.din := by
  simp only [Engine.statusWrite]
  split_ifs <;> rfl
@[simp] theorem Engine.statusWrite_dout (b : Bool) (d : Word) (e : Engine) : (e.statusWrite b d).dout = e.dout := by
  simp only [Engine.statusWrite]
  split_ifs <;> rfl
@[simp] theorem Engine.statusWrite_bres (b : Bool) (d : Word) (e : Engine) : (e.statusWrite b d).bres = e.bres := by
  simp only [Engine.statusWrite]
  split_ifs <;> rfl
@[simp] theorem Engine.statusWrite_done (b : Bool) (d : Word) (e : Engine) :
    (e.statusWrite b d).done = (if d.getLsbD 1 ∧ ¬b then false else e.done) := by
  simp only [Engine.statusWrite]
  split_ifs <;> rfl
@[simp] theorem Engine.statusWrite_err (b : Bool) (d : Word) (e : Engine) :
    (e.statusWrite b d).err = (if d.getLsbD 2 then false else e.err) := by
  simp only [Engine.statusWrite]
  split_ifs <;> rfl
@[simp] theorem Engine.statusWrite_warn (b : Bool) (d : Word) (e : Engine) :
    (e.statusWrite b d).warn = (if d.getLsbD 3 then false else e.warn) := by
  simp only [Engine.statusWrite]
  split_ifs <;> rfl
@[simp] theorem Engine.statusWrite_errcode (b : Bool) (d : Word) (e : Engine) :
    (e.statusWrite b d).errcode = (if d.getLsbD 2 then 0 else e.errcode) := by
  simp only [Engine.statusWrite]
  split_ifs <;> rfl
@[simp] theorem Engine.statusWrite_ieDone (b : Bool) (d : Word) (e : Engine) : (e.statusWrite b d).ieDone = e.ieDone := by
  simp only [Engine.statusWrite]
  split_ifs <;> rfl
@[simp] theorem Engine.statusWrite_ieErr (b : Bool) (d : Word) (e : Engine) : (e.statusWrite b d).ieErr = e.ieErr := by
  simp only [Engine.statusWrite]
  split_ifs <;> rfl
@[simp] theorem Engine.statusWrite_rk (b : Bool) (d : Word) (e : Engine) : (e.statusWrite b d).rk = e.rk := by
  simp only [Engine.statusWrite]
  split_ifs <;> rfl
@[simp] theorem Engine.statusWrite_st (b : Bool) (d : Word) (e : Engine) : (e.statusWrite b d).st = e.st := by
  simp only [Engine.statusWrite]
  split_ifs <;> rfl
@[simp] theorem Engine.statusWrite_phase (b : Bool) (d : Word) (e : Engine) : (e.statusWrite b d).phase = e.phase := by
  simp only [Engine.statusWrite]
  split_ifs <;> rfl
@[simp] theorem Engine.statusWrite_rnd (b : Bool) (d : Word) (e : Engine) : (e.statusWrite b d).rnd = e.rnd := by
  simp only [Engine.statusWrite]
  split_ifs <;> rfl
@[simp] theorem Engine.statusWrite_lop (b : Bool) (d : Word) (e : Engine) : (e.statusWrite b d).lop = e.lop := by
  simp only [Engine.statusWrite]
  split_ifs <;> rfl
@[simp] theorem Engine.statusWrite_lvar (b : Bool) (d : Word) (e : Engine) : (e.statusWrite b d).lvar = e.lvar := by
  simp only [Engine.statusWrite]
  split_ifs <;> rfl

/-! A write to a register other than CMD and STATUS (R57) writes KEY, DIN or CTRL. -/

@[simp] theorem Engine.writePlain_dout (r : RegName) (d : Word) (e : Engine) : (e.writePlain r d).dout = e.dout := by
  cases r <;> rfl
@[simp] theorem Engine.writePlain_bres (r : RegName) (d : Word) (e : Engine) : (e.writePlain r d).bres = e.bres := by
  cases r <;> rfl
@[simp] theorem Engine.writePlain_done (r : RegName) (d : Word) (e : Engine) : (e.writePlain r d).done = e.done := by
  cases r <;> rfl
@[simp] theorem Engine.writePlain_err (r : RegName) (d : Word) (e : Engine) : (e.writePlain r d).err = e.err := by
  cases r <;> rfl
@[simp] theorem Engine.writePlain_warn (r : RegName) (d : Word) (e : Engine) : (e.writePlain r d).warn = e.warn := by
  cases r <;> rfl
@[simp] theorem Engine.writePlain_errcode (r : RegName) (d : Word) (e : Engine) : (e.writePlain r d).errcode = e.errcode := by
  cases r <;> rfl
@[simp] theorem Engine.writePlain_rk (r : RegName) (d : Word) (e : Engine) : (e.writePlain r d).rk = e.rk := by
  cases r <;> rfl
@[simp] theorem Engine.writePlain_st (r : RegName) (d : Word) (e : Engine) : (e.writePlain r d).st = e.st := by
  cases r <;> rfl
@[simp] theorem Engine.writePlain_phase (r : RegName) (d : Word) (e : Engine) : (e.writePlain r d).phase = e.phase := by
  cases r <;> rfl
@[simp] theorem Engine.writePlain_rnd (r : RegName) (d : Word) (e : Engine) : (e.writePlain r d).rnd = e.rnd := by
  cases r <;> rfl
@[simp] theorem Engine.writePlain_lop (r : RegName) (d : Word) (e : Engine) : (e.writePlain r d).lop = e.lop := by
  cases r <;> rfl
@[simp] theorem Engine.writePlain_lvar (r : RegName) (d : Word) (e : Engine) : (e.writePlain r d).lvar = e.lvar := by
  cases r <;> rfl

/-! The updates of the machine around the engine. -/

@[simp] theorem State.onEngine_engine (f : Engine → Engine) (s : State) : (s.onEngine f).engine = f s.engine := rfl
@[simp] theorem State.onEngine_rstN (f : Engine → Engine) (s : State) : (s.onEngine f).rstN = s.rstN := rfl
@[simp] theorem State.onEngine_host (f : Engine → Engine) (s : State) : (s.onEngine f).host = s.host := rfl
@[simp] theorem State.onEngine_rdata (f : Engine → Engine) (s : State) : (s.onEngine f).rdata = s.rdata := rfl
@[simp] theorem State.onEngine_irq (f : Engine → Engine) (s : State) : (s.onEngine f).irq = s.irq := rfl
@[simp] theorem State.onEngine_recorded (f : Engine → Engine) (s : State) : (s.onEngine f).recorded = s.recorded := rfl
@[simp] theorem State.outputs_engine (acc : Access) (s : State) : (s.outputs acc).engine = s.engine := rfl
@[simp] theorem State.outputs_rstN (acc : Access) (s : State) : (s.outputs acc).rstN = s.rstN := rfl
@[simp] theorem State.outputs_host (acc : Access) (s : State) : (s.outputs acc).host = s.host := rfl
@[simp] theorem State.outputs_rdata (acc : Access) (s : State) : (s.outputs acc).rdata = outRdata acc s := rfl
@[simp] theorem State.outputs_irq (acc : Access) (s : State) : (s.outputs acc).irq = outIrq s := rfl
@[simp] theorem State.outputs_recorded (acc : Access) (s : State) : (s.outputs acc).recorded = s.recorded := rfl
@[simp] theorem State.withHost_engine (l : List HostEvent) (s : State) : (s.withHost l).engine = s.engine := rfl
@[simp] theorem State.withHost_rstN (l : List HostEvent) (s : State) : (s.withHost l).rstN = s.rstN := rfl
@[simp] theorem State.withHost_host (l : List HostEvent) (s : State) : (s.withHost l).host = l := rfl
@[simp] theorem State.withHost_rdata (l : List HostEvent) (s : State) : (s.withHost l).rdata = s.rdata := rfl
@[simp] theorem State.withHost_irq (l : List HostEvent) (s : State) : (s.withHost l).irq = s.irq := rfl
@[simp] theorem State.withHost_recorded (l : List HostEvent) (s : State) : (s.withHost l).recorded = s.recorded := rfl
@[simp] theorem State.record_engine (v : Word) (s : State) : (s.record v).engine = s.engine := rfl
@[simp] theorem State.record_rstN (v : Word) (s : State) : (s.record v).rstN = s.rstN := rfl
@[simp] theorem State.record_host (v : Word) (s : State) : (s.record v).host = s.host := rfl
@[simp] theorem State.record_rdata (v : Word) (s : State) : (s.record v).rdata = s.rdata := rfl
@[simp] theorem State.record_irq (v : Word) (s : State) : (s.record v).irq = s.irq := rfl
@[simp] theorem State.record_recorded (v : Word) (s : State) : (s.record v).recorded = s.recorded ++ [v] := rfl
@[simp] theorem State.recordRead_engine (acc : Access) (s : State) : (s.recordRead acc).engine = s.engine := by
  cases acc <;> rfl
@[simp] theorem State.recordRead_rstN (acc : Access) (s : State) : (s.recordRead acc).rstN = s.rstN := by
  cases acc <;> rfl
@[simp] theorem State.recordRead_host (acc : Access) (s : State) : (s.recordRead acc).host = s.host := by
  cases acc <;> rfl
@[simp] theorem State.recordRead_rdata (acc : Access) (s : State) : (s.recordRead acc).rdata = s.rdata := by
  cases acc <;> rfl
@[simp] theorem State.recordRead_irq (acc : Access) (s : State) : (s.recordRead acc).irq = s.irq := by
  cases acc <;> rfl

/-- Two changes of the engine in a row are one. -/
@[simp] theorem State.onEngine_onEngine (f g : Engine → Engine) (s : State) :
    (s.onEngine f).onEngine g = s.onEngine (fun e => g (f e)) := rfl

@[simp] theorem Engine.busy_idle {e : Engine} (h : e.phase = .idle) : e.busy = false := by
  simp [Engine.busy, h]

@[simp] theorem Engine.busy_of_ne {e : Engine} (h : e.phase ≠ .idle) : e.busy = true := by
  simp [Engine.busy, h]

theorem Engine.busy_eq_true {e : Engine} : e.busy = true ↔ e.phase ≠ .idle := by
  simp [Engine.busy]

theorem Engine.busy_eq_false {e : Engine} : e.busy = false ↔ e.phase = .idle := by
  simp [Engine.busy]

end Sys2Proof.Machine
end

