-- ==== Sys2Proof/Laws/Operands.lean ====
section
/-! SUPPORT. The laws of the operand forms: packing and unpacking undo each other (R52), the words of
the round-key RAM after a group is written (R31), and the address map read backwards (R51). -/

namespace Sys2Proof.Machine

/-- Bit `i` of a packed Word (R52): `w[0]` is in bits 31:24. -/
theorem b2w_getLsbD (w : ByteWord) (i : Nat) :
    (b2w w).getLsbD i =
      if i < 8 then w.b3.getLsbD i
      else if i < 16 then w.b2.getLsbD (i - 8)
      else if i < 24 then w.b1.getLsbD (i - 16)
      else w.b0.getLsbD (i - 24) := by
  change (w.b0 ++ w.b1 ++ w.b2 ++ w.b3 : BitVec (8 + 8 + 8 + 8)).getLsbD i = _
  simp only [BitVec.getLsbD_append]
  by_cases h1 : i < 8 <;> by_cases h2 : i < 16 <;> by_cases h3 : i < 24 <;>
    simp [h1, h2, h3, show i - 8 < 8 ↔ i < 16 by omega, Nat.sub_sub] <;> omega

@[simp] theorem w2b_b2w (w : ByteWord) : w2b (b2w w) = w := by
  obtain ⟨a, b, c, d⟩ := w
  simp only [w2b, ByteWord.mk.injEq]
  refine ⟨?_, ?_, ?_, ?_⟩ <;>
  · apply BitVec.eq_of_getLsbD_eq
    intro i hi
    simp only [BitVec.getLsbD_extractLsb', b2w_getLsbD, hi]
    simp
    split_ifs <;> first | omega | rfl

@[simp] theorem b2w_w2b (w : Word) : b2w (w2b w) = w := by
  apply BitVec.eq_of_getLsbD_eq
  intro i hi
  rw [b2w_getLsbD]
  simp only [w2b, BitVec.getLsbD_extractLsb']
  split_ifs with h1 h2 h3
  · simp [h1]
  · rw [show 8 + (i - 8) = i by omega]; simp; omega
  · rw [show 16 + (i - 16) = i by omega]; simp; omega
  · rw [show 24 + (i - 24) = i by omega]; simp; omega

@[simp] theorem blockOf_packed (s : Block) : blockOf (packed s) = s := by
  simp [blockOf, packed]

@[simp] theorem packed_blockOf (g : Regs4) : packed (blockOf g) = g := by
  simp [blockOf, packed]

theorem b2w_injective {v w : ByteWord} (h : b2w v = b2w w) : v = w := by
  rw [← w2b_b2w v, h, w2b_b2w]

theorem w2b_injective {v w : Word} (h : w2b v = w2b w) : v = w := by
  rw [← b2w_w2b v, h, b2w_w2b]

/-- Packing turns the exclusive-or of Words into that of registers. -/
theorem b2w_xor (v w : ByteWord) : b2w (v.xor w) = b2w v ^^^ b2w w := by
  apply BitVec.eq_of_getLsbD_eq
  intro i hi
  simp only [BitVec.getLsbD_xor, b2w_getLsbD, ByteWord.xor]
  split_ifs <;> simp

theorem w2b_xor (v w : Word) : w2b (v ^^^ w) = (w2b v).xor (w2b w) := by
  apply b2w_injective
  rw [b2w_xor, b2w_w2b, b2w_w2b, b2w_w2b]

/-- Word `i` of RK after the group `n` is written. -/
theorem rkWord_setGroup (rk : RoundKeys) (n : Nat) (g : Regs4) (i : Nat) (hn : n ≤ 10) :
    rkWord (rkSetGroup rk n g) i =
      if i = 4 * n then g.r0 else if i = 4 * n + 1 then g.r1
      else if i = 4 * n + 2 then g.r2 else if i = 4 * n + 3 then g.r3 else rkWord rk i := by
  simp only [rkWord, rkSetGroup, Vector.getElem?_setIfInBounds]
  split_ifs <;> first | omega | simp

/-- A group that was just written reads as written. -/
@[simp] theorem rkGroup_setGroup_same (rk : RoundKeys) (n : Nat) (g : Regs4) (hn : n ≤ 10) :
    rkGroup (rkSetGroup rk n g) n = g := by
  simp [rkGroup, rkWord_setGroup _ _ _ _ hn]

/-- The other groups keep their words. -/
theorem rkGroup_setGroup_ne (rk : RoundKeys) (n m : Nat) (g : Regs4) (hn : n ≤ 10) (h : m ≠ n) :
    rkGroup (rkSetGroup rk n g) m = rkGroup rk m := by
  simp only [rkGroup, rkWord_setGroup _ _ _ _ hn]
  simp only [Regs4.mk.injEq]
  refine ⟨?_, ?_, ?_, ?_⟩ <;> split_ifs <;> first | omega | rfl

@[simp] theorem rkWord_replicate (i : Nat) : rkWord (Vector.replicate 44 (0 : Word)) i = 0 := by
  simp only [rkWord, Vector.getElem?_replicate]
  split_ifs <;> rfl

/-- RK[i] of an index in range is the vector's own element. -/
theorem rkWord_eq_getElem (rk : RoundKeys) (i : Nat) (h : i < 44) : rkWord rk i = rk[i] := by
  simp [rkWord, h]

/-- The map of R51 read at a register's own address gives that register. -/
@[simp] theorem regAt_addr (r : RegName) : regAt r.addr = some r := by
  cases r with
  | key i => revert i; decide
  | din i => revert i; decide
  | dout i => revert i; decide
  | rk i => revert i; decide
  | _ => decide

/-- The low two address bits play no part (R55). -/
@[simp] theorem regAt_aligned (addr : Addr) : regAt (addr &&& 0x1FC) = regAt addr := by
  rw [regAt, BitVec.and_assoc]
  rfl

@[simp] theorem access_pins (acc : Access) : acc.pins.access = acc := by
  cases acc <;> rfl

end Sys2Proof.Machine
end

