-- ==== Sys2Proof/Laws/Ops.lean ====
section
/-! SUPPORT. What the shared operations can do, said once: acceptance and rejection of a command, exec
of every instruction, the host's access at an edge, and the whole step. Later proofs cite these
lemmas and do not unfold `exec`, `cycle` or `step`. -/

namespace Sys2Proof.Machine

theorem accept_idle {s : State} (h : s.engine.phase = .idle) (v : Option Variant)
    (f : Engine → Engine) :
    accept v f s = .next (s.onEngine fun e => f (e.clearDone.warnFor v)) := by
  simp [accept, h]

theorem accept_busy {s : State} (h : s.engine.phase ≠ .idle) (v : Option Variant)
    (f : Engine → Engine) : accept v f s = reject .cmdWhileBusy s := by
  simp [accept, h]

theorem acceptSingle_idle {s : State} (h : s.engine.phase = .idle) (v : Option Variant)
    (f : Engine → Engine) :
    acceptSingle v f s = .next (s.onEngine fun e => (f (e.clearDone.warnFor v)).setDone) :=
  accept_idle h v _

theorem acceptMulti_idle {s : State} (h : s.engine.phase = .idle) (op : BitVec 8) (v : Variant) :
    acceptMulti op v s =
      .next (s.onEngine fun e => (e.clearDone.warnFor (some v)).latch op v) :=
  accept_idle h _ _

/-- A command's own effect on the engine, after DONE is cleared and WARN is set (R194, R195). -/
def effectOf : Instr → Engine → Engine
  | .nop, e => e.setDone
  | .expand v, e => e.latch 0x01 v
  | .encrypt v, e => e.latch 0x02 v
  | .decrypt v, e => e.latch 0x03 v
  | .subbytes v, e => (e.writeDout (subBytes v (blockOf e.din))).setDone
  | .invsubbytes v, e => (e.writeDout (invSubBytes v (blockOf e.din))).setDone
  | .shiftrows, e => (e.writeDout (shiftRows (blockOf e.din))).setDone
  | .invshiftrows, e => (e.writeDout (invShiftRows (blockOf e.din))).setDone
  | .mixcolumns, e => (e.writeDout (mixColumns (blockOf e.din))).setDone
  | .invmixcolumns, e => (e.writeDout (invMixColumns (blockOf e.din))).setDone
  | .addroundkey, e => (e.writeDout (addRoundKey (blockOf e.din) (blockOf e.key))).setDone
  | .gfdouble a, e => (e.writeBres (gfDouble a)).setDone
  | .gfmul a b, e => (e.writeBres (gfMul a b)).setDone
  | .sbox v a, e => (e.writeBres (subByte v a)).setDone
  | .invsbox v a, e => (e.writeBres (invSubByte v a)).setDone
  | .clear, e => e.erase.setDone

/-- exec is acceptance with the command's variant and effect (R193). -/
theorem exec_eq_accept (i : Instr) (s : State) :
    exec i s = accept i.variant (effectOf i) s := by
  cases i <;> rfl

/-- The engine after the acceptance edge of a command (R193–R195). -/
def acceptedEngine (i : Instr) (e : Engine) : Engine :=
  effectOf i (e.clearDone.warnFor i.variant)

/-- exec of every instruction on an idle engine: a next state with only the engine changed. -/
theorem exec_idle {s : State} (h : s.engine.phase = .idle) (i : Instr) :
    exec i s = .next (s.onEngine (acceptedEngine i)) := by
  rw [exec_eq_accept, accept_idle h]
  rfl

/-- exec of every instruction on a busy engine: the rejection CmdWhileBusy (R57, R244). -/
theorem exec_busy {s : State} (h : s.engine.phase ≠ .idle) (i : Instr) :
    exec i s = reject .cmdWhileBusy s := by
  rw [exec_eq_accept, accept_busy h]

/-- The engine after a command word is written to CMD (R192); a busy engine rejects it. -/
def commandedEngine (d : Word) (e : Engine) : Engine :=
  match decode d with
  | .reject c => e.raise c
  | .legal i => if e.busy then e.raise .cmdWhileBusy else acceptedEngine i e

theorem commandWrite_eq (d : Word) (s : State) :
    commandWrite d s = .next (s.onEngine (commandedEngine d)) := by
  unfold commandWrite commandedEngine
  cases decode d with
  | reject c => rfl
  | legal i =>
    by_cases h : s.engine.phase = .idle
    · simp [exec_idle h, State.onEngine, h]
    · simp [exec_busy h, reject, State.onEngine, h]

/-- The engine after the host's access at an edge (R57, R60), given the engine `e` after the
sequencer's step. -/
def accessEngine (acc : Access) (busy0 doneSet : Bool) (e : Engine) : Engine :=
  match acc with
  | .noAccess => e
  | .read _ => e
  | .write addr d =>
    match regAt addr with
    | some .cmd => if busy0 then e.raise .cmdWhileBusy else commandedEngine d e
    | some .status => e.statusWrite doneSet d
    | some r => e.writePlain r d
    | none => e

/-- The host's access always gives a next state, and it changes nothing but the engine. -/
theorem hostAccess_eq (acc : Access) (busy0 doneSet : Bool) (s : State) :
    hostAccess acc busy0 doneSet s = .next (s.onEngine (accessEngine acc busy0 doneSet)) := by
  cases acc with
  | noAccess => rfl
  | read _ => rfl
  | write addr d =>
    cases hr : regAt addr with
    | none => simp [hostAccess, hostWrite, accessEngine, hr, State.onEngine]
    | some r =>
      cases r <;> try simp [hostAccess, hostWrite, accessEngine, hr, State.onEngine]
      cases busy0
      · simp [commandWrite_eq, State.onEngine]
      · simp [reject, State.onEngine]

/-- STATUS bit by bit (R26): BUSY, DONE, ERR, WARN, ERRCODE in 7:4, and 0 above. -/
theorem statusWord_getLsbD (e : Engine) (i : Nat) :
    e.statusWord.getLsbD i =
      if i = 0 then e.busy else if i = 1 then e.done else if i = 2 then e.err
      else if i = 3 then e.warn else if i < 8 then e.errcode.getLsbD (i - 4) else false := by
  unfold Engine.statusWord
  rw [BitVec.getLsbD_setWidth]
  simp only [BitVec.getLsbD_append]
  rcases i with _ | _ | _ | _ | i
  · simp
  · simp
  · simp
  · simp
  · have hn : ∀ j : Nat, 4 ≤ j → e.errcode.getLsbD j = false := fun j hj =>
      BitVec.getLsbD_of_ge _ _ hj
    by_cases h8 : i < 4
    · simp [h8, show i + 4 < 32 by omega]; omega
    · simp [hn i (by omega)]

/-- Bit 0 of STATUS is BUSY (R26). -/
@[simp] theorem statusWord_bit0 (e : Engine) : e.statusWord[0] = e.busy := by
  have := statusWord_getLsbD e 0
  simpa using this

/-- The events left after the next step: WAIT stays while it reads BUSY = 1 (R91). -/
def State.hostAfter (s : State) : List HostEvent :=
  match s.host with
  | [] => []
  | .clock _ :: rest => rest
  | .wait :: rest => if s.rstN && s.engine.busy then .wait :: rest else rest
  | .rstFall :: rest => rest
  | .rstRise :: rest => rest

/-- What the script has recorded after the next step (R90, R91). -/
def State.recordedAfter (s : State) : List Word :=
  match s.host with
  | [] => s.recorded
  | .clock p :: _ =>
    match p.access with
    | .read _ => s.recorded ++ [outRdata p.access s]
    | .noAccess => s.recorded
    | .write _ _ => s.recorded
  | .wait :: _ =>
    if s.rstN && s.engine.busy then s.recorded
    else s.recorded ++ [outRdata (.read RegName.status.addr) s]
  | .rstFall :: _ => s.recorded
  | .rstRise :: _ => s.recorded

/-- The outputs and the host's side after an edge, with the engine still to be filled in. -/
def State.afterEdge (s : State) (e : Engine) : State where
  engine := e
  rstN := s.rstN
  host := s.hostAfter
  rdata := outRdata s.access s
  irq := outIrq s
  recorded := s.recordedAfter

theorem readValue_status (e : Engine) : e.readValue RegName.status.addr = e.statusWord := by
  simp [Engine.readValue, Engine.readReg]

/-- The step at any clock edge, before the engine's own part is worked out. -/
theorem step_atEdge {s : State} (h : s.atEdge) :
    step s = clockEdge s.access { s.afterEdge s.engine with engine := s.engine } := by
  unfold step nextEvent State.atEdge at *
  rcases hh : s.host with _ | ⟨ev, rest⟩
  · simp [clockStep, State.access, State.afterEdge, hh, State.hostAfter, State.recordedAfter,
      State.outputs, State.recordRead, State.withHost]
  · cases ev with
    | clock p =>
      cases ha : p.access <;>
      simp [clockStep, State.access, State.afterEdge, hh, State.hostAfter, State.recordedAfter,
        State.outputs, State.recordRead, State.withHost, ha, State.record]
    | wait =>
      cases hr : s.rstN <;> cases hb : s.engine.busy <;>
      simp [waitStep, State.access, State.afterEdge, hh, State.hostAfter, State.recordedAfter,
        State.outputs, State.withHost, outRdata, hr, readValue_status, hb, State.record]
    | rstFall => simp [hh, HostEvent.isEdge] at h
    | rstRise => simp [hh, HostEvent.isEdge] at h

/-- The step at an edge where Cycle is applied (R60): the sequencer's step, then the host's access. -/
theorem step_atCycle {s : State} (h : s.atCycle) {e : Engine} {b : Bool}
    (hs : seqStep s.engine = .ok (e, b)) :
    step s = .next (s.afterEdge (accessEngine s.access s.engine.busy b e)) := by
  rw [step_atEdge h.2]
  simp [clockEdge, State.afterEdge, h.1, cycle, hs, hostAccess_eq, State.onEngine]

/-- The step at an edge where the sequencer has no rule. -/
theorem step_fault {s : State} (h : s.atCycle) {f : Fault} (hs : seqStep s.engine = .error f) :
    step s = .fault f := by
  rw [step_atEdge h.2]
  simp [clockEdge, State.afterEdge, h.1, cycle, hs]

/-- The step at an edge in reset (R270 (b)). -/
theorem step_inReset {s : State} (h : s.atEdge) (hr : s.rstN = false) :
    step s = .next (s.afterEdge Engine.reset) := by
  rw [step_atEdge h]
  simp [clockEdge, State.afterEdge, hr]

theorem step_rstFall {s : State} {rest : List HostEvent} (h : s.host = .rstFall :: rest) :
    step s = resetFall rest s := by
  simp [step, nextEvent, h]

theorem step_rstRise {s : State} {rest : List HostEvent} (h : s.host = .rstRise :: rest) :
    step s = resetRise rest s := by
  simp [step, nextEvent, h]

/-- Every step is one of: a clock edge, a fall of `rst_n`, a rise of `rst_n`. -/
theorem atEdge_or_reset (s : State) :
    s.atEdge ∨ (∃ rest, s.host = .rstFall :: rest) ∨ (∃ rest, s.host = .rstRise :: rest) := by
  unfold State.atEdge
  rcases s.host with _ | ⟨ev, rest⟩
  · exact .inl trivial
  · cases ev
    · exact .inl rfl
    · exact .inl rfl
    · exact .inr (.inl ⟨rest, rfl⟩)
    · exact .inr (.inr ⟨rest, rfl⟩)

/-- Everything a step can do, said once: if it answers `next t`, one of these four holds. -/
theorem step_cases {s t : State} (h : step s = .next t) :
    (s.atCycle ∧ ∃ e b, seqStep s.engine = .ok (e, b) ∧
      t = s.afterEdge (accessEngine s.access s.engine.busy b e)) ∨
    (s.atEdge ∧ s.rstN = false ∧ t = s.afterEdge Engine.reset) ∨
    (∃ rest, s.host = .rstFall :: rest ∧ resetFall rest s = .next t) ∨
    (∃ rest, s.host = .rstRise :: rest ∧ resetRise rest s = .next t) := by
  rcases atEdge_or_reset s with he | ⟨rest, hf⟩ | ⟨rest, hf⟩
  · cases hr : s.rstN with
    | true =>
      have hc : s.atCycle := ⟨hr, he⟩
      cases hs : seqStep s.engine with
      | error f => rw [step_fault hc hs] at h; cases h
      | ok p =>
        rw [step_atCycle hc hs] at h
        cases h
        exact .inl ⟨hc, p.1, p.2, rfl, rfl⟩
    | false =>
      rw [step_inReset he hr] at h
      cases h
      exact .inr (.inl ⟨he, rfl, rfl⟩)
  · exact .inr (.inr (.inl ⟨rest, hf, by rw [← step_rstFall hf, h]⟩))
  · exact .inr (.inr (.inr ⟨rest, hf, by rw [← step_rstRise hf, h]⟩))

/-- A sequencer step in IDLE does nothing (R60). -/
@[simp] theorem seqStep_idle {e : Engine} (h : e.phase = .idle) : seqStep e = .ok (e, false) := by
  simp [seqStep, h, goesOn]

/-! What the commands do to the flags, and what an acceptance or a host write in the next step is. -/

theorem warnFor_none (e : Engine) : e.warnFor none = e := rfl

/-- WARN at the acceptance of a command that uses VAR (R193, R249). -/
theorem warnFor_some (v : Variant) (e : Engine) :
    e.warnFor (some v) = { e with warn := e.warn || decide (v = .k128) } := by
  cases v <;> simp [Engine.warnFor]

/-- Acceptance does not touch the error flags (R193). -/
theorem acceptedEngine_err (i : Instr) (e : Engine) :
    (acceptedEngine i e).err = e.err ∧ (acceptedEngine i e).errcode = e.errcode := by
  cases i <;> simp [acceptedEngine, effectOf, Instr.variant]

theorem acceptedEngine_warn (i : Instr) (e : Engine) :
    (acceptedEngine i e).warn = (e.warn || decide (i.variant = some .k128)) := by
  cases i <;> simp [acceptedEngine, effectOf, Instr.variant, warnFor_some, warnFor_none]

/-- A single-edge command completes at its acceptance edge; a multi-step command does not. -/
theorem acceptedEngine_done (i : Instr) (e : Engine) :
    (acceptedEngine i e).done = !i.multiStep := by
  cases i <;> simp [acceptedEngine, effectOf, Instr.variant, Instr.multiStep]

/-- A write to a register is an access at an edge where Cycle is applied. -/
theorem writesReg_access {s : State} {r : RegName} {d : Word} (h : s.writesReg r d) :
    s.atCycle ∧ ∃ a, regAt a = some r ∧ s.access = .write a d := by
  obtain ⟨a, h1, h2, h3⟩ := h
  exact ⟨h2, a, h1, h3⟩

/-- The step at the acceptance edge of a command (R192, R193): always a next state. -/
theorem step_accepts {s : State} {i : Instr} (h : s.accepts i) :
    step s = .next (s.afterEdge (acceptedEngine i s.engine)) := by
  obtain ⟨hp, d, hd, hw⟩ := h
  obtain ⟨hc, a, hreg, hacc⟩ := writesReg_access hw
  rw [step_atCycle hc (seqStep_idle hp)]
  simp [hacc, accessEngine, hreg, hp, commandedEngine, hd]

end Sys2Proof.Machine
end

