-- ==== Sys2Proof/Laws/PerInstr.lean ====
section
/-! SUPPORT. A law of the syntax, instruction by instruction: an instruction's word lies in its row of
opcode_table.json. -/

namespace Sys2Proof.Laws.EncodesInRow

/-- The word of `i`, under the mask of the instruction's row, is the row's pattern (R82, R92). -/
def Statement (i : Instr) : Prop := encode i &&& (tableRow i).mask = (tableRow i).pattern

/-- Where a mask keeps no operand bit, the row's pattern is what is left of the word. -/
theorem of_bits {w m p : Word} (h : ∀ k < 32, (w.getLsbD k && m.getLsbD k) = p.getLsbD k) :
    w &&& m = p := by
  apply BitVec.eq_of_getLsbD_eq
  intro k hk
  rw [BitVec.getLsbD_and]
  exact h k hk

theorem nop : Statement .nop := rfl
theorem expand (v : Variant) : Statement (.expand v) := by cases v <;> rfl
theorem encrypt (v : Variant) : Statement (.encrypt v) := by cases v <;> rfl
theorem decrypt (v : Variant) : Statement (.decrypt v) := by cases v <;> rfl
theorem subbytes (v : Variant) : Statement (.subbytes v) := by cases v <;> rfl
theorem invsubbytes (v : Variant) : Statement (.invsubbytes v) := by cases v <;> rfl
theorem shiftrows : Statement .shiftrows := rfl
theorem invshiftrows : Statement .invshiftrows := rfl
theorem mixcolumns : Statement .mixcolumns := rfl
theorem invmixcolumns : Statement .invmixcolumns := rfl
theorem addroundkey : Statement .addroundkey := rfl

theorem gfdouble (a : Byte) : Statement (.gfdouble a) := by
  apply of_bits
  intro k hk
  rw [encode_eq_word, Command.word_getLsbD]
  interval_cases k <;> simp [tableRow, Command.ofInstr]

theorem gfmul (a b : Byte) : Statement (.gfmul a b) := by
  apply of_bits
  intro k hk
  rw [encode_eq_word, Command.word_getLsbD]
  interval_cases k <;> simp [tableRow, Command.ofInstr]

theorem sbox (v : Variant) (a : Byte) : Statement (.sbox v a) := by
  apply of_bits
  intro k hk
  rw [encode_eq_word, Command.word_getLsbD]
  interval_cases k <;> simp [tableRow, Command.ofInstr]

theorem invsbox (v : Variant) (a : Byte) : Statement (.invsbox v a) := by
  apply of_bits
  intro k hk
  rw [encode_eq_word, Command.word_getLsbD]
  interval_cases k <;> simp [tableRow, Command.ofInstr]

theorem clear : Statement .clear := rfl

end Sys2Proof.Laws.EncodesInRow
end

