-- ==== Sys2Proof/Laws/Sequencer.lean ====
section
/-! SUPPORT. The sequencer's steps, one lemma per row of R201–R208, and what a step and the host's
access leave unchanged (R198, R244). -/

namespace Sys2Proof.Machine

@[simp] theorem ofCode_code (v : Variant) : Variant.ofCode v.code = some v := by
  cases v <;> rfl

/-- The codes 0..5 name a variant, and 6 and 7 do not (R83). -/
theorem ofCode_isSome (c : BitVec 3) : (Variant.ofCode c).isSome = decide (c ≤ 5) := by
  revert c; decide

theorem code_of_ofCode {c : BitVec 3} {v : Variant} (h : Variant.ofCode c = some v) :
    v.code = c := by
  revert v h; revert c; decide

theorem code_le (v : Variant) : v.code ≤ 5 := by
  cases v <;> decide

/-- The engine after the KX step of round `r` (R201), before RND and PHASE move. -/
def kxEngine (v : Variant) (r : Nat) (e : Engine) : Engine :=
  { e with rk := rkSetGroup e.rk r (nextRoundKey v r (rkGroup e.rk (r - 1))) }

theorem seqStep_kx_mid {e : Engine} {v : Variant} (hp : e.phase = .kx)
    (hv : Variant.ofCode e.lvar = some v) (h1 : 1 ≤ e.rnd.toNat) (h2 : e.rnd.toNat < 10) :
    seqStep e = .ok ({ kxEngine v e.rnd.toNat e with rnd := e.rnd + 1 }, false) := by
  simp [seqStep, hp, kxStep, withLvar, hv, goesOn, kxEngine, h2, show e.rnd.toNat ≠ 0 by omega,
    show ¬ 10 < e.rnd.toNat by omega]

theorem seqStep_kx_last {e : Engine} {v : Variant} (hp : e.phase = .kx)
    (hv : Variant.ofCode e.lvar = some v) (h : e.rnd = 10) :
    seqStep e = kxLast (kxEngine v 10 e) := by
  simp [seqStep, hp, kxStep, withLvar, hv, kxEngine, h]

theorem seqStep_enc_first {e : Engine} (hp : e.phase = .enc) (h : e.rnd = 0) :
    seqStep e = .ok ({ e with st := addRoundKey e.st (roundKeyRK e.rk 0), rnd := 1 }, false) := by
  simp [seqStep, hp, encStep, goesOn, h]

theorem seqStep_enc_mid {e : Engine} {v : Variant} (hp : e.phase = .enc)
    (hv : Variant.ofCode e.lvar = some v) (h1 : 1 ≤ e.rnd.toNat) (h2 : e.rnd.toNat ≤ 9) :
    seqStep e = .ok ({ e with st := encRound v (roundKeyRK e.rk e.rnd.toNat) e.st,
                              rnd := e.rnd + 1 }, false) := by
  simp only [seqStep, hp, encStep, withLvar, hv, goesOn, h2, show e.rnd.toNat ≠ 0 by omega,
    if_false, if_true]

theorem seqStep_enc_last {e : Engine} {v : Variant} (hp : e.phase = .enc)
    (hv : Variant.ofCode e.lvar = some v) (h : e.rnd = 10) :
    seqStep e =
      (let b := encLastRound v (roundKeyRK e.rk 10) e.st
       .ok (({ e with st := b, dout := packed b } : Engine).complete, true)) := by
  simp [seqStep, hp, encStep, withLvar, hv, completes, h]

theorem seqStep_dec_first {e : Engine} (hp : e.phase = .dec) (h : e.rnd = 10) :
    seqStep e = .ok ({ e with st := addRoundKey e.st (roundKeyRK e.rk 10), rnd := 9 }, false) := by
  simp [seqStep, hp, decStep, goesOn, h]

theorem seqStep_dec_mid {e : Engine} {v : Variant} (hp : e.phase = .dec)
    (hv : Variant.ofCode e.lvar = some v) (h1 : 1 ≤ e.rnd.toNat) (h2 : e.rnd.toNat ≤ 9) :
    seqStep e = .ok ({ e with st := decRound v (roundKeyRK e.rk e.rnd.toNat) e.st,
                              rnd := e.rnd - 1 }, false) := by
  simp only [seqStep, hp, decStep, withLvar, hv, goesOn, h2, show e.rnd.toNat ≠ 0 by omega,
    show e.rnd.toNat ≠ 10 by omega, if_false, if_true]

theorem seqStep_dec_last {e : Engine} {v : Variant} (hp : e.phase = .dec)
    (hv : Variant.ofCode e.lvar = some v) (h : e.rnd = 0) :
    seqStep e =
      (let b := decLastRound v (roundKeyRK e.rk 0) e.st
       .ok (({ e with st := b, dout := packed b } : Engine).complete, true)) := by
  simp [seqStep, hp, decStep, withLvar, hv, completes, h]

/-- The rows of R196 and R201–R208: `StepRow v e e' b` says that the step of an engine `e` with the
variant `v` in LVAR leaves the engine `e'` and answers `doneSet = b`. -/
inductive StepRow (v : Variant) (e : Engine) : Engine → Bool → Prop
  | idle (hp : e.phase = .idle) : StepRow v e e false
  | kxMid (hp : e.phase = .kx) (h1 : 1 ≤ e.rnd.toNat) (h2 : e.rnd.toNat < 10) :
      StepRow v e { kxEngine v e.rnd.toNat e with rnd := e.rnd + 1 } false
  | kxExpand (hp : e.phase = .kx) (hr : e.rnd = 10) (hl : e.lop = 0x01) :
      StepRow v e (kxEngine v 10 e).complete true
  | kxEncrypt (hp : e.phase = .kx) (hr : e.rnd = 10) (hl : e.lop = 0x02) :
      StepRow v e { kxEngine v 10 e with phase := .enc, rnd := 0 } false
  | kxDecrypt (hp : e.phase = .kx) (hr : e.rnd = 10) (hl : e.lop = 0x03) :
      StepRow v e { kxEngine v 10 e with phase := .dec, rnd := 10 } false
  | encFirst (hp : e.phase = .enc) (hr : e.rnd = 0) :
      StepRow v e { e with st := addRoundKey e.st (roundKeyRK e.rk 0), rnd := 1 } false
  | encMid (hp : e.phase = .enc) (h1 : 1 ≤ e.rnd.toNat) (h2 : e.rnd.toNat ≤ 9) :
      StepRow v e { e with st := encRound v (roundKeyRK e.rk e.rnd.toNat) e.st, rnd := e.rnd + 1 }
        false
  | encLast (hp : e.phase = .enc) (hr : e.rnd = 10) :
      StepRow v e ({ e with st := encLastRound v (roundKeyRK e.rk 10) e.st,
                            dout := packed (encLastRound v (roundKeyRK e.rk 10) e.st) } :
                     Engine).complete true
  | decFirst (hp : e.phase = .dec) (hr : e.rnd = 10) :
      StepRow v e { e with st := addRoundKey e.st (roundKeyRK e.rk 10), rnd := 9 } false
  | decMid (hp : e.phase = .dec) (h1 : 1 ≤ e.rnd.toNat) (h2 : e.rnd.toNat ≤ 9) :
      StepRow v e { e with st := decRound v (roundKeyRK e.rk e.rnd.toNat) e.st, rnd := e.rnd - 1 }
        false
  | decLast (hp : e.phase = .dec) (hr : e.rnd = 0) :
      StepRow v e ({ e with st := decLastRound v (roundKeyRK e.rk 0) e.st,
                            dout := packed (decLastRound v (roundKeyRK e.rk 0) e.st) } :
                     Engine).complete true

/-- LVAR names a variant in every state of the invariant (R42 (e)). -/
theorem Engine.Inv.variant {e : Engine} (hi : e.Inv) : ∃ v, Variant.ofCode e.lvar = some v := by
  have h := ofCode_isSome e.lvar
  rw [decide_eq_true hi.variantCode] at h
  exact Option.isSome_iff_exists.mp h

theorem rnd_eq_ten {r : BitVec 4} (h : r.toNat = 10) : r = 10 := by
  revert r; decide

theorem rnd_eq_zero {r : BitVec 4} (h : r.toNat = 0) : r = 0 := by
  revert r; decide

theorem rnd_le_ten {r : BitVec 4} (h : r ≤ 10) : r.toNat ≤ 10 := h

/-- Everything a step can do, said once: in a state of the invariant (R42) it answers one of the rows
of R201–R208. -/
theorem seqStep_row {e : Engine} (hi : e.Inv) {v : Variant} (hv : Variant.ofCode e.lvar = some v) :
    ∃ e' b, seqStep e = .ok (e', b) ∧ StepRow v e e' b := by
  rcases hp : e.phase with _ | _ | _ | _
  · exact ⟨_, _, seqStep_idle hp, .idle hp⟩
  · obtain ⟨h1, h2, h3⟩ := hi.kxRound hp
    have h1 : 1 ≤ e.rnd.toNat := h1
    have h2 := rnd_le_ten h2
    by_cases hr : e.rnd.toNat < 10
    · exact ⟨_, _, seqStep_kx_mid hp hv h1 hr, .kxMid hp h1 hr⟩
    · have hr : e.rnd = 10 := rnd_eq_ten (by omega)
      have hl := seqStep_kx_last hp hv hr
      rcases h3 with h | h | h
      · exact ⟨_, _, by rw [hl]; simp [kxLast, kxEngine, h, completes], .kxExpand hp hr h⟩
      · exact ⟨_, _, by rw [hl]; simp [kxLast, kxEngine, h, goesOn], .kxEncrypt hp hr h⟩
      · exact ⟨_, _, by rw [hl]; simp [kxLast, kxEngine, h, goesOn], .kxDecrypt hp hr h⟩
  · have h1 := rnd_le_ten (hi.encRound hp).1
    by_cases h0 : e.rnd.toNat = 0
    · exact ⟨_, _, seqStep_enc_first hp (rnd_eq_zero h0), .encFirst hp (rnd_eq_zero h0)⟩
    · by_cases h9 : e.rnd.toNat ≤ 9
      · exact ⟨_, _, seqStep_enc_mid hp hv (by omega) h9, .encMid hp (by omega) h9⟩
      · have h10 : e.rnd = 10 := rnd_eq_ten (by omega)
        exact ⟨_, _, seqStep_enc_last hp hv h10, .encLast hp h10⟩
  · have h1 := rnd_le_ten (hi.decRound hp).1
    by_cases h0 : e.rnd.toNat = 0
    · exact ⟨_, _, seqStep_dec_last hp hv (rnd_eq_zero h0), .decLast hp (rnd_eq_zero h0)⟩
    · by_cases h9 : e.rnd.toNat ≤ 9
      · exact ⟨_, _, seqStep_dec_mid hp hv (by omega) h9, .decMid hp (by omega) h9⟩
      · have h10 : e.rnd = 10 := rnd_eq_ten (by omega)
        exact ⟨_, _, seqStep_dec_first hp h10, .decFirst hp h10⟩

/-- What a step leaves unchanged, in every state: KEY, DIN, BRES, ERR, WARN, ERRCODE, CTRL, LOP and
LVAR (R198, R200–R208). -/
theorem seqStep_frame {e e' : Engine} {b : Bool} (h : seqStep e = .ok (e', b)) :
    e'.key = e.key ∧ e'.din = e.din ∧ e'.bres = e.bres ∧ e'.err = e.err ∧ e'.warn = e.warn ∧
    e'.errcode = e.errcode ∧ e'.ieDone = e.ieDone ∧ e'.ieErr = e.ieErr ∧ e'.lop = e.lop ∧
    e'.lvar = e.lvar := by
  simp only [seqStep, kxStep, kxLast, encStep, decStep, withLvar, goesOn, completes] at h
  split at h
  all_goals repeat' split at h
  all_goals first
    | cases h; simp
    | cases h

/-- DOUT, DONE, PHASE and `doneSet` after a step: a step that completes sets DONE and goes to IDLE,
any other keeps DONE and DOUT and, from a busy phase, stays busy (R200–R208). -/
theorem seqStep_completion {e e' : Engine} {b : Bool} (h : seqStep e = .ok (e', b)) :
    (b = true → e.phase ≠ .idle ∧ e'.phase = .idle ∧ e'.rnd = 0 ∧ e'.done = true) ∧
    (b = false → e'.done = e.done ∧ e'.dout = e.dout ∧ (e'.phase = .idle ↔ e.phase = .idle)) := by
  simp only [seqStep, kxStep, kxLast, encStep, decStep, withLvar, goesOn, completes] at h
  split at h
  all_goals repeat' split at h
  all_goals first
    | cases h; simp_all
    | cases h

/-- While BUSY = 1 before the edge, the host's access changes only KEY, DIN, CTRL and the flags, and
not DONE when the step has just set it (R198, R57, R58). -/
theorem accessEngine_busy_frame (acc : Access) (b : Bool) (e : Engine) :
    (accessEngine acc true b e).dout = e.dout ∧ (accessEngine acc true b e).bres = e.bres ∧
    (accessEngine acc true b e).rk = e.rk ∧ (accessEngine acc true b e).st = e.st ∧
    (accessEngine acc true b e).phase = e.phase ∧ (accessEngine acc true b e).rnd = e.rnd ∧
    (accessEngine acc true b e).lop = e.lop ∧ (accessEngine acc true b e).lvar = e.lvar ∧
    (b = true → (accessEngine acc true b e).done = e.done) := by
  cases acc with
  | noAccess => simp [accessEngine]
  | read _ => simp [accessEngine]
  | write addr d =>
    cases hr : regAt addr with
    | none => simp [accessEngine, hr]
    | some r =>
      cases r <;> simp [accessEngine, hr]
      rintro rfl
      simp

/-- The invariant of R42 speaks only of these fields. -/
theorem Engine.Inv.congr {e f : Engine} (h : e.Inv) (h1 : f.phase = e.phase) (h2 : f.rnd = e.rnd)
    (h3 : f.lop = e.lop) (h4 : f.lvar = e.lvar) (h5 : f.err = false → f.errcode = 0)
    (h6 : f.errcode = 0 ∨ f.errcode = 2 ∨ f.errcode = 5 ∨ f.errcode = 6) : f.Inv where
  idleRound := by rw [h1, h2]; exact h.idleRound
  kxRound := by rw [h1, h2, h3]; exact h.kxRound
  encRound := by rw [h1, h2, h3]; exact h.encRound
  decRound := by rw [h1, h2, h3]; exact h.decRound
  variantCode := by rw [h4]; exact h.variantCode
  noCodeWithoutErr := h5
  codeRaised := h6

end Sys2Proof.Machine
end

