-- ==== Sys2Proof/Tests/Slice0.lean ====
section
/-! SUPPORT. The model's own tests: the well-formedness checks, words written out from the spec's
encodings, single steps with the values of 95_test_vectors.md, and a witness for the hypotheses of
every obligation that has some. -/

namespace Sys2Proof.Tests

open Sys2Proof.Machine

/-! ## WellFormed: each check refuses a command that fails it alone -/

/-- OP = 0x10 is reserved (R86). -/
theorem test_wf_opcodeKnown : Command.opcodeKnown ⟨0x10, 0, 0, 0, 0⟩ = false ∧
    Command.wellFormed ⟨0x10, 0, 0, 0, 0⟩ = false := by decide

/-- NOP with RSV = 1, word 0x00000800 of 95_test_vectors.md section 2.6. -/
theorem test_wf_reservedZero : Command.reservedZero ⟨0x00, 0, 1, 0, 0⟩ = false ∧
    Command.wellFormed ⟨0x00, 0, 1, 0, 0⟩ = false := by decide

/-- SHIFTROWS with VAR = 1, word 0x00000106. -/
theorem test_wf_varUnusedZero : Command.varUnusedZero ⟨0x06, 1, 0, 0, 0⟩ = false ∧
    Command.wellFormed ⟨0x06, 1, 0, 0, 0⟩ = false := by decide

/-- ENCRYPT with A = 1. -/
theorem test_wf_aUnusedZero : Command.aUnusedZero ⟨0x02, 0, 0, 1, 0⟩ = false ∧
    Command.wellFormed ⟨0x02, 0, 0, 1, 0⟩ = false := by decide

/-- GFDOUBLE with B = 1, word 0x0100000B. -/
theorem test_wf_bUnusedZero : Command.bUnusedZero ⟨0x0B, 0, 0, 0, 1⟩ = false ∧
    Command.wellFormed ⟨0x0B, 0, 0, 0, 1⟩ = false := by decide

/-- ENCRYPT with VAR = 6, word 0x00000602: legal in form, and no variant. -/
theorem test_wf_variantNamed : Command.formOk ⟨0x02, 6, 0, 0, 0⟩ = true ∧
    Command.variantNamed ⟨0x02, 6, 0, 0, 0⟩ = false ∧
    Command.wellFormed ⟨0x02, 6, 0, 0, 0⟩ = false := by decide

/-! ## Decoding: one word for every command, `BBBBBBBB AAAAAAAA rrrrr vvv oooooooo` (R81, R82) -/

theorem test_decode_nop : decode 0b00000000_00000000_00000_000_00000000 = .legal .nop := by decide
theorem test_decode_expand : decode 0b00000000_00000000_00000_011_00000001 = .legal (.expand .k81) := by
  decide
theorem test_decode_encrypt :
    decode 0b00000000_00000000_00000_101_00000010 = .legal (.encrypt .k128) := by decide
theorem test_decode_decrypt :
    decode 0b00000000_00000000_00000_001_00000011 = .legal (.decrypt .k4) := by decide
theorem test_decode_subbytes :
    decode 0b00000000_00000000_00000_010_00000100 = .legal (.subbytes .k44) := by decide
theorem test_decode_invsubbytes :
    decode 0b00000000_00000000_00000_100_00000101 = .legal (.invsubbytes .k111) := by decide
theorem test_decode_shiftrows : decode 0b00000000_00000000_00000_000_00000110 = .legal .shiftrows := by
  decide
theorem test_decode_invshiftrows :
    decode 0b00000000_00000000_00000_000_00000111 = .legal .invshiftrows := by decide
theorem test_decode_mixcolumns :
    decode 0b00000000_00000000_00000_000_00001000 = .legal .mixcolumns := by decide
theorem test_decode_invmixcolumns :
    decode 0b00000000_00000000_00000_000_00001001 = .legal .invmixcolumns := by decide
theorem test_decode_addroundkey :
    decode 0b00000000_00000000_00000_000_00001010 = .legal .addroundkey := by decide
theorem test_decode_gfdouble :
    decode 0b00000000_10000001_00000_000_00001011 = .legal (.gfdouble 0x81) := by decide
theorem test_decode_gfmul :
    decode 0b10000011_01010111_00000_000_00001100 = .legal (.gfmul 0x57 0x83) := by decide
theorem test_decode_sbox :
    decode 0b00000000_01010011_00000_000_00001101 = .legal (.sbox .original 0x53) := by decide
theorem test_decode_invsbox :
    decode 0b00000000_11101101_00000_001_00001110 = .legal (.invsbox .k4 0xED) := by decide
theorem test_decode_clear : decode 0b00000000_00000000_00000_000_00001111 = .legal .clear := by decide

/-- The table's numbering: the host's word of a row, with the bits above `nbits` zero. -/
theorem test_decodeTableWord : decodeTableWord 32 0x8357000C = some (.gfmul 0x57 0x83) ∧
    decodeTableWord 16 0x00000301 = some (.expand .k81) ∧
    decodeTableWord 32 0x00000602 = none := by decide

/-! ## Single steps -/

/-- The machine with the engine `e` and one access still to come. -/
def atAccess (e : Engine) (acc : Access) : State :=
  { State.reset with engine := e, host := [.clock acc.pins] }

/-- The machine that is about to write the command word `w`. -/
def atCommand (e : Engine) (w : Word) : State := atAccess e (.write 0x000 w)

/-- The engine after a step; the reset engine if there is none. -/
def after (s : State) : Engine :=
  match step s with
  | .next t => t.engine
  | .fault _ => Engine.reset
  | .refused _ => Engine.reset

/-- What a bus read of `a` returns after a step. -/
def readAfter (s : State) (a : Addr) : Word := (after s).readValue a

/-- DIN = 00 01 … 0f and KEY the FIPS key, as 95_test_vectors.md section 2.3 has them. -/
def loaded : Engine :=
  { Engine.reset with
    din := ⟨0x00010203, 0x04050607, 0x08090a0b, 0x0c0d0e0f⟩
    key := ⟨0x2b7e1516, 0x28aed2a6, 0xabf71588, 0x09cf4f3c⟩ }

/-- Section 2.8 and 2.6: NOP leaves STATUS 0x00000002. -/
theorem test_nop : readAfter (atCommand loaded 0x00000000) 0x004 = 0x00000002 := by decide +kernel

/-- Section 2.3. -/
theorem test_subbytes : (after (atCommand loaded 0x00000004)).dout =
    ⟨0x637c777b, 0xf26b6fc5, 0x3001672b, 0xfed7ab76⟩ := by decide +kernel
theorem test_invsubbytes : (after (atCommand loaded 0x00000005)).dout =
    ⟨0x52096ad5, 0x3036a538, 0xbf40a39e, 0x81f3d7fb⟩ := by decide +kernel
theorem test_shiftrows : (after (atCommand loaded 0x00000006)).dout =
    ⟨0x00050a0f, 0x04090e03, 0x080d0207, 0x0c01060b⟩ := by decide +kernel
theorem test_invshiftrows : (after (atCommand loaded 0x00000007)).dout =
    ⟨0x000d0a07, 0x04010e0b, 0x0805020f, 0x0c090603⟩ := by decide +kernel
theorem test_mixcolumns : (after (atCommand loaded 0x00000008)).dout =
    ⟨0x02070005, 0x06030401, 0x0a0f080d, 0x0e0b0c09⟩ := by decide +kernel
theorem test_invmixcolumns : (after (atCommand loaded 0x00000009)).dout =
    ⟨0x0a0f080d, 0x0e0b0c09, 0x02070005, 0x06030401⟩ := by decide +kernel
theorem test_addroundkey : (after (atCommand loaded 0x0000000A)).dout =
    ⟨0x2b7f1715, 0x2cabd4a1, 0xa3fe1f83, 0x05c24133⟩ := by decide +kernel

/-- Section 2.1. -/
theorem test_gfdouble : readAfter (atCommand loaded 0x0081000B) 0x00C = 0x19 := by decide +kernel
theorem test_gfmul : readAfter (atCommand loaded 0x0B0E000C) 0x00C = 0x62 := by decide +kernel
theorem test_gfmul_high : readAfter (atCommand loaded 0x8080000C) 0x00C = 0x9A := by decide +kernel

/-- Section 2.2. -/
theorem test_sbox : readAfter (atCommand loaded 0x0010000D) 0x00C = 0xCA := by decide +kernel
theorem test_sbox_warn : (after (atCommand loaded 0x0000050D)).warn = true := by decide +kernel
theorem test_invsbox : readAfter (atCommand loaded 0x0052000E) 0x00C = 0x48 := by decide +kernel

/-- R231: CLEAR erases KEY. -/
theorem test_clear : readAfter (atCommand loaded 0x0000000F) 0x02C = 0 ∧
    readAfter (atCommand loaded 0x0000000F) 0x004 = 0x00000002 := by decide +kernel

/-- Section 2.6: EXPAND K81 is accepted and busy; section 2.4: RK[3] is latched. -/
theorem test_expand : readAfter (atCommand loaded 0x00000301) 0x004 = 0x00000001 ∧
    rkWord (after (atCommand loaded 0x00000301)).rk 3 = 0x09CF4F3C := by decide +kernel

/-- Section 2.6: ENCRYPT K128 is accepted with WARN, and DIN is latched into ST (R194). -/
theorem test_encrypt : readAfter (atCommand loaded 0x00000502) 0x004 = 0x00000009 ∧
    (after (atCommand loaded 0x00000502)).st.bytes.take 4 = [0x00, 0x01, 0x02, 0x03] := by
  decide +kernel

/-- R194: DECRYPT latches its opcode and starts with KX round 1. -/
theorem test_decrypt : (after (atCommand loaded 0x00000003)).lop = 0x03 ∧
    (after (atCommand loaded 0x00000003)).phase = .kx ∧
    (after (atCommand loaded 0x00000003)).rnd = 1 := by decide +kernel

/-- An engine in the middle of a command: phase, round and opcode, variant Original. -/
def running (ph : Phase) (r : BitVec 4) (op : BitVec 8) : Engine :=
  { loaded with phase := ph, rnd := r, lop := op }

/-- Section 2.4, "One KX step in detail": RK[4] = 0xA0FAFE17, and section KS-1: RK[7] = 0x2a6c7605. -/
theorem test_kx_step :
    let s := { State.reset with
      engine := { running .kx 1 0x01 with rk := rkSetGroup (Vector.replicate 44 0) 0 loaded.key } }
    rkWord (after s).rk 4 = 0xA0FAFE17 ∧ rkWord (after s).rk 7 = 0x2A6C7605 := by decide +kernel

/-- Section 2.5, row E12, ENC r = 1: round key 1 of KS-2 on the state after E11. -/
theorem test_enc_step :
    let e := { running .enc 1 0x02 with
      rk := rkSetGroup (Vector.replicate 44 0) 1 ⟨0xd6aa74fd, 0xd2af72fa, 0xdaa678f1, 0xd6ab76fe⟩
      st := blockOf ⟨0x00102030, 0x40506070, 0x8090a0b0, 0xc0d0e0f0⟩ }
    packed (after { State.reset with engine := e }).st =
      ⟨0x89d810e8, 0x855ace68, 0x2d1843d8, 0xcb128fe4⟩ := by decide +kernel

/-- Section 2.5, DECRYPT row E12, DEC r = 9: round key 9 of KS-2 on the state after E11. -/
theorem test_dec_step :
    let e := { running .dec 9 0x03 with
      rk := rkSetGroup (Vector.replicate 44 0) 9 ⟨0x549932d1, 0xf0855768, 0x1093ed9c, 0xbe2c974e⟩
      st := blockOf ⟨0x7ad5fda7, 0x89ef4e27, 0x2bca100b, 0x3d9ff59f⟩ }
    packed (after { State.reset with engine := e }).st =
      ⟨0x54d990a1, 0x6ba09ab5, 0x96bbf40e, 0xa111702f⟩ := by decide +kernel

/-- Section 2.6: the priority of the rejections. -/
theorem test_rejections :
    readAfter (atCommand Engine.reset 0x00000702) 0x004 = 0x00000024 ∧
    readAfter (atCommand Engine.reset 0x00010702) 0x004 = 0x00000054 ∧
    readAfter (atCommand (running .kx 1 0x02) 0x00000702) 0x004 = 0x00000065 := by decide +kernel

/-- Section 2.7: a NOP written in the cycle that completes EXPAND gives STATUS 0x00000066, and a
write of 0x2 to STATUS in that cycle gives 0x00000002. -/
theorem test_completion_edge :
    readAfter (atCommand (running .kx 10 0x01) 0x00000000) 0x004 = 0x00000066 ∧
    readAfter (atAccess (running .kx 10 0x01) (.write 0x004 0x2)) 0x004 = 0x00000002 := by
  decide +kernel

/-- Section 2.7: from STATUS 0x56 a write of 0x4 clears ERR with ERRCODE, and one of 0xF0 nothing. -/
theorem test_status_write :
    let e := { Engine.reset with done := true, err := true, errcode := 5 }
    readAfter (atAccess e (.write 0x004 0x4)) 0x004 = 0x00000002 ∧
    readAfter (atAccess e (.write 0x004 0xF0)) 0x004 = 0x00000056 := by decide +kernel

/-- Section 2.7: CTRL keeps bits 1:0. -/
theorem test_ctrl_write :
    readAfter (atAccess Engine.reset (.write 0x008 0xFFFFFFFF)) 0x008 = 0x00000003 := by
  decide +kernel

/-- R27: ID reads "AES1", and R55: at a misaligned address too. -/
theorem test_id : Engine.reset.readValue 0x013 = 0x41455331 := by decide +kernel

/-! ## Witnesses: states and operands that meet the hypotheses of each obligation together -/

/-- The machine carries the access in the next step, and Cycle is applied. -/
theorem atAccess_presents (e : Engine) (acc : Access) : (atAccess e acc).presents acc :=
  ⟨⟨rfl, rfl⟩, access_pins acc⟩

theorem atAccess_writesReg (e : Engine) (r : RegName) (d : Word) :
    (atAccess e (.write r.addr d)).writesReg r d :=
  ⟨r.addr, regAt_addr r, atAccess_presents e _⟩

theorem atCommand_writesCmd (e : Engine) (d : Word) : (atCommand e d).writesReg .cmd d :=
  atAccess_writesReg e .cmd d

/-- R85, one word for each clause: RSV, VAR, A and B of an opcode that does not use them. -/
theorem witness_UnusedFieldsRejectedOneEncodingEach :
    (Command.ofWord 0x00000802).rsv ≠ 0 ∧
    ((Command.ofWord 0x00000106).var ≠ 0 ∧ (Command.ofWord 0x00000106).op = 0x06) ∧
    ((Command.ofWord 0x00010702).a ≠ 0 ∧ (Command.ofWord 0x00010702).op = 0x02) ∧
    ((Command.ofWord 0x0100000B).b ≠ 0 ∧ (Command.ofWord 0x0100000B).op = 0x0B) := by decide

theorem witness_EveryWordInExactlyOneClass :
    (Command.ofWord 0x00000301).wellFormed = true ∧
    (Command.ofWord 0x00000010).formOk = false ∧ 0x10 ≤ (Command.ofWord 0x00000010).op ∧
    ((Command.ofWord 0x00000602).formOk = true ∧ (Command.ofWord 0x00000602).variantNamed = false) ∧
    decode 0x000000FF = .reject .illegalCommand := by decide

theorem witness_OpcodeTableAgreesWithDecoder :
    decode 0xFF57000C = .legal (.gfmul 0x57 0xFF) ∧
    0xFF57000C &&& (tableRow (.gfmul 0 0)).mask = (tableRow (.gfmul 0 0)).pattern ∧
    0x0000060D &&& (tableRow (.sbox .k4 1)).mask = (tableRow (.sbox .k4 1)).pattern ∧
    5 < (Command.ofWord 0x0000060D).var := by decide

theorem witness_StepRunsTheDecodedCommand :
    (atCommand loaded 0x8357000C).rstN = true ∧
    (atCommand loaded 0x8357000C).host = .clock (Access.pins (.write 0x000 0x8357000C)) :: [] ∧
    (Access.pins (.write 0x000 0x8357000C)).access = .write 0x000 0x8357000C ∧
    regAt 0x000 = some .cmd ∧ (atCommand loaded 0x8357000C).engine.phase = .idle ∧
    decode 0x8357000C = .legal (.gfmul 0x57 0x83) := by decide

theorem witness_PresentedWordRunsNext : decode (BitVec.ofNat 32 0x00FF000B) = .legal (.gfdouble 0xFF) := by
  decide

/-- A rejection of each kind: on a busy engine at its completion edge, and on an idle engine. -/
theorem witness_RejectionChangesOnlyErrAndErrcode :
    (atCommand (running .kx 10 0x01) 0x00000000).rejects .cmdWhileBusy ∧
    (∃ e b, seqStep (running .kx 10 0x01) = .ok (e, b)) ∧
    (atCommand loaded 0x00000602).rejects .invalidVariant ∧
    (atCommand loaded 0x000000FF).rejects .illegalCommand ∧
    seqStep loaded = .ok (loaded, false) :=
  ⟨⟨_, atCommand_writesCmd _ _, .inl ⟨by decide, rfl⟩⟩, ⟨_, _, rfl⟩,
   ⟨_, atCommand_writesCmd _ _, .inr ⟨rfl, by decide⟩⟩,
   ⟨_, atCommand_writesCmd _ _, .inr ⟨rfl, by decide⟩⟩, rfl⟩

/-- The four cases of R245 do not overlap: one word for each. -/
theorem witness_RejectionPriority :
    (atCommand (running .enc 0 0x02) 0x00000702).writesReg .cmd 0x00000702 ∧
    (running .enc 0 0x02).phase ≠ .idle ∧ (∃ e b, seqStep (running .enc 0 0x02) = .ok (e, b)) ∧
    (Command.ofWord 0x00010702).formOk = false ∧
    ((Command.ofWord 0x00000702).formOk = true ∧ (Command.ofWord 0x00000702).variantNamed = false) ∧
    (Command.ofWord 0x00000502).wellFormed = true ∧ loaded.phase = .idle :=
  ⟨atCommand_writesCmd _ _, by decide, ⟨_, _, rfl⟩, by decide, by decide, by decide, rfl⟩

/-- The engine `e` and its step on an edge without an access, for the witnesses of "changes at nothing
else". -/
theorem quiet_step (e : Engine) (hp : e.phase = .idle) :
    ∃ t, step { State.reset with engine := e } = .next t ∧
      (∀ c, ¬ ({ State.reset with engine := e } : State).rejects c) ∧
      (∀ i, ¬ ({ State.reset with engine := e } : State).accepts i) ∧
      (∀ r d, ¬ ({ State.reset with engine := e } : State).writesReg r d) ∧
      ¬ ({ State.reset with engine := e } : State).resets := by
  have hw : ∀ r d, ¬ ({ State.reset with engine := e } : State).writesReg r d := by
    rintro r d ⟨a, -, -, ha⟩
    cases ha
  refine ⟨_, step_atCycle (s := { State.reset with engine := e }) ⟨rfl, trivial⟩ (seqStep_idle hp),
    ?_, ?_, hw, ?_⟩
  · rintro c ⟨d, h, -⟩
    exact hw _ _ h
  · rintro i ⟨-, d, -, h⟩
    exact hw _ _ h
  · rintro (⟨rest, h⟩ | ⟨h, -⟩) <;> cases h

/-- A rejection, a clearing write, a reset and a step with none of them, each with a next state. -/
theorem witness_ErrcodeHoldsMostRecentRejection :
    (∃ t, step (atCommand loaded 0x00000602) = .next t) ∧
    (atCommand loaded 0x00000602).rejects .invalidVariant ∧
    (∃ t, step (atAccess { loaded with err := true, errcode := 5 } (.write 0x004 0x4)) = .next t) ∧
    (atAccess { loaded with err := true, errcode := 5 } (.write 0x004 0x4)).writesReg .status 0x4 ∧
    (0x4 : Word).getLsbD 2 = true ∧
    (∃ t, step { State.reset with engine := loaded, host := [.rstFall] } = .next t) ∧
    ({ State.reset with engine := loaded, host := [.rstFall] } : State).resets ∧
    (∃ t, step { State.reset with engine := loaded } = .next t) ∧
    (∀ c, ¬ ({ State.reset with engine := loaded } : State).rejects c) ∧
    ¬ ({ State.reset with engine := loaded } : State).resets := by
  obtain ⟨t, h1, h2, -, -, h5⟩ := quiet_step loaded rfl
  exact ⟨⟨_, rfl⟩, ⟨_, atCommand_writesCmd _ _, .inr ⟨rfl, by decide⟩⟩, ⟨_, rfl⟩,
    atAccess_writesReg _ .status _, rfl, ⟨_, rfl⟩, .inl ⟨[], rfl⟩, ⟨t, h1⟩, h2, h5⟩

/-- The acceptance of a K128 command and of one that is none, and a write of bit 3 to STATUS. -/
theorem witness_WarnMarksAcceptedK128 :
    (∃ t, step (atCommand loaded 0x00000502) = .next t) ∧
    (atCommand loaded 0x00000502).accepts (.encrypt .k128) ∧
    (atCommand { loaded with warn := true } 0x00000000).accepts .nop ∧
    (atAccess { loaded with warn := true } (.write 0x004 0x8)).writesReg .status 0x8 ∧
    (0x8 : Word).getLsbD 3 = true ∧
    (∀ i, ¬ ({ State.reset with engine := loaded } : State).accepts i) := by
  obtain ⟨t, -, -, h3, -, -⟩ := quiet_step loaded rfl
  exact ⟨⟨_, rfl⟩, ⟨rfl, _, by decide, atCommand_writesCmd _ _⟩,
    ⟨rfl, _, by decide, atCommand_writesCmd _ _⟩, atAccess_writesReg _ .status _, rfl, h3⟩

/-- A completion edge at which the host also clears DONE, and an acceptance of each kind. -/
theorem witness_DoneMarksCompletion :
    (atAccess (running .kx 10 0x01) (.write 0x004 0x2)).atCycle ∧
    (∃ e, seqStep (running .kx 10 0x01) = .ok (e, true)) ∧
    (∃ t, step (atAccess (running .kx 10 0x01) (.write 0x004 0x2)) = .next t) ∧
    (atCommand loaded 0x00000001).accepts (.expand .original) ∧
    (atCommand loaded 0x0000000F).accepts .clear ∧
    (atAccess loaded (.write 0x004 0x2)).writesReg .status 0x2 ∧ (0x2 : Word).getLsbD 1 = true :=
  ⟨⟨rfl, rfl⟩, ⟨_, rfl⟩, ⟨_, rfl⟩, ⟨rfl, _, by decide, atCommand_writesCmd _ _⟩,
   ⟨rfl, _, by decide, atCommand_writesCmd _ _⟩, atAccess_writesReg _ .status _, rfl⟩

/-! The hypotheses of the command statements: an idle engine, a busy one, and words of the opcode with a
non-zero unused field or, where it uses VAR, with a VAR of 6 or 7. -/

theorem witness_idle_and_busy :
    State.reset.engine.phase = .idle ∧ (running .dec 10 0x03).phase ≠ .idle := by decide

theorem witness_NopCommand_words :
    (0x80000000 : Word).extractLsb' 0 8 = 0x00 ∧ (0x80000000 : Word).extractLsb' 8 24 ≠ 0 := by decide

theorem witness_ShiftrowsCommand_words :
    (0x80000006 : Word).extractLsb' 0 8 = 0x06 ∧ (0x80000006 : Word).extractLsb' 8 24 ≠ 0 := by decide

theorem witness_InvshiftrowsCommand_words :
    (0x80000007 : Word).extractLsb' 0 8 = 0x07 ∧ (0x80000007 : Word).extractLsb' 8 24 ≠ 0 := by decide

theorem witness_MixcolumnsCommand_words :
    (0x80000008 : Word).extractLsb' 0 8 = 0x08 ∧ (0x80000008 : Word).extractLsb' 8 24 ≠ 0 := by decide

theorem witness_InvmixcolumnsCommand_words :
    (0x80000009 : Word).extractLsb' 0 8 = 0x09 ∧ (0x80000009 : Word).extractLsb' 8 24 ≠ 0 := by decide

theorem witness_AddroundkeyCommand_words :
    (0x8000000A : Word).extractLsb' 0 8 = 0x0A ∧ (0x8000000A : Word).extractLsb' 8 24 ≠ 0 := by decide

theorem witness_ClearCommand_words :
    (0x8000000F : Word).extractLsb' 0 8 = 0x0F ∧ (0x8000000F : Word).extractLsb' 8 24 ≠ 0 := by decide

theorem witness_GfdoubleCommand_words :
    ((0x0000010B : Word).extractLsb' 0 8 = 0x0B ∧ (0x0000010B : Word).extractLsb' 8 3 ≠ 0) ∧
    ((0x0000080B : Word).extractLsb' 0 8 = 0x0B ∧ (0x0000080B : Word).extractLsb' 11 5 ≠ 0) ∧
    ((0x0100000B : Word).extractLsb' 0 8 = 0x0B ∧ (0x0100000B : Word).extractLsb' 24 8 ≠ 0) := by
  decide

theorem witness_GfmulCommand_words :
    ((0x0000010C : Word).extractLsb' 0 8 = 0x0C ∧ (0x0000010C : Word).extractLsb' 8 3 ≠ 0) ∧
    ((0x0000800C : Word).extractLsb' 0 8 = 0x0C ∧ (0x0000800C : Word).extractLsb' 11 5 ≠ 0) := by
  decide

theorem witness_SboxCommand_words :
    ((0x0000080D : Word).extractLsb' 0 8 = 0x0D ∧ (0x0000080D : Word).extractLsb' 11 5 ≠ 0) ∧
    ((0x0100000D : Word).extractLsb' 0 8 = 0x0D ∧ (0x0100000D : Word).extractLsb' 24 8 ≠ 0) ∧
    ((0x00FF060D : Word).extractLsb' 0 8 = 0x0D ∧ (0x00FF060D : Word).extractLsb' 11 5 = 0 ∧
      (0x00FF060D : Word).extractLsb' 24 8 = 0 ∧ (0x00FF060D : Word).extractLsb' 8 3 = 6) ∧
    (0x0000070D : Word).extractLsb' 8 3 = 7 := by decide

theorem witness_InvsboxCommand_words :
    ((0x0000080E : Word).extractLsb' 0 8 = 0x0E ∧ (0x0000080E : Word).extractLsb' 11 5 ≠ 0) ∧
    ((0x0100000E : Word).extractLsb' 0 8 = 0x0E ∧ (0x0100000E : Word).extractLsb' 24 8 ≠ 0) ∧
    ((0x00FF060E : Word).extractLsb' 0 8 = 0x0E ∧ (0x00FF060E : Word).extractLsb' 11 5 = 0 ∧
      (0x00FF060E : Word).extractLsb' 24 8 = 0 ∧ (0x00FF060E : Word).extractLsb' 8 3 = 6) ∧
    (0x0000070E : Word).extractLsb' 8 3 = 7 := by decide

theorem witness_SubbytesCommand_words :
    ((0x00000804 : Word).extractLsb' 0 8 = 0x04 ∧ (0x00000804 : Word).extractLsb' 11 5 ≠ 0) ∧
    ((0x00010004 : Word).extractLsb' 0 8 = 0x04 ∧ (0x00010004 : Word).extractLsb' 16 16 ≠ 0) ∧
    ((0x00000604 : Word).extractLsb' 0 8 = 0x04 ∧ (0x00000604 : Word).extractLsb' 11 5 = 0 ∧
      (0x00000604 : Word).extractLsb' 16 16 = 0 ∧ (0x00000604 : Word).extractLsb' 8 3 = 6) ∧
    (0x00000704 : Word).extractLsb' 8 3 = 7 := by decide

theorem witness_InvsubbytesCommand_words :
    ((0x00000805 : Word).extractLsb' 0 8 = 0x05 ∧ (0x00000805 : Word).extractLsb' 11 5 ≠ 0) ∧
    ((0x00010005 : Word).extractLsb' 0 8 = 0x05 ∧ (0x00010005 : Word).extractLsb' 16 16 ≠ 0) ∧
    ((0x00000605 : Word).extractLsb' 0 8 = 0x05 ∧ (0x00000605 : Word).extractLsb' 11 5 = 0 ∧
      (0x00000605 : Word).extractLsb' 16 16 = 0 ∧ (0x00000605 : Word).extractLsb' 8 3 = 6) ∧
    (0x00000705 : Word).extractLsb' 8 3 = 7 := by decide

/-- NOP with IE_DONE: the state after it is at an edge of Cycle, and its step answers. -/
theorem witness_NopCommand :
    ∃ t u, ({ loaded with ieDone := true } : Engine).ieDone = true ∧
      exec .nop { State.reset with engine := { loaded with ieDone := true } } = .next t ∧
      t.rstN = true ∧ t.atEdge ∧ step t = .next u :=
  ⟨_, _, rfl, rfl, rfl, trivial, rfl⟩

/-- CLEAR with no error pending, and an address that reads 0 after it. -/
theorem witness_ClearCommand :
    loaded.err = false ∧ loaded.warn = false ∧ loaded.errcode = 0 ∧
    regAt 0x1AC ∉ [some .status, some .ctrl, some .id] := by decide

/-- Doubling: bit 7 set, and nothing left after the shift. -/
theorem witness_GfdoubleCommand :
    (0x80 : Byte).getLsbD 7 = true ∧ (0x80 : Byte) <<< 1 = 0 := by decide

/-- SHIFTROWS and INVSHIFTROWS: an index of each permutation, and a block with constant rows. -/
theorem witness_ShiftrowsCommand :
    Claims.shiftP[15]? = some 11 ∧ Claims.shiftQ[13]? = some 9 ∧
    (∀ r c, (Claims.hexBlock 0x00112233 0x00112233 0x00112233 0x00112233).entry r c =
      (Claims.hexBlock 0x00112233 0x00112233 0x00112233 0x00112233).entry r 0) := by decide +kernel

theorem witness_AddroundkeyCommand :
    State.reset.engine.key = ⟨0, 0, 0, 0⟩ ∧
    ({ loaded with key := loaded.din } : Engine).key = loaded.din := by decide

theorem witness_MultiStepAcceptance : (atCommand loaded 0x00000002).engine.phase = .idle := rfl

/-- The first and the last KX round, with each LOP at the last. -/
theorem witness_KeyExpansionStep :
    (running .kx 1 0x02).phase = .kx ∧ (running .kx 1 0x02).rnd.toNat = 1 ∧
    (running .kx 10 0x01).rnd.toNat = 10 ∧ (running .kx 10 0x01).lop = 0x01 ∧
    (running .kx 10 0x02).lop = 0x02 ∧ (running .kx 10 0x03).lop = 0x03 ∧
    Variant.ofCode (running .kx 1 0x02).lvar = some .original := by decide

/-- Rounds 0, 1, 9 and 10 of ENC, with LVAR a variant. -/
theorem witness_EncryptionStep :
    (running .enc 0 0x02).phase = .enc ∧ (running .enc 0 0x02).rnd = 0 ∧
    (1 ≤ (running .enc 1 0x02).rnd.toNat ∧ (running .enc 9 0x02).rnd.toNat ≤ 9) ∧
    (running .enc 10 0x02).rnd = 10 ∧
    Variant.ofCode (running .enc 0 0x02).lvar = some .original := by decide

/-- Rounds 10, 9, 1 and 0 of DEC. -/
theorem witness_DecryptionStep :
    (running .dec 10 0x03).phase = .dec ∧ (running .dec 10 0x03).rnd = 10 ∧
    (1 ≤ (running .dec 1 0x03).rnd.toNat ∧ (running .dec 9 0x03).rnd.toNat ≤ 9) ∧
    (running .dec 0 0x03).rnd = 0 ∧
    Variant.ofCode (running .dec 0 0x03).lvar = some .original := by decide

/-- Two machines that differ in KEY, DIN and the host's access, at the last ENC round. -/
theorem witness_StepReadsOnlySequencerState :
    (atCommand (running .enc 10 0x02) 0x00000000).atCycle ∧
    (atAccess { running .enc 10 0x02 with key := zeroRegs, din := zeroRegs } .noAccess).atCycle ∧
    (running .enc 10 0x02).phase ≠ .idle ∧
    (∃ t, step (atCommand (running .enc 10 0x02) 0x00000000) = .next t ∧ t.engine.phase = .idle) :=
  ⟨⟨rfl, rfl⟩, ⟨rfl, rfl⟩, by decide, ⟨_, rfl, rfl⟩⟩

/-- A machine of the invariant in the middle of a command. -/
theorem running_inv (ph : Phase) (r : BitVec 4) (op : BitVec 8) (acc : Access)
    (h1 : ph = .idle → r = 0)
    (h2 : ph = .kx → 1 ≤ r ∧ r ≤ 10 ∧ (op = 0x01 ∨ op = 0x02 ∨ op = 0x03))
    (h3 : ph = .enc → r ≤ 10 ∧ op = 0x02) (h4 : ph = .dec → r ≤ 10 ∧ op = 0x03) :
    (atAccess (running ph r op) acc).Inv :=
  ⟨⟨h1, h2, h3, h4, (by decide : (0 : BitVec 3) ≤ 5), fun _ => rfl, .inl rfl⟩, fun h => by cases h⟩

/-- Two machines of the invariant with different data, and two acceptances of one opcode. -/
theorem witness_TimingDependsOnOpcodeOnly :
    (atAccess (running .kx 10 0x02) .noAccess).Inv ∧
    (atCommand (running .kx 10 0x02) 0x00000000).Inv ∧
    (atCommand loaded 0x00000001).accepts (.expand .original) ∧
    (atCommand Engine.reset 0x00000501).accepts (.expand .k128) ∧
    loaded.rnd = 0 ∧ Engine.reset.rnd = 0 ∧
    (Command.ofInstr (.expand .original)).op = (Command.ofInstr (.expand .k128)).op :=
  ⟨running_inv _ _ _ _ (by decide) (by decide) (by decide) (by decide),
   running_inv _ _ _ _ (by decide) (by decide) (by decide) (by decide),
   ⟨rfl, _, by decide, atCommand_writesCmd _ _⟩, ⟨rfl, _, by decide, atCommand_writesCmd _ _⟩,
   rfl, rfl, rfl⟩

/-- The acceptance of a DECRYPT whose host then makes no access: every later step is an edge. -/
theorem witness_StepSequenceOfEveryCommand :
    (atCommand loaded 0x00000003).accepts (.decrypt .original) ∧
    (atCommand loaded 0x00000003).engine.rnd = 0 ∧ (atCommand loaded 0x00000003).edgesAhead 22 ∧
    21 ≤ Claims.completionEdge (.decrypt .original) ∧ 0 ≤ Claims.completionEdge .nop :=
  ⟨⟨rfl, _, by decide, atCommand_writesCmd _ _⟩, rfl, by simp [State.edgesAhead, atCommand, atAccess,
    HostEvent.isEdge], by decide, by decide⟩

theorem witness_SequencerComputesTheCipher :
    (atCommand loaded 0x00000001).accepts (.expand .original) ∧
    (atCommand loaded 0x00000002).accepts (.encrypt .original) ∧
    (atCommand loaded 0x00000003).accepts (.decrypt .original) ∧
    (atCommand loaded 0x00000001).edgesAhead 11 ∧ (atCommand loaded 0x00000002).edgesAhead 22 :=
  ⟨⟨rfl, _, by decide, atCommand_writesCmd _ _⟩, ⟨rfl, _, by decide, atCommand_writesCmd _ _⟩,
   ⟨rfl, _, by decide, atCommand_writesCmd _ _⟩,
   by simp [State.edgesAhead, atCommand, atAccess, HostEvent.isEdge],
   by simp [State.edgesAhead, atCommand, atAccess, HostEvent.isEdge]⟩

/-- DecryptionInvertsEncryption, SboxTablesAreInverse, RoundTransformLaws, InvsboxCommand and
InvsubbytesCommand speak of a variant other than K128. -/
theorem witness_DecryptionInvertsEncryption :
    Variant.original ≠ .k128 ∧ Variant.k111 ≠ .k128 := by decide

theorem witness_SboxTablesAreInverse : Variant.k4 ≠ .k128 ∧ Variant.k81 ≠ .k128 := by decide

theorem witness_RoundTransformLaws : Variant.k44 ≠ .k128 := by decide

/-- A byte with an inverse, and the one byte that doubles to 0. -/
theorem witness_GfLaws : (0x53 : Byte) ≠ 0x00 ∧ gfDouble 0x00 = 0x00 := by decide

/-- The last round key. -/
theorem witness_BytesAreBigEndianInWords : 10 ≤ 10 := by decide

/-- A host whose next event is a fall of `rst_n`. -/
theorem witness_ResetValues :
    ({ State.reset with engine := loaded, host := [.rstFall] } : State).host = .rstFall :: [] := rfl

/-- KeyExpansionRoundForm: the first and the last round. -/
theorem witness_KeyExpansionRoundForm : (1 ≤ 1 ∧ 1 ≤ 10) ∧ (1 ≤ 10 ∧ 10 ≤ 10) := by decide

/-- R53 at the first and the last address of each range, and between the ranges. -/
theorem witness_ReadValueMap :
    ((0x003 : Addr) &&& 0x1FC).toNat = 0x000 ∧ ((0x007 : Addr) &&& 0x1FC).toNat = 0x004 ∧
    ((0x02F : Addr) &&& 0x1FC).toNat = 0x020 + 4 * (3 : Fin 4).val ∧
    ((0x030 : Addr) &&& 0x1FC).toNat = 0x030 + 4 * (0 : Fin 4).val ∧
    ((0x04F : Addr) &&& 0x1FC).toNat = 0x040 + 4 * (3 : Fin 4).val ∧
    ((0x100 : Addr) &&& 0x1FC).toNat = 0x100 + 4 * (0 : Fin 44).val ∧
    ((0x1AF : Addr) &&& 0x1FC).toNat = 0x100 + 4 * (43 : Fin 44).val ∧
    ((0x1B0 : Addr) &&& 0x1FC).toNat = 0x1B0 ∧ ((0x014 : Addr) &&& 0x1FC).toNat = 0x014 ∧
    (atAccess loaded (.read 0x1AC)).presents (.read 0x1AC) ∧
    seqStep loaded = .ok (loaded, false) :=
  ⟨rfl, rfl, rfl, rfl, rfl, rfl, rfl, rfl, rfl, atAccess_presents _ _, rfl⟩

/-- R57 at the ends of the writable ranges and just outside them, on an idle and a busy engine. -/
theorem witness_HostWriteMap :
    (atAccess loaded (.write 0x03F 7)).presents (.write 0x03F 7) ∧
    seqStep loaded = .ok (loaded, false) ∧
    ((0x03F : Addr) &&& 0x1FC).toNat = 0x030 + 4 * (3 : Fin 4).val ∧
    ((0x020 : Addr) &&& 0x1FC).toNat = 0x020 + 4 * (0 : Fin 4).val ∧
    ((0x040 : Addr) &&& 0x1FC).toNat = 0x040 ∧ ((0x01F : Addr) &&& 0x1FC).toNat = 0x01C ∧
    (running .kx 1 0x01).phase ≠ .idle ∧ decode 0x00000010 = .reject .illegalCommand ∧
    decode 0x0000000A = .legal .addroundkey :=
  ⟨atAccess_presents _ _, rfl, rfl, rfl, rfl, rfl, by decide, by decide, by decide⟩

/-- A STATUS write of DONE at a completion edge and at another. -/
theorem witness_StatusWriteOneToClear :
    (atAccess (running .kx 10 0x01) (.write 0x004 0xE)).writesReg .status 0xE ∧
    (∃ e, seqStep (running .kx 10 0x01) = .ok (e, true)) ∧
    (atAccess loaded (.write 0x004 0xE)).writesReg .status 0xE ∧
    seqStep loaded = .ok (loaded, false) :=
  ⟨atAccess_writesReg _ .status _, ⟨_, rfl⟩, atAccess_writesReg _ .status _, rfl⟩

/-- A CTRL write whose state after it is at an edge, with a step that answers. -/
theorem witness_CtrlRegister :
    (atAccess loaded (.write 0x008 3)).writesReg .ctrl 3 ∧ seqStep loaded = .ok (loaded, false) ∧
    (∃ t u, step (atAccess loaded (.write 0x008 3)) = .next t ∧ t.atEdge ∧ step t = .next u) :=
  ⟨atAccess_writesReg _ .ctrl _, rfl, ⟨_, _, rfl, trivial, rfl⟩⟩

theorem witness_IrqLevel :
    ∃ t u, (atAccess loaded .noAccess).atCycle ∧ step (atAccess loaded .noAccess) = .next t ∧
      step { atAccess loaded .noAccess with engine := { loaded with warn := true } } = .next u :=
  ⟨_, _, ⟨rfl, rfl⟩, rfl, rfl⟩

/-- The first and the last KEY and DIN register. -/
theorem witness_KeyAndDinReadBack :
    (atAccess loaded (.write (RegName.key 0).addr 7)).writesReg (.key 0) 7 ∧
    (atAccess loaded (.write (RegName.din 3).addr 7)).writesReg (.din 3) 7 ∧
    loaded.phase = .idle ∧ regAt 0x024 ≠ some (.key 0) :=
  ⟨atAccess_writesReg _ _ _, atAccess_writesReg _ _ _, rfl, by decide⟩

/-- A step that changes KEY and one that changes DIN. -/
theorem witness_KeyAndDinWriters :
    (∃ t, step (atAccess loaded (.write (RegName.key 1).addr 7)) = .next t) ∧
    (after (atAccess loaded (.write (RegName.key 1).addr 7))).key ≠ loaded.key ∧
    (∃ t, step (atAccess loaded (.write (RegName.din 1).addr 7)) = .next t) ∧
    (after (atAccess loaded (.write (RegName.din 1).addr 7))).din ≠ loaded.din :=
  ⟨⟨_, rfl⟩, by decide +kernel, ⟨_, rfl⟩, by decide +kernel⟩

/-- A step that changes DOUT, BRES or RK: a block command, a byte command and a KX step. -/
theorem witness_ResultRegisterWriters :
    (after (atCommand loaded 0x00000006)).dout ≠ loaded.dout ∧
    (after (atCommand loaded 0x8357000C)).bres ≠ loaded.bres ∧
    (after (atAccess (running .kx 1 0x01) .noAccess)).rk ≠ loaded.rk := by decide +kernel

theorem witness_DoutHeldWhileBusy :
    ∃ t, (atAccess (running .enc 9 0x02) .noAccess).atCycle ∧ (running .enc 9 0x02).phase ≠ .idle ∧
      step (atAccess (running .enc 9 0x02) .noAccess) = .next t ∧ t.engine.phase ≠ .idle :=
  ⟨_, ⟨rfl, rfl⟩, by decide, rfl, by decide⟩

/-- A command of each kind: no result, DOUT, BRES. -/
theorem witness_SingleEdgeFrame :
    Instr.nop.multiStep = false ∧ Instr.nop ≠ .clear ∧ loaded.phase = .idle ∧
    (Instr.multiStep (.subbytes .k4) = false ∧ Claims.writesDout (.subbytes .k4) = true ∧
      regAt 0x00C ≠ some .status ∧ ∀ j, regAt 0x00C ≠ some (.dout j)) ∧
    (Instr.multiStep (.gfmul 1 2) = false ∧ Claims.writesBres (.gfmul 1 2) = true ∧
      regAt 0x040 ≠ some .bres) := by decide +kernel

/-- A fall of `rst_n`, an edge while it is 0, its rise, and an edge after it with and without a read. -/
theorem witness_ResetOverridesEverything :
    ({ State.reset with host := [.rstFall] } : State).host = .rstFall :: [] ∧
    ({ atCommand loaded 0 with rstN := false } : State).atEdge ∧
    ({ State.reset with rstN := false, host := [.rstRise] } : State).host = .rstRise :: [] ∧
    (atAccess Engine.reset (.read 0x010)).atCycle ∧
    (atAccess Engine.reset (.read 0x010)).access = .read 0x010 ∧
    (atAccess Engine.reset .noAccess).access = .noAccess ∧
    seqStep Engine.reset = .ok (Engine.reset, false) :=
  ⟨rfl, rfl, rfl, ⟨rfl, rfl⟩, rfl, rfl, rfl⟩

/-- A step of the invariant that completes a command while the host writes another. -/
theorem witness_EveryStepKeepsInvariant :
    (atCommand (running .dec 0 0x03) 0x00000000).Inv ∧
    (∃ t, step (atCommand (running .dec 0 0x03) 0x00000000) = .next t) :=
  ⟨running_inv _ _ _ _ (by decide) (by decide) (by decide) (by decide), ⟨_, rfl⟩⟩

/-- A state of the invariant at a completion edge, with a write to come. -/
theorem witness_LowAddressBitsIgnored : (atAccess (running .kx 10 0x01) (.write 0x1FF 0)).Inv :=
  running_inv _ _ _ _ (by decide) (by decide) (by decide) (by decide)

/-- A busy state of the invariant. -/
theorem witness_NoStopFromInvariant : (atAccess (running .enc 10 0x02) .noAccess).Inv :=
  running_inv _ _ _ _ (by decide) (by decide) (by decide) (by decide)

/-- Each of the stops is reached from some state outside R42, and the edge values next to them are not
stops. -/
theorem witness_FaultsExactlyWhereNoRule :
    step (atAccess (running .kx 0 0x01) .noAccess) = .fault .kxRoundOutOfRange ∧
    step (atAccess (running .kx 11 0x01) .noAccess) = .fault .kxRoundOutOfRange ∧
    step (atAccess (running .kx 10 0x04) .noAccess) = .fault .kxUnknownOpcode ∧
    step (atAccess (running .enc 11 0x02) .noAccess) = .fault .encRoundOutOfRange ∧
    step (atAccess (running .dec 11 0x03) .noAccess) = .fault .decRoundOutOfRange ∧
    step (atAccess { running .enc 1 0x02 with lvar := 6 } .noAccess) = .fault .variantOutOfRange ∧
    (∃ t, step (atAccess { running .enc 0 0x02 with lvar := 6 } .noAccess) = .next t) ∧
    (∃ t, step (atAccess (running .kx 10 0x03) .noAccess) = .next t) :=
  ⟨rfl, rfl, rfl, rfl, rfl, rfl, ⟨_, rfl⟩, ⟨_, rfl⟩⟩

/-- A script that writes a command and waits. -/
theorem witness_WaitReadsAfterCommand :
    let s := { State.reset with
      host := [.clock (Access.pins (.write 0x000 0x00000002)), .wait, .rstFall] }
    s.rstN = true ∧ s.engine.phase = .idle ∧ s.engine.rnd = 0 ∧
    s.host = .clock (Access.pins (.write 0x000 0x00000002)) :: .wait :: [.rstFall] ∧
    (Access.pins (.write 0x000 0x00000002)).access = .write 0x000 0x00000002 ∧
    regAt 0x000 = some .cmd ∧ decode 0x00000002 = .legal (.encrypt .original) ∧
    (0 ≤ Claims.completionEdge (.encrypt .original) ∧
      21 ≤ Claims.completionEdge (.encrypt .original)) := by decide

end Sys2Proof.Tests
end

section
/-! Proofs about the state (10_state.md): the CTRL register (R28), the level of `irq` (R30) and the reset
values (R41). First the rules they rest on: the fields of the state after an edge, what a register reads
at its own address, and the step in which the host writes a register other than CMD and STATUS. -/

namespace Sys2Proof.Machine

/-! The fields of the state after an edge. -/

@[simp] theorem State.afterEdge_engine (s : State) (e : Engine) : (s.afterEdge e).engine = e := rfl
@[simp] theorem State.afterEdge_rstN (s : State) (e : Engine) : (s.afterEdge e).rstN = s.rstN := rfl
@[simp] theorem State.afterEdge_host (s : State) (e : Engine) :
    (s.afterEdge e).host = s.hostAfter := rfl
@[simp] theorem State.afterEdge_rdata (s : State) (e : Engine) :
    (s.afterEdge e).rdata = outRdata s.access s := rfl
@[simp] theorem State.afterEdge_irq (s : State) (e : Engine) : (s.afterEdge e).irq = outIrq s := rfl

/-- The step at an edge where Cycle is applied, read backwards: a next state is the one of R60. -/
theorem step_atCycle_next {s t : State} (h : s.atCycle) (hst : step s = .next t) :
    ∃ e b, seqStep s.engine = .ok (e, b) ∧
      t = s.afterEdge (accessEngine s.access s.engine.busy b e) := by
  cases hs : seqStep s.engine with
  | error f => rw [step_fault h hs] at hst; cases hst
  | ok p =>
    rw [step_atCycle h hs] at hst
    cases hst
    exact ⟨p.1, p.2, rfl, rfl⟩

/-- A register reads at its own address as the register (R51, R53). -/
@[simp] theorem readValue_addr (e : Engine) (r : RegName) : e.readValue r.addr = e.readReg r := by
  simp [Engine.readValue]

/-- A host write of a register other than CMD and STATUS at an edge (R57), BUSY or not. -/
theorem accessEngine_writePlain {addr : Addr} {r : RegName} (hr : regAt addr = some r)
    (hcmd : r ≠ .cmd) (hstatus : r ≠ .status) (d : Word) (busy0 doneSet : Bool) (e : Engine) :
    accessEngine (.write addr d) busy0 doneSet e = e.writePlain r d := by
  cases r with
  | cmd => exact absurd rfl hcmd
  | status => exact absurd rfl hstatus
  | _ => simp only [accessEngine, hr]

/-- The step in which the host writes a register other than CMD and STATUS (R57, R60). -/
theorem step_writesReg_plain {s : State} {r : RegName} {d : Word} (hw : s.writesReg r d)
    (hcmd : r ≠ .cmd) (hstatus : r ≠ .status) {e : Engine} {b : Bool}
    (hs : seqStep s.engine = .ok (e, b)) :
    step s = .next (s.afterEdge (e.writePlain r d)) := by
  obtain ⟨hc, a, hreg, hacc⟩ := writesReg_access hw
  rw [step_atCycle hc hs, hacc, accessEngine_writePlain hreg hcmd hstatus]

/-! CTRL (R28). -/

/-- CTRL reads as IE_DONE in bit 0, IE_ERR in bit 1 and 0 above (R28). -/
theorem ctrlWord_getLsbD (e : Engine) (i : Nat) :
    e.ctrlWord.getLsbD i = if i = 0 then e.ieDone else if i = 1 then e.ieErr else false := by
  unfold Engine.ctrlWord
  rw [BitVec.getLsbD_setWidth]
  simp only [BitVec.getLsbD_append]
  rcases i with _ | _ | i <;> simp

/-- CTRL reads back bits 1:0 of the value written (R28). -/
@[simp] theorem ctrlWord_ctrlWrite (d : Word) (e : Engine) :
    (e.ctrlWrite d).ctrlWord = d &&& 0x3 := by
  apply BitVec.eq_of_getLsbD_eq
  intro i hi
  have mask : (0x3 : Word).getLsbD i = decide (i < 2) := by
    revert i; decide
  rw [ctrlWord_getLsbD, BitVec.getLsbD_and, mask]
  rcases i with _ | _ | i <;> simp

/-- Acceptance does not touch the interrupt enables (R28, R193). -/
theorem acceptedEngine_enables (i : Instr) (e : Engine) :
    (acceptedEngine i e).ieDone = e.ieDone ∧ (acceptedEngine i e).ieErr = e.ieErr := by
  cases i <;> simp [acceptedEngine, effectOf]

/-! The interrupt line (R30). -/

/-- `irq` in a cycle is that of the engine before the edge, whatever the access (R30, R60). -/
theorem step_atCycle_irq {s t : State} (h : s.atCycle) (hst : step s = .next t) :
    t.irq = s.engine.irq := by
  obtain ⟨e, b, -, rfl⟩ := step_atCycle_next h hst
  simp [outIrq, h.1]

/-- WARN does not drive `irq` (R30). -/
theorem Engine.irq_withWarn (e : Engine) (w : Bool) :
    ({ e with warn := w } : Engine).irq = e.irq := rfl

/-- Settles O45: the step is the plain write of CTRL, and the state after it is again at a cycle. -/
theorem ctrlRegister : Obligations.CtrlRegister := by
  unfold Obligations.CtrlRegister
  constructor
  · intro s d e b hw hs
    have hstep : step s = .next (s.afterEdge (e.ctrlWrite d)) :=
      step_writesReg_plain hw (by decide) (by decide) hs
    have hread : (e.ctrlWrite d).readValue RegName.ctrl.addr = d &&& 0x3 := by
      simp [Engine.readReg]
    refine ⟨_, hstep, rfl, hread, fun u hedge hu => ?_⟩
    have hrst : s.rstN = true := (writesReg_access hw).1.1
    exact step_atCycle_irq ⟨hrst, hedge⟩ hu
  · intro s hidle
    exact ⟨_, exec_idle hidle .clear, acceptedEngine_enables .clear s.engine⟩

/-- Settles O46: both runs show the `irq` of the engine before the edge, which WARN does not enter. -/
theorem irqLevel : Obligations.IrqLevel := by
  unfold Obligations.IrqLevel
  constructor
  · intro s t hc ht
    exact step_atCycle_irq hc ht
  · intro s t u w hc ht hu
    have hcw : ({ s with engine := { s.engine with warn := w } } : State).atCycle := hc
    rw [step_atCycle_irq hc ht, step_atCycle_irq hcw hu, Engine.irq_withWarn]

/-- Settles O53: `Engine.reset` is the table of R41, ID is a constant, and a fall of `rst_n` puts
`Engine.reset` in place of any engine. -/
theorem resetValues : Obligations.ResetValues := by
  unfold Obligations.ResetValues
  have hid : State.reset.engine.readValue RegName.id.addr = idValue := readValue_addr _ .id
  refine ⟨rfl, rfl, rfl, hid, by decide, fun s rest hfall => ?_⟩
  exact ⟨_, step_rstFall hfall, rfl⟩

end Sys2Proof.Machine
end

section
/-! Proofs about the bus (20_memory.md): what a read of every address returns (R53), that the low two
address bits play no part (R55), what a write to every address does (R57), and the write-1-to-clear of
STATUS (R58). First the rules they rest on: the address map of R51 read in both directions, STATUS and
CTRL as numbers, and the step in which the host makes an access. -/

namespace Sys2Proof.Machine

/-! The address map (R51). -/

@[simp] theorem RegName.key_addr_toNat (i : Fin 4) :
    (RegName.key i).addr.toNat = 0x020 + 4 * i.val := by
  simp only [RegName.addr, BitVec.toNat_ofNat]
  omega

@[simp] theorem RegName.din_addr_toNat (i : Fin 4) :
    (RegName.din i).addr.toNat = 0x030 + 4 * i.val := by
  simp only [RegName.addr, BitVec.toNat_ofNat]
  omega

@[simp] theorem RegName.dout_addr_toNat (i : Fin 4) :
    (RegName.dout i).addr.toNat = 0x040 + 4 * i.val := by
  simp only [RegName.addr, BitVec.toNat_ofNat]
  omega

@[simp] theorem RegName.rk_addr_toNat (i : Fin 44) :
    (RegName.rk i).addr.toNat = 0x100 + 4 * i.val := by
  simp only [RegName.addr, BitVec.toNat_ofNat]
  omega

/-- The masked address is the first byte of a word (R55). -/
theorem wordAddr_mod_four (addr : Addr) : (addr &&& 0x1FC).toNat % 4 = 0 := by
  rw [BitVec.toNat_and, show 4 = 2 ^ 2 from rfl, Nat.and_mod_two_pow]
  exact Nat.and_zero _

/-- The map at a byte of a word gives the register that begins at the word. -/
theorem addr_of_regAtWord {a : Nat} {r : RegName} (h : regAtWord a = some r) :
    r.addr.toNat = a / 4 * 4 := by
  unfold regAtWord at h
  split_ifs at h <;> cases h
  all_goals simp only [RegName.addr, BitVec.toNat_ofNat, BitVec.ofNat_eq_ofNat]
  all_goals omega

/-- The map is one to one: a register is at an address exactly when it begins at the address's word. -/
theorem regAt_eq_some_iff {addr : Addr} {r : RegName} :
    regAt addr = some r ↔ (addr &&& 0x1FC).toNat = r.addr.toNat := by
  constructor
  · intro h
    have hmod := wordAddr_mod_four addr
    have haddr := addr_of_regAtWord h
    omega
  · intro h
    rw [← regAt_aligned, BitVec.eq_of_toNat_eq h, regAt_addr]

/-! Reads (R53). -/

theorem readValue_of_wordAddr {addr : Addr} {r : RegName}
    (h : (addr &&& 0x1FC).toNat = r.addr.toNat) (e : Engine) : e.readValue addr = e.readReg r := by
  simp only [Engine.readValue, regAt_eq_some_iff.mpr h]

/-- An address outside the ranges of R51 has no register and reads 0 (R56). -/
theorem readValue_unmapped {addr : Addr} {a : Nat} (ha : (addr &&& 0x1FC).toNat = a)
    (hlow : a ∉ [0x000, 0x004, 0x008, 0x00C, 0x010]) (hblock : ¬ (0x020 ≤ a ∧ a < 0x050))
    (hrk : ¬ (0x100 ≤ a ∧ a < 0x1B0)) (e : Engine) : e.readValue addr = 0 := by
  cases hr : regAt addr with
  | none => simp [Engine.readValue, hr]
  | some r =>
    have haddr := ha.symm.trans (regAt_eq_some_iff.mp hr)
    cases r with
    | key i => rw [RegName.key_addr_toNat] at haddr; omega
    | din i => rw [RegName.din_addr_toNat] at haddr; omega
    | dout i => rw [RegName.dout_addr_toNat] at haddr; omega
    | rk i => rw [RegName.rk_addr_toNat] at haddr; omega
    | _ => exact absurd (by rw [haddr]; decide) hlow

theorem toNat_append_ofBool {n : Nat} (x : BitVec n) (b : Bool) :
    (x ++ BitVec.ofBool b).toNat = 2 * x.toNat + b.toNat := by
  have hb : b.toNat < 2 ^ 1 := b.toNat_lt
  rw [BitVec.toNat_append, BitVec.toNat_ofBool, ← Nat.shiftLeft_add_eq_or_of_lt hb,
    Nat.shiftLeft_eq]
  omega

/-- STATUS as a number (R26, R53). -/
theorem statusWord_toNat (e : Engine) :
    e.statusWord.toNat = 16 * e.errcode.toNat + 8 * e.warn.toNat + 4 * e.err.toNat +
      2 * e.done.toNat + e.busy.toNat := by
  rw [Engine.statusWord, BitVec.toNat_setWidth_of_le (by omega)]
  simp only [toNat_append_ofBool]
  omega

/-- CTRL as a number (R28, R53). -/
theorem ctrlWord_toNat (e : Engine) :
    e.ctrlWord.toNat = 2 * e.ieErr.toNat + e.ieDone.toNat := by
  rw [Engine.ctrlWord, BitVec.toNat_setWidth_of_le (by omega), toNat_append_ofBool,
    BitVec.toNat_ofBool]

theorem Engine.busy_toNat (e : Engine) : e.busy.toNat = if e.phase = .idle then 0 else 1 := by
  by_cases h : e.phase = .idle <;> simp [h]

/-! The step in which the host makes an access (R60). -/

theorem step_presents {s : State} {acc : Access} (h : s.presents acc) {e : Engine} {b : Bool}
    (hs : seqStep s.engine = .ok (e, b)) :
    step s = .next (s.afterEdge (accessEngine acc s.engine.busy b e)) := by
  obtain ⟨hcycle, rfl⟩ := h
  exact step_atCycle hcycle hs

/-- A read shows the value of the state before the edge (R53, R60). -/
theorem outRdata_read {s : State} {addr : Addr} (h : s.presents (.read addr)) :
    outRdata s.access s = s.engine.readValue addr := by
  obtain ⟨⟨hrst, -⟩, hacc⟩ := h
  simp [hacc, outRdata, hrst]

/-- Settles O41: each register reads at its own word, no register is anywhere else, and a read adds
nothing to the sequencer's step. -/
theorem readValueMap : Obligations.ReadValueMap := by
  unfold Obligations.ReadValueMap
  constructor
  · intro e addr a ha
    have hread : ∀ r : RegName, a = r.addr.toNat → e.readValue addr = e.readReg r :=
      fun r hr => readValue_of_wordAddr (ha.trans hr) e
    refine ⟨?cmd, ?status, ?ctrl, ?bres, ?id, ?key, ?din, ?dout, ?rk, ?unmapped⟩
    case cmd => exact hread .cmd
    case status =>
      intro h
      rw [hread .status h, Engine.readReg, statusWord_toNat, Engine.busy_toNat]
    case ctrl =>
      intro h
      rw [hread .ctrl h, Engine.readReg, ctrlWord_toNat]
    case bres =>
      intro h
      rw [hread .bres h, Engine.readReg, BitVec.toNat_setWidth_of_le (by omega)]
    case id => exact hread .id
    case key => exact fun i h => hread (.key i) (by simpa using h)
    case din => exact fun i h => hread (.din i) (by simpa using h)
    case dout => exact fun i h => hread (.dout i) (by simpa using h)
    case rk =>
      intro i h
      rw [hread (.rk i) (by simpa using h)]
      simp [Engine.readReg, Engine.busy]
    case unmapped => exact fun hlow hblock hrk => readValue_unmapped ha hlow hblock hrk e
  · intro s addr e b hp hs
    exact ⟨_, step_presents hp hs, outRdata_read hp, rfl⟩

/-! Writes (R57, R58). -/

theorem accessEngine_status {addr : Addr} (hr : regAt addr = some .status) (d : Word)
    (busy0 doneSet : Bool) (e : Engine) :
    accessEngine (.write addr d) busy0 doneSet e = e.statusWrite doneSet d := by
  simp only [accessEngine, hr]

theorem accessEngine_cmd_busy {addr : Addr} (hr : regAt addr = some .cmd) (d : Word)
    (doneSet : Bool) (e : Engine) :
    accessEngine (.write addr d) true doneSet e = e.raise .cmdWhileBusy := by
  simp [accessEngine, hr]

theorem accessEngine_cmd_notBusy {addr : Addr} (hr : regAt addr = some .cmd) (d : Word)
    (doneSet : Bool) (e : Engine) :
    accessEngine (.write addr d) false doneSet e = commandedEngine d e := by
  simp [accessEngine, hr]

theorem commandedEngine_reject {d : Word} {c : ErrCode} (hd : decode d = .reject c) (e : Engine) :
    commandedEngine d e = e.raise c := by
  simp only [commandedEngine, hd]

theorem commandedEngine_legal {d : Word} {i : Instr} (hd : decode d = .legal i) {e : Engine}
    (hidle : e.phase = .idle) : commandedEngine d e = acceptedEngine i e := by
  simp [commandedEngine, hd, hidle]

/-- A write outside CMD, STATUS, CTRL, KEY and DIN is ignored (R56, R57). -/
theorem accessEngine_readOnly {addr : Addr} {a : Nat} (ha : (addr &&& 0x1FC).toNat = a)
    (hlow : a ∉ [0x000, 0x004, 0x008]) (hblock : ¬ (0x020 ≤ a ∧ a < 0x040)) (d : Word)
    (busy0 doneSet : Bool) (e : Engine) :
    accessEngine (.write addr d) busy0 doneSet e = e := by
  cases hr : regAt addr with
  | none => simp only [accessEngine, hr]
  | some r =>
    have haddr := ha.symm.trans (regAt_eq_some_iff.mp hr)
    cases r with
    | cmd => exact absurd (by rw [haddr]; decide) hlow
    | status => exact absurd (by rw [haddr]; decide) hlow
    | ctrl => exact absurd (by rw [haddr]; decide) hlow
    | key i => rw [RegName.key_addr_toNat] at haddr; omega
    | din i => rw [RegName.din_addr_toNat] at haddr; omega
    | _ => rw [accessEngine_writePlain hr (by simp) (by simp), Engine.writePlain]

/-- Settles O43: the access's register follows from its word address, and each register's write is the
one of R57. -/
theorem hostWriteMap : Obligations.HostWriteMap := by
  unfold Obligations.HostWriteMap
  intro s addr d e b a hp hs ha
  have hreg : ∀ r : RegName, a = r.addr.toNat → regAt addr = some r :=
    fun r hr => regAt_eq_some_iff.mpr (ha.trans hr)
  have hidle : s.engine.phase = .idle → e = s.engine := fun h => by
    rw [seqStep_idle h] at hs
    cases hs
    rfl
  have hplain : ∀ r : RegName, r ≠ .cmd → r ≠ .status → a = r.addr.toNat →
      accessEngine (.write addr d) s.engine.busy b e = e.writePlain r d :=
    fun r hcmd hstatus hr => accessEngine_writePlain (hreg r hr) hcmd hstatus d _ _ e
  refine ⟨_, step_presents hp hs, ?busy, ?reject, ?legal, ?status, ?ctrl, ?key, ?din, ?ignored⟩
  all_goals rw [State.afterEdge_engine]
  case busy =>
    intro h hbusy
    rw [Engine.busy_of_ne hbusy, accessEngine_cmd_busy (hreg .cmd h)]
    rfl
  case reject =>
    intro h hi c hd
    rw [Engine.busy_idle hi, accessEngine_cmd_notBusy (hreg .cmd h), commandedEngine_reject hd]
    rfl
  case legal =>
    intro h hi i hd
    refine ⟨_, exec_idle hi i, ?_⟩
    rw [Engine.busy_idle hi, accessEngine_cmd_notBusy (hreg .cmd h), hidle hi,
      commandedEngine_legal hd hi]
    rfl
  case status => exact fun h => accessEngine_status (hreg .status h) d _ b e
  case ctrl => exact hplain .ctrl (by decide) (by decide)
  case key => exact fun i h => hplain (.key i) (by simp) (by simp) (by simpa using h)
  case din => exact fun i h => hplain (.din i) (by simp) (by simp) (by simpa using h)
  case ignored => exact fun hlow hblock => accessEngine_readOnly ha hlow hblock d _ b e

/-- The step in which the host writes STATUS (R58, R60). -/
theorem step_writesReg_status {s : State} {d : Word} (hw : s.writesReg .status d) {e : Engine}
    {b : Bool} (hs : seqStep s.engine = .ok (e, b)) :
    step s = .next (s.afterEdge (e.statusWrite b d)) := by
  obtain ⟨addr, hreg, hp⟩ := hw
  rw [step_presents hp hs, accessEngine_status hreg]

/-- The whole engine after a STATUS write: each of the four flag fields by its own bit (R58). -/
theorem statusWrite_eq (doneSet : Bool) (d : Word) (e : Engine) :
    e.statusWrite doneSet d = { e with
      done := if d.getLsbD 1 = true ∧ doneSet = false then false else e.done
      err := if d.getLsbD 2 then false else e.err
      errcode := if d.getLsbD 2 then 0 else e.errcode
      warn := if d.getLsbD 3 then false else e.warn } := by
  simp only [Engine.statusWrite, Bool.not_eq_true]
  split_ifs <;> rfl

/-- Settles O44: a completion has set DONE in the engine after the step, and the write keeps it. -/
theorem statusWriteOneToClear : Obligations.StatusWriteOneToClear := by
  unfold Obligations.StatusWriteOneToClear
  intro s d e b hw hs
  refine ⟨_, step_writesReg_status hw hs, statusWrite_eq b d e, ?_⟩
  rintro rfl
  obtain ⟨-, -, -, hdone⟩ := (seqStep_completion hs).1 rfl
  simp [hdone]

/-! Misaligned addresses (R55). -/

/-- The access to the word that contains the address (R55). -/
def Access.aligned : Access → Access
  | .noAccess => .noAccess
  | .read a => .read (a &&& 0x1FC)
  | .write a d => .write (a &&& 0x1FC) d

theorem outRdata_aligned (acc : Access) (s : State) : outRdata acc.aligned s = outRdata acc s := by
  cases acc with
  | read a => simp only [Access.aligned, outRdata, Engine.readValue, regAt_aligned]
  | _ => rfl

theorem State.outputs_aligned (acc : Access) (s : State) : s.outputs acc.aligned = s.outputs acc := by
  simp only [State.outputs, outRdata_aligned]

theorem State.recordRead_aligned (acc : Access) (s : State) :
    s.recordRead acc.aligned = s.recordRead acc := by
  cases acc <;> rfl

theorem hostAccess_aligned (acc : Access) (busy0 doneSet : Bool) (s : State) :
    hostAccess acc.aligned busy0 doneSet s = hostAccess acc busy0 doneSet s := by
  cases acc with
  | write a d => simp only [Access.aligned, hostAccess, hostWrite, regAt_aligned]
  | _ => rfl

theorem clockEdge_aligned (acc : Access) (s : State) : clockEdge acc.aligned s = clockEdge acc s := by
  simp only [clockEdge, cycle, hostAccess_aligned]

theorem clockStep_aligned (acc : Access) (rest : List HostEvent) (s : State) :
    clockStep acc.aligned rest s = clockStep acc rest s := by
  rw [clockStep, State.outputs_aligned, State.recordRead_aligned, clockEdge_aligned, clockStep]

/-- The step in which the host makes the access `acc`. -/
theorem step_clock_pins (s : State) (acc : Access) (rest : List HostEvent) :
    step { s with host := .clock acc.pins :: rest } =
      clockStep acc rest { s with host := .clock acc.pins :: rest } := by
  simp only [step, nextEvent, access_pins]

/-- The host's list takes no part in a clock edge but for what is left of it. -/
theorem clockStep_withHost (acc : Access) (rest l : List HostEvent) (s : State) :
    clockStep acc rest (s.withHost l) = clockStep acc rest s := by
  cases acc <;> rfl

/-- An access and the access to its word make the same step (R55). -/
theorem step_aligned (s : State) (acc : Access) (rest : List HostEvent) :
    step { s with host := .clock acc.pins :: rest } =
      step { s with host := .clock acc.aligned.pins :: rest } := by
  rw [step_clock_pins, step_clock_pins, clockStep_aligned]
  exact (clockStep_withHost acc rest _ s).trans (clockStep_withHost acc rest _ s).symm

/-- A clock edge never stops in a state of the invariant (R42, R60). -/
theorem State.Inv.step_next_of_atEdge {s : State} (hi : s.Inv) (hedge : s.atEdge) :
    ∃ t, step s = .next t := by
  cases hr : s.rstN with
  | false => exact ⟨_, step_inReset hedge hr⟩
  | true =>
    obtain ⟨v, hv⟩ := hi.engine.variant
    obtain ⟨e, b, hs, -⟩ := seqStep_row hi.engine hv
    exact ⟨_, step_atCycle ⟨hr, hedge⟩ hs⟩

/-- Settles O42: the step of an access depends on its address through the word alone, and at an edge
the invariant gives the sequencer a step. -/
theorem lowAddressBitsIgnored : Obligations.LowAddressBitsIgnored := by
  unfold Obligations.LowAddressBitsIgnored
  intro s rest a d
  have hnext : ∀ acc : Access, s.Inv →
      ∃ t, step { s with host := .clock acc.pins :: rest } = .next t := by
    intro acc hi
    have hi' : (s.withHost (.clock acc.pins :: rest)).Inv := ⟨hi.engine, hi.inReset⟩
    exact hi'.step_next_of_atEdge rfl
  exact ⟨step_aligned s (.write a d) rest, step_aligned s (.read a) rest,
    fun hi => ⟨hnext (.write a d) hi, hnext (.read a) hi⟩⟩

end Sys2Proof.Machine
end

section
/-! Proofs about the command words (30_encoding.md): unused fields and the one encoding of each command
(R85), and the three classes of words (R86). First the facts they rest on: the decoder of R88 in terms of
the checks of WellFormed.lean, and the instruction of each word it accepts. -/

namespace Sys2Proof

open Machine

/-! The fields an opcode uses (R82), and the checks of R85 and R86 field by field. -/

theorem usesVar_iff (op : BitVec 8) :
    usesVar op = true ↔ op ∈ [0x01#8, 0x02#8, 0x03#8, 0x04#8, 0x05#8, 0x0D#8, 0x0E#8] := by
  simp [usesVar, or_assoc]

theorem usesA_iff (op : BitVec 8) : usesA op = true ↔ op ∈ [0x0B#8, 0x0C#8, 0x0D#8, 0x0E#8] := by
  simp [usesA, or_assoc]

theorem usesB_iff (op : BitVec 8) : usesB op = true ↔ op = 0x0C := by
  simp [usesB]

/-- The opcode map of R82 has a row for the OP values up to 0x0F, with the answers of R88's `usesVar`,
`usesA` and `usesB`, and none for the reserved ones. -/
theorem Command.row_eq (c : Command) :
    c.row = if c.op > 0x0F then none else some ⟨c.op, usesVar c.op, usesA c.op, usesB c.op⟩ := by
  unfold Command.row
  generalize c.op = op
  revert op
  decide

theorem Command.row_of_reserved {c : Command} (h : c.op > 0x0F) : c.row = none := by
  rw [row_eq, if_pos h]

theorem Command.row_of_known {c : Command} (h : ¬ c.op > 0x0F) :
    c.row = some ⟨c.op, usesVar c.op, usesA c.op, usesB c.op⟩ := by
  rw [row_eq, if_neg h]

theorem Command.formOk_of_reserved {c : Command} (h : c.op > 0x0F) : c.formOk = false := by
  simp [formOk, opcodeKnown, row_of_reserved h]

/-- A known opcode is legal in form when RSV and every unused field are 0 (R85). -/
theorem Command.formOk_iff_of_known {c : Command} (h : ¬ c.op > 0x0F) :
    c.formOk = true ↔ c.rsv = 0 ∧ (usesVar c.op = true ∨ c.var = 0) ∧
      (usesA c.op = true ∨ c.a = 0) ∧ (usesB c.op = true ∨ c.b = 0) := by
  simp [formOk, opcodeKnown, reservedZero, varUnusedZero, aUnusedZero, bUnusedZero, row_of_known h,
    and_assoc]

/-- A known opcode names a variant unless it uses VAR and VAR is 6 or 7 (R83). -/
theorem Command.variantNamed_iff_of_known {c : Command} (h : ¬ c.op > 0x0F) :
    c.variantNamed = true ↔ ¬ (usesVar c.op = true ∧ c.var > 5) := by
  simp [variantNamed, row_of_known h, imp_iff_not_or]

/-! The decoder (R88). -/

theorem decodeCommand_of_reserved {c : Command} (h : c.op > 0x0F) :
    decodeCommand c = .reject .illegalCommand := by
  rw [decodeCommand, if_pos h]

/-- The tests of R88, in their order, are the checks of R86: first the form, then the variant. -/
theorem decodeCommand_eq (c : Command) :
    decodeCommand c =
      if c.formOk = false then .reject .illegalCommand
      else if c.variantNamed = false then .reject .invalidVariant
      else commandOf c := by
  by_cases hop : c.op > 0x0F
  · rw [decodeCommand_of_reserved hop, if_pos (Command.formOk_of_reserved hop)]
  · have hvar : c.variantNamed = false ↔ usesVar c.op = true ∧ c.var > 5 := by
      rw [← Bool.not_eq_true, Command.variantNamed_iff_of_known hop, not_not]
    rw [decodeCommand, if_neg hop]
    by_cases hform : c.formOk = true
    · obtain ⟨hrsv, hv, ha, hb⟩ := (Command.formOk_iff_of_known hop).mp hform
      have hunused : ¬ ((¬ usesVar c.op ∧ c.var ≠ 0) ∨ (¬ usesA c.op ∧ c.a ≠ 0) ∨
          (¬ usesB c.op ∧ c.b ≠ 0)) := by
        tauto
      simp only [hrsv, hunused, hform, hvar, ne_eq, not_true_eq_false, Bool.true_eq_false, if_false]
    · have hbad := (Command.formOk_iff_of_known hop).not.mp hform
      rw [if_pos (Bool.eq_false_iff.mpr hform)]
      by_cases hrsv : c.rsv = 0
      · rw [if_neg (not_not.mpr hrsv), if_pos (by tauto)]
      · rw [if_pos hrsv]

theorem withVariant_code (v : Variant) (k : Variant → Instr) :
    withVariant v.code k = .legal (k v) := by
  rw [withVariant, ofCode_code]

/-- A VAR code up to 5 is the code of a variant (R83). -/
theorem exists_code_of_le {x : BitVec 3} (h : x ≤ 5) : ∃ v : Variant, x = v.code := by
  have hsome : (Variant.ofCode x).isSome = true := by rw [ofCode_isSome, decide_eq_true h]
  obtain ⟨v, hv⟩ := Option.isSome_iff_exists.mp hsome
  exact ⟨v, (code_of_ofCode hv).symm⟩

/-- The OP of an instruction is one of R82. -/
theorem ofInstr_op_known (i : Instr) : ¬ (Command.ofInstr i).op > 0x0F := by
  cases i <;> simp [Command.ofInstr]

theorem ofInstr_formOk (i : Instr) : (Command.ofInstr i).formOk = true := by
  cases i <;> rfl

theorem ofInstr_variantNamed (i : Instr) : (Command.ofInstr i).variantNamed = true := by
  have hle : (Command.ofInstr i).var ≤ 5 := by
    rw [variant_code]
    cases i.variant with
    | none => decide
    | some v => exact code_le v
  rw [Command.variantNamed_iff_of_known (ofInstr_op_known i)]
  exact fun h => BitVec.not_lt.mpr hle h.2

/-- `commandOf` reads an instruction back from the fields it fills. -/
theorem commandOf_ofInstr (i : Instr) : commandOf (Command.ofInstr i) = .legal i := by
  cases i <;> simp [commandOf, Command.ofInstr, withVariant_code]

/-- The opcodes of R82, with any variant and operands in the fields they use and 0 in the others, are
the 16 instructions. -/
theorem exists_ofInstr_of_fields {op : BitVec 8} (h : ¬ op > 0x0F) (v : Variant) (a b : Byte) :
    ∃ i, Command.ofInstr i = ⟨op, if usesVar op then v.code else 0, 0, if usesA op then a else 0,
      if usesB op then b else 0⟩ := by
  have hop := op_cases h
  simp only [List.cons_append, List.nil_append, List.mem_cons, List.not_mem_nil, or_false] at hop
  rcases hop with rfl | rfl | rfl | rfl | rfl | rfl | rfl | rfl | rfl | rfl | rfl | rfl | rfl | rfl |
    rfl | rfl
  exacts [⟨.nop, rfl⟩, ⟨.expand v, rfl⟩, ⟨.encrypt v, rfl⟩, ⟨.decrypt v, rfl⟩, ⟨.subbytes v, rfl⟩,
    ⟨.invsubbytes v, rfl⟩, ⟨.shiftrows, rfl⟩, ⟨.invshiftrows, rfl⟩, ⟨.mixcolumns, rfl⟩,
    ⟨.invmixcolumns, rfl⟩, ⟨.addroundkey, rfl⟩, ⟨.gfdouble a, rfl⟩, ⟨.gfmul a b, rfl⟩,
    ⟨.sbox v a, rfl⟩, ⟨.invsbox v a, rfl⟩, ⟨.clear, rfl⟩]

/-- A command that passes the checks holds the fields of an instruction (R86 (a)). -/
theorem exists_ofInstr_of_checks {c : Command} (hform : c.formOk = true)
    (hnamed : c.variantNamed = true) : ∃ i, Command.ofInstr i = c := by
  have hop : ¬ c.op > 0x0F := fun h => Bool.false_ne_true (Command.formOk_of_reserved h ▸ hform)
  obtain ⟨hrsv, hvar, ha, hb⟩ := (Command.formOk_iff_of_known hop).mp hform
  rw [Command.variantNamed_iff_of_known hop] at hnamed
  have hle : c.var ≤ 5 := by
    rcases hvar with huses | hzero
    · exact BitVec.not_lt.mp fun h => hnamed ⟨huses, h⟩
    · rw [hzero]; decide
  obtain ⟨v, hv⟩ := exists_code_of_le hle
  obtain ⟨i, hi⟩ := exists_ofInstr_of_fields hop v c.a c.b
  refine ⟨i, hi.trans ?_⟩
  have hvar' : (if usesVar c.op then v.code else 0) = c.var := by
    rw [← hv]; exact ite_eq_left_iff.mpr fun h => (hvar.resolve_left h).symm
  have ha' : (if usesA c.op then c.a else 0) = c.a :=
    ite_eq_left_iff.mpr fun h => (ha.resolve_left h).symm
  have hb' : (if usesB c.op then c.b else 0) = c.b :=
    ite_eq_left_iff.mpr fun h => (hb.resolve_left h).symm
  rw [hvar', ha', hb', ← hrsv]

/-! The three classes of words (R86), and the one encoding of each command (R85). -/

/-- The decoder answers by the checks of R86, made on the word's fields. -/
theorem decode_eq (w : Word) :
    decode w =
      if (Command.ofWord w).formOk = false then .reject .illegalCommand
      else if (Command.ofWord w).variantNamed = false then .reject .invalidVariant
      else commandOf (Command.ofWord w) :=
  decodeCommand_eq _

/-- Decode reads back what encode wrote (R88, R92). -/
theorem decode_encode (i : Instr) : decode (encode i) = .legal i := by
  rw [decode_eq, ofWord_encode, ofInstr_formOk, ofInstr_variantNamed, commandOf_ofInstr]
  rfl

/-- A word whose fields pass the checks is the word of an instruction (R86 (a)). -/
theorem exists_encode_of_checks {w : Word} (hform : (Command.ofWord w).formOk = true)
    (hnamed : (Command.ofWord w).variantNamed = true) : ∃ i, encode i = w := by
  obtain ⟨i, hi⟩ := exists_ofInstr_of_checks hform hnamed
  exact ⟨i, by rw [encode_eq_word, hi, Command.word_ofWord]⟩

/-- Every word falls into one of the three classes of R86, with the decoder's answer for it. -/
theorem decode_cases (w : Word) :
    ((Command.ofWord w).formOk = false ∧ decode w = .reject .illegalCommand) ∨
    ((Command.ofWord w).formOk = true ∧ (Command.ofWord w).variantNamed = false ∧
      decode w = .reject .invalidVariant) ∨
    ((Command.ofWord w).formOk = true ∧ (Command.ofWord w).variantNamed = true ∧
      ∃ i, encode i = w ∧ decode w = .legal i) := by
  cases hform : (Command.ofWord w).formOk with
  | false => exact .inl ⟨rfl, by rw [decode_eq, if_pos hform]⟩
  | true =>
    cases hnamed : (Command.ofWord w).variantNamed with
    | false => exact .inr (.inl ⟨rfl, rfl, by simp [decode_eq, hform, hnamed]⟩)
    | true =>
      obtain ⟨i, rfl⟩ := exists_encode_of_checks hform hnamed
      exact .inr (.inr ⟨rfl, rfl, i, rfl, decode_encode i⟩)

theorem decode_eq_legal_iff {w : Word} {i : Instr} : decode w = .legal i ↔ w = encode i := by
  constructor
  · intro h
    obtain ⟨-, hw⟩ | ⟨-, -, hw⟩ | ⟨-, -, j, rfl, hw⟩ := decode_cases w
    · simp [hw] at h
    · simp [hw] at h
    · rw [hw] at h
      rw [Decoded.legal.inj h]
  · rintro rfl
    exact decode_encode i

theorem decode_eq_illegalCommand_iff {w : Word} :
    decode w = .reject .illegalCommand ↔ (Command.ofWord w).formOk = false := by
  obtain ⟨hf, hw⟩ | ⟨hf, -, hw⟩ | ⟨hf, -, i, -, hw⟩ := decode_cases w <;> simp [hf, hw]

theorem decode_eq_invalidVariant_iff {w : Word} :
    decode w = .reject .invalidVariant ↔
      (Command.ofWord w).formOk = true ∧ (Command.ofWord w).variantNamed = false := by
  obtain ⟨hf, hw⟩ | ⟨hf, hn, hw⟩ | ⟨hf, hn, i, -, hw⟩ := decode_cases w
  · simp [hf, hw]
  · simp [hf, hn, hw]
  · simp [hf, hn, hw]

theorem exists_decode_eq_legal_iff {w : Word} :
    (∃ i, decode w = .legal i) ↔ (Command.ofWord w).wellFormed = true := by
  rw [Command.wellFormed, Bool.and_eq_true]
  obtain ⟨hf, hw⟩ | ⟨hf, hn, hw⟩ | ⟨hf, hn, i, -, hw⟩ := decode_cases w
  · simp [hf, hw]
  · simp [hf, hn, hw]
  · simp [hf, hn, hw]

/-- The mask of a row of the opcode table covers every bit except the fields its opcode uses (R85). -/
theorem tableRow_mask (i : Instr) : (tableRow i).mask = ~~~(
    (if usesVar (Command.ofInstr i).op then 0x00000700#32 else 0) |||
    (if usesA (Command.ofInstr i).op then 0x00FF0000#32 else 0) |||
    (if usesB (Command.ofInstr i).op then 0xFF000000#32 else 0)) := by
  cases i <;> simp [tableRow, Command.ofInstr, usesVar, usesA, usesB]

/-- A word the decoder rejects, given to CommandWrite, raises its code and does nothing else (R244). -/
theorem commandWrite_reject {w : Word} {c : ErrCode} (h : decode w = .reject c) (s : State) :
    commandWrite w s = .next (s.onEngine (Engine.raise c)) := by
  rw [commandWrite_eq, State.onEngine, commandedEngine_reject h, State.onEngine]

/-- Settles O2: a non-zero unused field breaks the form, and a legal word is the word of its
instruction. -/
theorem unusedFieldsRejectedOneEncodingEach : Obligations.UnusedFieldsRejectedOneEncodingEach := by
  unfold Obligations.UnusedFieldsRejectedOneEncodingEach
  refine ⟨fun w h => ?_, fun w i => decode_eq_legal_iff, fun i => ?_⟩
  · by_cases hop : (Command.ofWord w).op > 0x0F
    · exact decodeCommand_of_reserved hop
    · rw [decode_eq_illegalCommand_iff, Bool.eq_false_iff, ne_eq, Command.formOk_iff_of_known hop,
        usesVar_iff, usesA_iff, usesB_iff]
      tauto
  · simp only [tableRow_mask, usesVar_iff, usesA_iff, usesB_iff]

/-- Settles O3: the three answers of the decoder are its three classes, NOP is the word 0, and a rejection
raises its code. -/
theorem everyWordInExactlyOneClass : Obligations.EveryWordInExactlyOneClass := by
  unfold Obligations.EveryWordInExactlyOneClass
  refine ⟨fun w => ⟨exists_decode_eq_legal_iff, decode_eq_illegalCommand_iff,
    decode_eq_invalidVariant_iff, decode_eq_legal_iff, fun h => ?_⟩, fun w c s h => ?_⟩
  · have hop : (Command.ofWord w).op > 0x0F := by bv_omega
    exact decodeCommand_of_reserved hop
  · exact commandWrite_reject h s

end Sys2Proof
end

section
/-! Proofs about GF(2^8) (40_gf_arith.md): the laws of `gf_double` and `gf_mul` that make the product
symmetric (R105), and the commands GFDOUBLE (R106) and GFMUL (R107). Before the commands, what every
command statement needs: the rejections of a busy engine and of an unused field that is not 0. -/

namespace Sys2Proof.Machine

/-! Doubling and multiplication (R102, R103, R105). -/

/-- The mask of R102: a byte shifted left has 8 bits already. -/
theorem gfDouble_eq_masked (a : Byte) :
    gfDouble a = ((a <<< 1) &&& 0xFF) ^^^ (if a.getLsbD 7 then 0x1B else 0x00) := by
  rw [show (0xFF : Byte) = BitVec.allOnes 8 from rfl, BitVec.and_allOnes, gfDouble]

theorem gfDouble_xor (a b : Byte) : gfDouble (a ^^^ b) = gfDouble a ^^^ gfDouble b := by
  have hpoly : ∀ s t : Bool, (if s ^^ t then (0x1B : Byte) else 0x00) =
      (if s then 0x1B else 0x00) ^^^ (if t then 0x1B else 0x00) := by decide
  rw [gfDouble, gfDouble, gfDouble, BitVec.shiftLeft_xor_distrib, BitVec.getLsbD_xor, hpoly]
  ac_rfl

/-- Adding one byte under two bits is adding it under their sum. -/
theorem ite_xor_ite (s t : Bool) (p q x : Byte) :
    (if s then p ^^^ x else p) ^^^ (if t then q ^^^ x else q) =
      if s ^^ t then p ^^^ q ^^^ x else p ^^^ q := by
  have hboth : (p ^^^ x) ^^^ (q ^^^ x) = p ^^^ q ^^^ (x ^^^ x) := by ac_rfl
  have hfirst : (p ^^^ x) ^^^ q = p ^^^ q ^^^ x := by ac_rfl
  have hsecond : p ^^^ (q ^^^ x) = p ^^^ q ^^^ x := by ac_rfl
  rw [BitVec.xor_self, BitVec.xor_zero] at hboth
  cases s <;> cases t
  exacts [rfl, hsecond, hfirst, hboth]

/-- The loop of R103 is additive in its accumulator and multiplicand. -/
theorem gfMulLoop_xor_left (n : Nat) (p q x z y : Byte) :
    gfMulLoop n (p ^^^ q) (x ^^^ z) y = gfMulLoop n p x y ^^^ gfMulLoop n q z y := by
  induction n generalizing p q x z y with
  | zero => rfl
  | succ n ih =>
    simp only [gfMulLoop, gfDouble_xor, ← ih]
    congr 1
    split_ifs
    · ac_rfl
    · rfl

/-- The loop of R103 is additive in its accumulator and multiplier. -/
theorem gfMulLoop_xor_right (n : Nat) (p q x y z : Byte) :
    gfMulLoop n (p ^^^ q) x (y ^^^ z) = gfMulLoop n p x y ^^^ gfMulLoop n q x z := by
  induction n generalizing p q x y z with
  | zero => rfl
  | succ n ih =>
    simp only [gfMulLoop, BitVec.ushiftRight_xor_distrib, BitVec.getLsbD_xor, ← ih, ite_xor_ite]

theorem gfMulLoop_gfDouble (n : Nat) (p x y : Byte) :
    gfMulLoop n (gfDouble p) (gfDouble x) y = gfDouble (gfMulLoop n p x y) := by
  induction n generalizing p x y with
  | zero => rfl
  | succ n ih =>
    simp only [gfMulLoop, ← ih]
    congr 1
    split_ifs
    · rw [gfDouble_xor]
    · rfl

/-- The loop of R103 only adds up doublings of its multiplicand. -/
theorem gfMulLoop_induction {P : Byte → Prop} (xor : ∀ a b, P a → P b → P (a ^^^ b)) {n : Nat}
    {p x : Byte} (y : Byte) (hp : P p) (hx : ∀ i < n, P (gfDouble^[i] x)) :
    P (gfMulLoop n p x y) := by
  induction n generalizing p x y with
  | zero => exact hp
  | succ n ih =>
    have hnext : P (if y.getLsbD 0 then p ^^^ x else p) := by
      split_ifs
      · exact xor p x hp (hx 0 n.succ_pos)
      · exact hp
    exact ih (y >>> 1) hnext fun i hi => hx (i + 1) (Nat.succ_lt_succ hi)

theorem gfMul_xor_left (a b c : Byte) : gfMul (a ^^^ b) c = gfMul a c ^^^ gfMul b c :=
  gfMulLoop_xor_left 8 0 0 a b c

theorem gfMul_xor_right (a b c : Byte) : gfMul a (b ^^^ c) = gfMul a b ^^^ gfMul a c :=
  gfMulLoop_xor_right 8 0 0 a b c

theorem gfMul_gfDouble_left (a b : Byte) : gfMul (gfDouble a) b = gfDouble (gfMul a b) :=
  gfMulLoop_gfDouble 8 0 a b

@[simp] theorem gfMul_zero (a : Byte) : gfMul a 0 = 0 := rfl

@[simp] theorem zero_gfMul (a : Byte) : gfMul 0 a = 0 := by
  have h := gfMul_xor_left 0 0 a
  rwa [BitVec.xor_self, BitVec.xor_self] at h

/-- Multiplying by a power `x^i` of the element {02} doubles `i` times. -/
theorem gfMul_gfDouble_iterate_one (a : Byte) {i : Nat} (hi : i < 8) :
    gfMul a (gfDouble^[i] 1) = gfDouble^[i] a := by
  interval_cases i <;> exact BitVec.zero_xor

@[simp] theorem gfMul_one (a : Byte) : gfMul a 1 = a :=
  gfMul_gfDouble_iterate_one a (i := 0) (by decide)

/-- The multiples of 1 that the loop adds up are the bits of the multiplier. -/
@[simp] theorem one_gfMul (a : Byte) : gfMul 1 a = a := by
  revert a; decide

/-- The powers `x^0 … x^7` span the bytes (R100). -/
theorem byte_induction {P : Byte → Prop} (zero : P 0) (xor : ∀ a b, P a → P b → P (a ^^^ b))
    (power : ∀ i < 8, P (gfDouble^[i] 1)) (b : Byte) : P b :=
  one_gfMul b ▸ gfMulLoop_induction xor b zero power

theorem gfMul_gfDouble_iterate_left (i : Nat) (a b : Byte) :
    gfMul (gfDouble^[i] a) b = gfDouble^[i] (gfMul a b) :=
  (Function.Semiconj.iterate_right (f := (gfMul · b)) (fun a => gfMul_gfDouble_left a b) i) a

/-- Symmetry (R105 (e)): both sides are additive in `b`, and for a power of {02} both are doublings
of `a`. -/
theorem gfMul_comm (a b : Byte) : gfMul a b = gfMul b a := by
  induction b using byte_induction with
  | zero => rw [gfMul_zero, zero_gfMul]
  | xor b c hb hc => rw [gfMul_xor_right, gfMul_xor_left, hb, hc]
  | power i hi => rw [gfMul_gfDouble_iterate_one a hi, gfMul_gfDouble_iterate_left, one_gfMul]

/-! What the statements about single commands share: the command words without VAR, and the
rejections. -/

/-- A word with VAR = 0 and RSV = 0 (R81), where OP is its low half. -/
theorem encodeFields_var_zero (op : BitVec 8) (a b : Byte) :
    encodeFields op 0 a b = (b ++ a ++ op.setWidth 16 : BitVec 32) := by
  have hlow : (0#5 ++ (0#3 ++ op) : BitVec 16) = op.setWidth 16 := by
    revert op; decide
  rw [← hlow, encodeFields, BitVec.append_assoc, BitVec.append_assoc]
  rfl

/-- A busy engine rejects every command with ERRCODE 6, and nothing else changes (R244, R247). -/
theorem exec_busy_next (i : Instr) (s : State) (h : s.engine.phase ≠ .idle) :
    exec i s = .next { s with engine := { s.engine with err := true, errcode := 6 } } :=
  exec_busy h i

/-- A word that the decoder rejects changes nothing but ERR and ERRCODE (R244). -/
theorem rejectedWith_of_decode {w : Word} {c : ErrCode} (h : decode w = .reject c) :
    Claims.rejectedWith w c :=
  ⟨h, commandWrite_reject h⟩

/-- A word with a non-zero field that its opcode does not use is refused with IllegalCommand (R85). -/
theorem rejectedWith_of_unusedField {w : Word} {op : BitVec 8} (hop : w.extractLsb' 0 8 = op)
    (h : w.extractLsb' 11 5 ≠ 0 ∨ (w.extractLsb' 8 3 ≠ 0 ∧ usesVar op = false) ∨
      (w.extractLsb' 16 8 ≠ 0 ∧ usesA op = false) ∨
      (w.extractLsb' 24 8 ≠ 0 ∧ usesB op = false)) :
    Claims.rejectedWith w .illegalCommand := by
  subst hop
  obtain ⟨hunused, -, -⟩ := unusedFieldsRejectedOneEncodingEach
  apply rejectedWith_of_decode
  apply hunused w
  simp only [← usesVar_iff, ← usesA_iff, ne_eq (Command.op _), ← usesB_iff, Bool.not_eq_true]
  exact h

/-- Settles O15: the command writes the doubled byte, and its unused fields are VAR, RSV and B. -/
theorem gfdoubleCommand : Obligations.GfdoubleCommand := by
  unfold Obligations.GfdoubleCommand
  refine ⟨?word, ?idle, fun a => exec_busy_next (.gfdouble a), ?refused, by decide, by decide,
    by decide, by decide, by decide⟩
  case word => exact fun a => encodeFields_var_zero 0x0B a 0
  case idle =>
    intro a s h
    rw [← gfDouble_eq_masked]
    exact exec_idle h (.gfdouble a)
  case refused =>
    intro w hop hfield
    apply rejectedWith_of_unusedField hop
    rcases hfield with hvar | hrsv | hb
    · exact .inr (.inl ⟨hvar, rfl⟩)
    · exact .inl hrsv
    · exact .inr (.inr (.inr ⟨hb, rfl⟩))

/-- Settles O16: the command writes the product, its unused fields are VAR and RSV, and the product is
symmetric. -/
theorem gfmulCommand : Obligations.GfmulCommand := by
  unfold Obligations.GfmulCommand
  refine ⟨?word, ?idle, fun a b => exec_busy_next (.gfmul a b), ?refused, ?laws, by decide,
    by decide⟩
  case word => exact fun a b => encodeFields_var_zero 0x0C a b
  case idle => exact fun a b s h => exec_idle h (.gfmul a b)
  case refused =>
    intro w hop hfield
    apply rejectedWith_of_unusedField hop
    rcases hfield with hvar | hrsv
    · exact .inr (.inl ⟨hvar, rfl⟩)
    · exact .inl hrsv
  case laws =>
    exact fun a b => ⟨gfMul_comm a b, gfMul_zero a, zero_gfMul a, gfMul_one a, one_gfMul a⟩

end Sys2Proof.Machine
end

section
/-! Proofs about the S-boxes (41_sbox.md): the commands SBOX (R128) and INVSBOX (R129), and that the
inverse tables undo the forward ones (R125, R126). Before the commands, what the statements about a
command with a VAR field need: the refusal of a VAR code that names no variant, and WARN. -/

namespace Sys2Proof.Machine

/-! What the statements about commands with a VAR field share. -/

/-- A word legal in form whose VAR code is 6 or 7 is refused with InvalidVariant (R83, R86). -/
theorem rejectedWith_of_unnamedVariant {w : Word} {op : BitVec 8} (hop : w.extractLsb' 0 8 = op)
    (hknown : ¬ op > 0x0F) (huses : usesVar op = true) (hrsv : w.extractLsb' 11 5 = 0)
    (ha : usesA op = true ∨ w.extractLsb' 16 8 = 0) (hb : usesB op = true ∨ w.extractLsb' 24 8 = 0)
    (hvar : w.extractLsb' 8 3 = 6 ∨ w.extractLsb' 8 3 = 7) :
    Claims.rejectedWith w .invalidVariant := by
  subst hop
  have hform : (Command.ofWord w).formOk = true :=
    (Command.formOk_iff_of_known hknown).mpr ⟨hrsv, .inl huses, ha, hb⟩
  have hlarge : (Command.ofWord w).var > 5 := by
    rcases hvar with h | h <;> simp only [Command.ofWord, h] <;> decide
  have hunnamed : (Command.ofWord w).variantNamed = false :=
    Bool.eq_false_iff.mpr fun hn =>
      (Command.variantNamed_iff_of_known hknown).mp hn ⟨huses, hlarge⟩
  exact rejectedWith_of_decode (decode_eq_invalidVariant_iff.mpr ⟨hform, hunnamed⟩)

/-- The refused words of an opcode that uses VAR and A, and not B (R85, R86): RSV and B must be 0, and
then VAR must name a variant. -/
theorem rejectedWith_of_varAndA {w : Word} {op : BitVec 8} (hop : w.extractLsb' 0 8 = op)
    (hknown : ¬ op > 0x0F) (husesVar : usesVar op = true) (husesA : usesA op = true)
    (husesB : usesB op = false) :
    ((w.extractLsb' 11 5 ≠ 0 ∨ w.extractLsb' 24 8 ≠ 0) →
      Claims.rejectedWith w .illegalCommand) ∧
    (w.extractLsb' 11 5 = 0 → w.extractLsb' 24 8 = 0 →
      (w.extractLsb' 8 3 = 6 ∨ w.extractLsb' 8 3 = 7) → Claims.rejectedWith w .invalidVariant) := by
  constructor
  · intro hfield
    apply rejectedWith_of_unusedField hop
    rcases hfield with hrsv | hb
    · exact .inl hrsv
    · exact .inr (.inr (.inr ⟨hb, husesB⟩))
  · intro hrsv hb hvar
    exact rejectedWith_of_unnamedVariant hop hknown husesVar hrsv (.inl husesA) (.inr hb) hvar

/-- What acceptance does before the effect of a command with variant `v`: DONE is cleared, and WARN is
set for K128 (R193). -/
theorem clearDone_warnFor_some (v : Variant) (e : Engine) :
    e.clearDone.warnFor (some v) =
      { e with done := false, warn := e.warn || decide (v = .k128) } :=
  warnFor_some v e.clearDone

/-! The commands on an idle engine (R128, R129). -/

theorem acceptedEngine_sbox (v : Variant) (a : Byte) (e : Engine) :
    acceptedEngine (.sbox v a) e =
      { e with bres := sboxFwd v a, done := true, warn := e.warn || decide (v = .k128) } :=
  congrArg (effectOf (.sbox v a)) (clearDone_warnFor_some v e)

theorem acceptedEngine_invsbox (v : Variant) (a : Byte) (e : Engine) :
    acceptedEngine (.invsbox v a) e =
      { e with bres := sboxInv v a, done := true, warn := e.warn || decide (v = .k128) } :=
  congrArg (effectOf (.invsbox v a)) (clearDone_warnFor_some v e)

/-! The tables (R125, R126). -/

/-- The inverse ROM of Original undoes the forward ROM, entry by entry (R125). -/
theorem sboxInv_sboxFwd_original (b : Byte) : sboxInv .original (sboxFwd .original b) = b := by
  revert b; decide

/-- Every variant's inverse table undoes its forward table, but for K128 (R125, R126 (a)). -/
theorem sboxInv_sboxFwd {v : Variant} (hv : v ≠ .k128) (b : Byte) : sboxInv v (sboxFwd v b) = b := by
  cases v with
  | original => exact sboxInv_sboxFwd_original b
  | k4 => exact Config.k4.inv_fwd b
  | k44 => exact Config.k44.inv_fwd b
  | k81 => exact Config.k81.inv_fwd b
  | k111 => exact Config.k111.inv_fwd b
  | k128 => exact absurd rfl hv

/-- Settles O17: acceptance writes the table's value, and the opcode uses VAR and A. -/
theorem sboxCommand : Obligations.SboxCommand := by
  unfold Obligations.SboxCommand
  refine ⟨fun v a => rfl, ?idle, fun v a => exec_busy_next (.sbox v a), ?refused, by decide,
    by decide⟩
  case idle =>
    intro v a s h
    rw [exec_idle h, State.onEngine, acceptedEngine_sbox]
  case refused => exact fun w hop => rejectedWith_of_varAndA hop (by decide) rfl rfl rfl

/-- Settles O18: acceptance writes the table's value, the opcode uses VAR and A, and the table pair of
K128 is the one of R126 (b). -/
theorem invsboxCommand : Obligations.InvsboxCommand := by
  unfold Obligations.InvsboxCommand
  refine ⟨fun v a => rfl, ?idle, fun v a => exec_busy_next (.invsbox v a), ?refused,
    fun v hv => sboxInv_sboxFwd hv, Config.k128.broken, by decide⟩
  case idle =>
    intro v a s h
    rw [exec_idle h, State.onEngine, acceptedEngine_invsbox]
  case refused => exact fun w hop => rejectedWith_of_varAndA hop (by decide) rfl rfl rfl

end Sys2Proof.Machine
end

section
/-! Proofs about the round transforms (43_round_transforms.md): the elements of what each transform makes
(R160–R166), and the block commands SUBBYTES to ADDROUNDKEY (R173–R180). First what these rest on: the
elements of a Block, and the refused words of an opcode without operands and of one with VAR alone. -/

namespace Sys2Proof

/-! Blocks and Words by their elements (R10). -/

theorem ByteWord.ext_get {v w : ByteWord} (h : ∀ r, v.get r = w.get r) : v = w := by
  rw [ByteWord.mk.injEq]
  exact ⟨h 0, h 1, h 2, h 3⟩

/-- Every element of a Word of one repeated byte is that byte. -/
@[simp] theorem ByteWord.get_const (x : Byte) (r : Fin 4) : (ByteWord.mk x x x x).get r = x := by
  fin_cases r <;> rfl

@[simp] theorem ByteWord.get_map (f : Byte → Byte) (w : ByteWord) (r : Fin 4) :
    (w.map f).get r = f (w.get r) := by
  fin_cases r <;> rfl

theorem Block.ext_entry {s t : Block} (h : ∀ r c, s.entry r c = t.entry r c) : s = t := by
  rw [Block.mk.injEq]
  exact ⟨ByteWord.ext_get (h · 0), ByteWord.ext_get (h · 1), ByteWord.ext_get (h · 2),
    ByteWord.ext_get (h · 3)⟩

/-- Byte `4c + r` of a Block is its element `(r, c)` (R10). -/
theorem Block.byte_eq_entry (s : Block) {k : Fin 16} {r c : Fin 4} (h : k.val = 4 * c.val + r.val) :
    s.byte k = s.entry r c := by
  have hr : (⟨k.val % 4, by omega⟩ : Fin 4) = r := Fin.ext (by dsimp only; omega)
  have hc : (⟨k.val / 4, by omega⟩ : Fin 4) = c := Fin.ext (by dsimp only; omega)
  rw [Block.byte, hr, hc]

@[simp] theorem Block.col_map (f : Byte → Byte) (s : Block) (c : Fin 4) :
    (s.map f).col c = (s.col c).map f := by
  fin_cases c <;> rfl

@[simp] theorem Block.entry_map (f : Byte → Byte) (s : Block) (r c : Fin 4) :
    (s.map f).entry r c = f (s.entry r c) := by
  rw [Block.entry, Block.col_map, ByteWord.get_map, Block.entry]

@[simp] theorem Block.byte_map (f : Byte → Byte) (s : Block) (k : Fin 16) :
    (s.map f).byte k = f (s.byte k) :=
  Block.entry_map f s _ _

end Sys2Proof

namespace Sys2Proof.Machine

/-! The refused words of the block commands. -/

/-- A field of a word is 0 when both parts of it are. -/
theorem extractLsb'_add_eq_zero_iff (w : Word) (lo m n : Nat) :
    w.extractLsb' lo (m + n) = 0 ↔ w.extractLsb' lo m = 0 ∧ w.extractLsb' (lo + m) n = 0 := by
  simp [← BitVec.toNat_inj, Nat.shiftRight_eq_div_pow, pow_add, Nat.mod_mul, Nat.div_div_eq_div_mul]

/-- The fields A and B fill the upper half of a word (R81). -/
theorem extractLsb'_operands_eq_zero_iff (w : Word) :
    w.extractLsb' 16 16 = 0 ↔ w.extractLsb' 16 8 = 0 ∧ w.extractLsb' 24 8 = 0 :=
  extractLsb'_add_eq_zero_iff w 16 8 8

/-- The fields VAR, RSV, A and B fill a word above OP (R81). -/
theorem extractLsb'_aboveOp_eq_zero_iff (w : Word) :
    w.extractLsb' 8 24 = 0 ↔ w.extractLsb' 8 3 = 0 ∧ w.extractLsb' 11 5 = 0 ∧
      w.extractLsb' 16 8 = 0 ∧ w.extractLsb' 24 8 = 0 := by
  rw [← extractLsb'_operands_eq_zero_iff, ← extractLsb'_add_eq_zero_iff w 11 5 16]
  exact extractLsb'_add_eq_zero_iff w 8 3 21

/-- The refused words of an opcode that uses no field: everything above OP must be 0 (R85). -/
theorem rejectedWith_of_noOperands {w : Word} {op : BitVec 8} (hop : w.extractLsb' 0 8 = op)
    (husesVar : usesVar op = false) (husesA : usesA op = false) (husesB : usesB op = false)
    (h : w.extractLsb' 8 24 ≠ 0) : Claims.rejectedWith w .illegalCommand := by
  apply rejectedWith_of_unusedField hop
  rw [ne_eq, extractLsb'_aboveOp_eq_zero_iff] at h
  tauto

/-- The refused words of an opcode that uses VAR alone (R85, R86): RSV, A and B must be 0, and then VAR
must name a variant. -/
theorem rejectedWith_of_varOnly {w : Word} {op : BitVec 8} (hop : w.extractLsb' 0 8 = op)
    (hknown : ¬ op > 0x0F) (husesVar : usesVar op = true) (husesA : usesA op = false)
    (husesB : usesB op = false) :
    ((w.extractLsb' 11 5 ≠ 0 ∨ w.extractLsb' 16 16 ≠ 0) →
      Claims.rejectedWith w .illegalCommand) ∧
    (w.extractLsb' 11 5 = 0 → w.extractLsb' 16 16 = 0 →
      (w.extractLsb' 8 3 = 6 ∨ w.extractLsb' 8 3 = 7) → Claims.rejectedWith w .invalidVariant) := by
  rw [ne_eq (w.extractLsb' 16 16), extractLsb'_operands_eq_zero_iff]
  constructor
  · intro hfield
    apply rejectedWith_of_unusedField hop
    tauto
  · rintro hrsv ⟨ha, hb⟩ hvar
    exact rejectedWith_of_unnamedVariant hop hknown husesVar hrsv (.inr ha) (.inr hb) hvar

/-! SubBytes and InvSubBytes (R160, R161), and their commands (R174, R175). -/

theorem subBytes_byte (v : Variant) (s : Block) (k : Fin 16) :
    (subBytes v s).byte k = sboxFwd v (s.byte k) :=
  Block.byte_map _ s k

theorem invSubBytes_byte (v : Variant) (s : Block) (k : Fin 16) :
    (invSubBytes v s).byte k = sboxInv v (s.byte k) :=
  Block.byte_map _ s k

/-- InvSubBytes undoes SubBytes for every variant but K128 (R168). -/
theorem invSubBytes_subBytes {v : Variant} (hv : v ≠ .k128) (s : Block) :
    invSubBytes v (subBytes v s) = s := by
  apply Block.ext_entry
  intro r c
  rw [invSubBytes, subBytes, Block.entry_map, Block.entry_map]
  exact sboxInv_sboxFwd hv _

theorem acceptedEngine_subbytes (v : Variant) (e : Engine) :
    acceptedEngine (.subbytes v) e = { e with
      dout := packed (subBytes v (blockOf e.din)), done := true,
      warn := e.warn || decide (v = .k128) } :=
  congrArg (effectOf (.subbytes v)) (clearDone_warnFor_some v e)

theorem acceptedEngine_invsubbytes (v : Variant) (e : Engine) :
    acceptedEngine (.invsubbytes v) e = { e with
      dout := packed (invSubBytes v (blockOf e.din)), done := true,
      warn := e.warn || decide (v = .k128) } :=
  congrArg (effectOf (.invsubbytes v)) (clearDone_warnFor_some v e)

/-- Settles O19: acceptance writes DIN mapped through the forward table, and the opcode uses VAR alone. -/
theorem subbytesCommand : Obligations.SubbytesCommand := by
  unfold Obligations.SubbytesCommand
  refine ⟨fun v => rfl, ?idle, fun v => exec_busy_next (.subbytes v), ?refused, by decide,
    by decide⟩
  case idle =>
    intro v s h
    refine ⟨packed (subBytes v (blockOf s.engine.din)), ?_, fun k => ?_⟩
    · rw [exec_idle h, State.onEngine, acceptedEngine_subbytes]
    · rw [blockOf_packed, subBytes_byte]
  case refused => exact fun w hop => rejectedWith_of_varOnly hop (by decide) rfl rfl rfl

/-- Settles O20: acceptance writes DIN mapped through the inverse table, the opcode uses VAR alone, and
the inverse is byte by byte that of the tables. -/
theorem invsubbytesCommand : Obligations.InvsubbytesCommand := by
  unfold Obligations.InvsubbytesCommand
  refine ⟨fun v => rfl, ?idle, fun v => exec_busy_next (.invsubbytes v), ?refused,
    fun v hv => invSubBytes_subBytes hv, by decide, by decide⟩
  case idle =>
    intro v s h
    refine ⟨packed (invSubBytes v (blockOf s.engine.din)), ?_, fun k => ?_⟩
    · rw [exec_idle h, State.onEngine, acceptedEngine_invsubbytes]
    · rw [blockOf_packed, invSubBytes_byte]
  case refused => exact fun w hop => rejectedWith_of_varOnly hop (by decide) rfl rfl rfl

/-! ShiftRows and InvShiftRows (R162, R163), and their commands (R176, R177). -/

@[simp] theorem blockOfEntries_entry (f : Fin 4 → Fin 4 → Byte) (r c : Fin 4) :
    (blockOfEntries f).entry r c = f r c := by
  fin_cases c <;> fin_cases r <;> rfl

@[simp] theorem shiftRows_entry (s : Block) (r c : Fin 4) :
    (shiftRows s).entry r c = s.entry r (c + r) :=
  blockOfEntries_entry _ r c

@[simp] theorem invShiftRows_entry (s : Block) (r c : Fin 4) :
    (invShiftRows s).entry r c = s.entry r (c - r) :=
  blockOfEntries_entry _ r c

/-- `P` sends index `4c + r` to `4((c + r) mod 4) + r` (R162). -/
theorem shiftP_index (r c : Fin 4) :
    Claims.shiftP[4 * c.val + r.val]? = some (4 * (c + r).val + r.val) := by
  revert r c; decide

/-- `Q` sends index `4c + r` to `4((c - r) mod 4) + r` (R163). -/
theorem shiftQ_index (r c : Fin 4) :
    Claims.shiftQ[4 * c.val + r.val]? = some (4 * (c - r).val + r.val) := by
  revert r c; decide

theorem exists_row_col (k : Fin 16) : ∃ r c : Fin 4, k.val = 4 * c.val + r.val :=
  ⟨⟨k.val % 4, by omega⟩, ⟨k.val / 4, by omega⟩, (Nat.div_add_mod k.val 4).symm⟩

theorem shiftRows_byte (s : Block) {k j : Fin 16} (h : Claims.shiftP[k.val]? = some j.val) :
    (shiftRows s).byte k = s.byte j := by
  obtain ⟨r, c, hk⟩ := exists_row_col k
  rw [hk, shiftP_index, Option.some.injEq] at h
  rw [Block.byte_eq_entry _ hk, shiftRows_entry, Block.byte_eq_entry _ h.symm]

theorem invShiftRows_byte (s : Block) {k j : Fin 16} (h : Claims.shiftQ[k.val]? = some j.val) :
    (invShiftRows s).byte k = s.byte j := by
  obtain ⟨r, c, hk⟩ := exists_row_col k
  rw [hk, shiftQ_index, Option.some.injEq] at h
  rw [Block.byte_eq_entry _ hk, invShiftRows_entry, Block.byte_eq_entry _ h.symm]

theorem shiftRows_of_constRows {s : Block} (h : ∀ r c, s.entry r c = s.entry r 0) :
    shiftRows s = s := by
  apply Block.ext_entry
  intro r c
  rw [shiftRows_entry, h r (c + r), h r c]

theorem invShiftRows_shiftRows (s : Block) : invShiftRows (shiftRows s) = s := by
  apply Block.ext_entry
  intro r c
  rw [invShiftRows_entry, shiftRows_entry, sub_add_cancel]

/-- Settles O21: DOUT is the shifted DIN, element by element and so byte by byte. -/
theorem shiftrowsCommand : Obligations.ShiftrowsCommand := by
  unfold Obligations.ShiftrowsCommand
  refine ⟨rfl, ?idle, exec_busy_next .shiftrows, ?refused, fun b => shiftRows_of_constRows,
    by decide⟩
  case idle =>
    intro s h
    refine ⟨packed (shiftRows (blockOf s.engine.din)), exec_idle h .shiftrows, ?_⟩
    rw [blockOf_packed]
    exact ⟨shiftRows_entry _, fun k j => shiftRows_byte _⟩
  case refused => exact fun w hop => rejectedWith_of_noOperands hop rfl rfl rfl

/-- Settles O22: DOUT is DIN shifted back, element by element and so byte by byte, and the two shifts
of a column index cancel. -/
theorem invshiftrowsCommand : Obligations.InvshiftrowsCommand := by
  unfold Obligations.InvshiftrowsCommand
  refine ⟨rfl, ?idle, exec_busy_next .invshiftrows, ?refused, invShiftRows_shiftRows, by decide⟩
  case idle =>
    intro s h
    refine ⟨packed (invShiftRows (blockOf s.engine.din)), exec_idle h .invshiftrows, ?_⟩
    rw [blockOf_packed]
    exact ⟨invShiftRows_entry _, fun k j => invShiftRows_byte _⟩
  case refused => exact fun w hop => rejectedWith_of_noOperands hop rfl rfl rfl

/-! MixColumns and InvMixColumns (R164, R165), and their commands (R178, R179). -/

theorem two_gfMul (x : Byte) : gfMul 0x02 x = gfDouble x :=
  (gfMul_gfDouble_left 1 x).trans (congrArg gfDouble (one_gfMul x))

theorem three_gfMul (x : Byte) : gfMul 0x03 x = gfTriple x := by
  rw [show (0x03 : Byte) = 0x02 ^^^ 0x01 from rfl, gfMul_xor_left, two_gfMul, one_gfMul, gfTriple]

/-- Row `r` of the circulant matrix of 02 03 01 01 (R164). -/
theorem mixColumn_get (a : ByteWord) (r : Fin 4) :
    (mixColumn a).get r =
      gfMul 0x02 (a.get r) ^^^ gfMul 0x03 (a.get (r + 1)) ^^^ a.get (r + 2) ^^^ a.get (r + 3) := by
  rw [two_gfMul, three_gfMul]
  fin_cases r <;> simp [mixColumn, ByteWord.get] <;> ac_rfl

/-- Row `r` of the circulant matrix of 0E 0B 0D 09 (R165). -/
theorem invMixColumn_get (a : ByteWord) (r : Fin 4) :
    (invMixColumn a).get r =
      gfMul 0x0E (a.get r) ^^^ gfMul 0x0B (a.get (r + 1)) ^^^ gfMul 0x0D (a.get (r + 2)) ^^^
        gfMul 0x09 (a.get (r + 3)) := by
  fin_cases r <;> simp [invMixColumn, ByteWord.get] <;> ac_rfl

@[simp] theorem mixColumns_col (s : Block) (c : Fin 4) :
    (mixColumns s).col c = mixColumn (s.col c) := by
  fin_cases c <;> rfl

@[simp] theorem invMixColumns_col (s : Block) (c : Fin 4) :
    (invMixColumns s).col c = invMixColumn (s.col c) := by
  fin_cases c <;> rfl

theorem mixColumns_entry (s : Block) (r c : Fin 4) :
    (mixColumns s).entry r c =
      gfMul 0x02 (s.entry r c) ^^^ gfMul 0x03 (s.entry (r + 1) c) ^^^ s.entry (r + 2) c ^^^
        s.entry (r + 3) c := by
  rw [Block.entry, mixColumns_col]
  exact mixColumn_get (s.col c) r

theorem invMixColumns_entry (s : Block) (r c : Fin 4) :
    (invMixColumns s).entry r c =
      gfMul 0x0E (s.entry r c) ^^^ gfMul 0x0B (s.entry (r + 1) c) ^^^
        gfMul 0x0D (s.entry (r + 2) c) ^^^ gfMul 0x09 (s.entry (r + 3) c) := by
  rw [Block.entry, invMixColumns_col]
  exact invMixColumn_get (s.col c) r

/-- A column of one repeated byte stays: the coefficients 02, 03, 01, 01 add up to 01. -/
theorem mixColumn_const (x : Byte) : mixColumn ⟨x, x, x, x⟩ = ⟨x, x, x, x⟩ := by
  apply ByteWord.ext_get
  intro r
  have hsum : gfMul (0x02 ^^^ 0x03 ^^^ 0x01 ^^^ 0x01) x = x := one_gfMul x
  simpa only [mixColumn_get, ByteWord.get_const, gfMul_xor_left, one_gfMul] using hsum

/-- A column of one repeated byte stays: the coefficients 0E, 0B, 0D, 09 add up to 01. -/
theorem invMixColumn_const (x : Byte) : invMixColumn ⟨x, x, x, x⟩ = ⟨x, x, x, x⟩ := by
  apply ByteWord.ext_get
  intro r
  have hsum : gfMul (0x0E ^^^ 0x0B ^^^ 0x0D ^^^ 0x09) x = x := one_gfMul x
  simpa only [invMixColumn_get, ByteWord.get_const, gfMul_xor_left] using hsum

/-- Settles O23: DOUT is the mixed DIN, row by row of the matrix. -/
theorem mixcolumnsCommand : Obligations.MixcolumnsCommand := by
  unfold Obligations.MixcolumnsCommand
  refine ⟨rfl, ?idle, exec_busy_next .mixcolumns, ?refused, by decide, mixColumn_const, by decide,
    by decide⟩
  case idle =>
    intro s h
    refine ⟨packed (mixColumns (blockOf s.engine.din)), exec_idle h .mixcolumns, ?_⟩
    rw [blockOf_packed]
    exact mixColumns_entry _
  case refused => exact fun w hop => rejectedWith_of_noOperands hop rfl rfl rfl

/-- Settles O24: DOUT is DIN mixed by the inverse matrix, row by row. -/
theorem invmixcolumnsCommand : Obligations.InvmixcolumnsCommand := by
  unfold Obligations.InvmixcolumnsCommand
  refine ⟨rfl, ?idle, exec_busy_next .invmixcolumns, ?refused, invMixColumn_const, by decide,
    by decide⟩
  case idle =>
    intro s h
    refine ⟨packed (invMixColumns (blockOf s.engine.din)), exec_idle h .invmixcolumns, ?_⟩
    rw [blockOf_packed]
    exact invMixColumns_entry _
  case refused => exact fun w hop => rejectedWith_of_noOperands hop rfl rfl rfl

/-! AddRoundKey (R166), and its command (R180). -/

/-- Byte by byte on Blocks, AddRoundKey is word by word on registers. -/
theorem packed_addRoundKey_blockOf (g k : Regs4) :
    packed (addRoundKey (blockOf g) (blockOf k)) =
      ⟨g.r0 ^^^ k.r0, g.r1 ^^^ k.r1, g.r2 ^^^ k.r2, g.r3 ^^^ k.r3⟩ := by
  simp only [packed, addRoundKey, Block.xor, blockOf, b2w_xor, b2w_w2b]

theorem acceptedEngine_addroundkey (e : Engine) :
    acceptedEngine .addroundkey e = { e with
      dout := ⟨e.din.r0 ^^^ e.key.r0, e.din.r1 ^^^ e.key.r1, e.din.r2 ^^^ e.key.r2,
        e.din.r3 ^^^ e.key.r3⟩,
      done := true } := by
  rw [← packed_addRoundKey_blockOf]
  rfl

/-- Settles O25: DOUT is the exclusive-or of two register groups, so a key of 0 copies DIN and a key
equal to DIN cancels it. -/
theorem addroundkeyCommand : Obligations.AddroundkeyCommand := by
  unfold Obligations.AddroundkeyCommand
  refine ⟨rfl, ?idle, exec_busy_next .addroundkey, ?refused, by decide⟩
  case idle =>
    intro s h
    rw [exec_idle h, State.onEngine, acceptedEngine_addroundkey]
    refine ⟨rfl, fun hkey => ⟨_, rfl, ?_⟩, fun hkey => ⟨_, rfl, ?_⟩⟩
    · simp only [hkey, BitVec.ofNat_eq_ofNat, BitVec.xor_zero]
    · simp only [hkey, BitVec.xor_self, BitVec.ofNat_eq_ofNat]
  case refused => exact fun w hop => rejectedWith_of_noOperands hop rfl rfl rfl

end Sys2Proof.Machine
end

section
/-! Proofs about the sequencer (44_cipher_sequencer.md): the acceptance of a multi-step command (R194),
the KX, ENC and DEC steps (R201–R208), and that a running command depends only on what its acceptance
latched (R198). Before each group, the rules it rests on. -/

namespace Sys2Proof.Machine

/-! Acceptance of the multi-step commands (R194). -/

/-- RK after its first four words are written, as a vector. -/
theorem rkSetGroup_zero_getElem (rk : RoundKeys) (g : Regs4) (i : Fin 44) :
    (rkSetGroup rk 0 g)[i] = if h : i.val < 4 then g.get ⟨i.val, h⟩ else rk[i] := by
  have hword : (rkSetGroup rk 0 g)[i] = rkWord (rkSetGroup rk 0 g) i.val :=
    (rkWord_eq_getElem _ i.val i.isLt).symm
  rw [hword, rkWord_setGroup _ _ _ _ (by decide)]
  obtain ⟨i, hi⟩ := i
  rcases i with _ | _ | _ | _ | i
  case succ.succ.succ.succ => simp [rkWord_eq_getElem rk (i + 4) hi]
  all_goals rfl

theorem acceptedEngine_expand (v : Variant) (e : Engine) :
    acceptedEngine (.expand v) e = { e with
      rk := rkSetGroup e.rk 0 e.key, lop := 0x01, lvar := v.code, rnd := 1, phase := .kx,
      done := false, warn := e.warn || decide (v = .k128) } :=
  congrArg (effectOf (.expand v)) (clearDone_warnFor_some v e)

theorem acceptedEngine_encrypt (v : Variant) (e : Engine) :
    acceptedEngine (.encrypt v) e = { e with
      rk := rkSetGroup e.rk 0 e.key, st := blockOf e.din, lop := 0x02, lvar := v.code, rnd := 1,
      phase := .kx, done := false, warn := e.warn || decide (v = .k128) } :=
  congrArg (effectOf (.encrypt v)) (clearDone_warnFor_some v e)

theorem acceptedEngine_decrypt (v : Variant) (e : Engine) :
    acceptedEngine (.decrypt v) e = { e with
      rk := rkSetGroup e.rk 0 e.key, st := blockOf e.din, lop := 0x03, lvar := v.code, rnd := 1,
      phase := .kx, done := false, warn := e.warn || decide (v = .k128) } :=
  congrArg (effectOf (.decrypt v)) (clearDone_warnFor_some v e)

/-- Settles O26: the three acceptances latch KEY into the same group of RK, and EXPAND alone leaves
ST. -/
theorem multiStepAcceptance : Obligations.MultiStepAcceptance := by
  unfold Obligations.MultiStepAcceptance
  intro v s hidle
  refine ⟨rkSetGroup s.engine.rk 0 s.engine.key, rkSetGroup_zero_getElem _ _,
    ?expand, ?encrypt, ?decrypt⟩
  case expand => rw [exec_idle hidle, State.onEngine, acceptedEngine_expand]
  case encrypt => rw [exec_idle hidle, State.onEngine, acceptedEngine_encrypt]
  case decrypt => rw [exec_idle hidle, State.onEngine, acceptedEngine_decrypt]

/-! The KX steps (R201, R202). -/

/-- The words of the round key before round `r`'s, by the indexes of R201. -/
theorem rkGroup_pred (rk : RoundKeys) {r : Nat} (h : 1 ≤ r) :
    rkGroup rk (r - 1) =
      ⟨rkWord rk (4 * r - 4), rkWord rk (4 * r - 3), rkWord rk (4 * r - 2), rkWord rk (4 * r - 1)⟩ := by
  obtain ⟨n, rfl⟩ := Nat.exists_eq_add_of_le' h
  rfl

/-- A KX step writes the next round key (R201). -/
theorem rkGroup_kxEngine_same (v : Variant) {r : Nat} (hr : r ≤ 10) (e : Engine) :
    rkGroup (kxEngine v r e).rk r = nextRoundKey v r (rkGroup e.rk (r - 1)) :=
  rkGroup_setGroup_same _ _ _ hr

/-- A KX step leaves the words of every other round key (R201). -/
theorem rkWord_kxEngine_ne (v : Variant) {r i : Nat} (hr : r ≤ 10) (hi : i / 4 ≠ r) (e : Engine) :
    rkWord (kxEngine v r e).rk i = rkWord e.rk i := by
  rw [kxEngine, rkWord_setGroup _ _ _ _ hr, if_neg (by omega), if_neg (by omega), if_neg (by omega),
    if_neg (by omega)]

/-- The recurrence of R201, word by word. -/
theorem rkWord_kxEngine_same (v : Variant) {r : Nat} (h1 : 1 ≤ r) (hr : r ≤ 10) (e : Engine) :
    rkWord (kxEngine v r e).rk (4 * r) = rkWord e.rk (4 * r - 4) ^^^
      b2w (subWord v (w2b (rotWord32 (rkWord e.rk (4 * r - 1))))) ^^^ ((rcon r).setWidth 32 <<< 24) ∧
    rkWord (kxEngine v r e).rk (4 * r + 1) =
      rkWord e.rk (4 * r - 3) ^^^ rkWord (kxEngine v r e).rk (4 * r) ∧
    rkWord (kxEngine v r e).rk (4 * r + 2) =
      rkWord e.rk (4 * r - 2) ^^^ rkWord (kxEngine v r e).rk (4 * r + 1) ∧
    rkWord (kxEngine v r e).rk (4 * r + 3) =
      rkWord e.rk (4 * r - 1) ^^^ rkWord (kxEngine v r e).rk (4 * r + 2) := by
  have hgroup := rkGroup_kxEngine_same v hr e
  rw [rkGroup_pred e.rk h1, rkGroup, nextRoundKey, Regs4.mk.injEq] at hgroup
  obtain ⟨hw0, hw1, hw2, hw3⟩ := hgroup
  rw [hw1, hw2, hw3, hw0]
  exact ⟨rfl, rfl, rfl, rfl⟩

theorem kxLast_expand {t : Engine} (h : t.lop = 0x01) : kxLast t = .ok (t.complete, true) := by
  simp [kxLast, h, completes]

theorem kxLast_encrypt {t : Engine} (h : t.lop = 0x02) :
    kxLast t = .ok ({ t with phase := .enc, rnd := 0 }, false) := by
  simp [kxLast, h, goesOn]

theorem kxLast_decrypt {t : Engine} (h : t.lop = 0x03) :
    kxLast t = .ok ({ t with phase := .dec, rnd := 10 }, false) := by
  simp [kxLast, h, goesOn]

/-- A KX step writes RK as R201 says, and goes on, completes or starts the cipher phase as RND and LOP
say (R201, R202). -/
theorem seqStep_kx {s : Engine} {v : Variant} (hp : s.phase = .kx)
    (hv : Variant.ofCode s.lvar = some v) (h1 : 1 ≤ s.rnd.toNat) (h10 : s.rnd.toNat ≤ 10)
    (hlop : s.lop = 0x01 ∨ s.lop = 0x02 ∨ s.lop = 0x03) :
    ∃ t b, seqStep s = .ok (t, b) ∧ t.rk = (kxEngine v s.rnd.toNat s).rk ∧
      (s.rnd.toNat < 10 → b = false ∧ t = { s with rk := t.rk, rnd := s.rnd + 1 }) ∧
      (s.rnd.toNat = 10 → s.lop = 0x01 →
        b = true ∧ t = { s with rk := t.rk, phase := .idle, rnd := 0, done := true }) ∧
      (s.rnd.toNat = 10 → s.lop = 0x02 →
        b = false ∧ t = { s with rk := t.rk, phase := .enc, rnd := 0 }) ∧
      (s.rnd.toNat = 10 → s.lop = 0x03 →
        b = false ∧ t = { s with rk := t.rk, phase := .dec, rnd := 10 }) := by
  rcases h10.lt_or_eq with hlt | hlast
  · refine ⟨_, _, seqStep_kx_mid hp hv h1 hlt, rfl, fun _ => ⟨rfl, rfl⟩, ?_, ?_, ?_⟩ <;> omega
  · have hstep := seqStep_kx_last hp hv (rnd_eq_ten hlast)
    rw [hlast]
    rcases hlop with hl | hl | hl
    · rw [kxLast_expand (t := kxEngine v 10 s) hl] at hstep
      exact ⟨_, _, hstep, rfl, by simp, fun _ _ => ⟨rfl, rfl⟩, by simp [hl], by simp [hl]⟩
    · rw [kxLast_encrypt (t := kxEngine v 10 s) hl] at hstep
      exact ⟨_, _, hstep, rfl, by simp, by simp [hl], fun _ _ => ⟨rfl, rfl⟩, by simp [hl]⟩
    · rw [kxLast_decrypt (t := kxEngine v 10 s) hl] at hstep
      exact ⟨_, _, hstep, rfl, by simp, by simp [hl], by simp [hl], fun _ _ => ⟨rfl, rfl⟩⟩

/-- Settles O27: whichever way the step ends, its RK is the one of `kxEngine`. -/
theorem keyExpansionStep : Obligations.KeyExpansionStep := by
  unfold Obligations.KeyExpansionStep
  rintro s v r hp rfl h1 h10 hv hlop
  obtain ⟨t, b, hstep, hrk, hends⟩ := seqStep_kx hp hv h1 h10 hlop
  obtain ⟨hw0, hw1, hw2, hw3⟩ := rkWord_kxEngine_same v h1 h10 s
  rw [← hrk] at hw0 hw1 hw2 hw3
  refine ⟨t, b, hstep, hw0, hw1, hw2, hw3, fun i hi => ?_, hends⟩
  rw [hrk, rkWord_kxEngine_ne v h10 hi]

/-! The ENC and DEC steps (R203–R208). -/

/-- Settles O28: the three rows of R203, R204 and R205. -/
theorem encryptionStep : Obligations.EncryptionStep := by
  unfold Obligations.EncryptionStep
  intro s v hp hv
  exact ⟨seqStep_enc_first hp, seqStep_enc_mid hp hv, seqStep_enc_last hp hv⟩

/-- Settles O29: the three rows of R206, R207 and R208. -/
theorem decryptionStep : Obligations.DecryptionStep := by
  unfold Obligations.DecryptionStep
  intro s v hp hv
  exact ⟨seqStep_dec_first hp, seqStep_dec_mid hp hv, seqStep_dec_last hp hv⟩

/-! What a step reads (R198). -/

/-- The engine `f` with the sequencer's state of `e`: PHASE, RND, LOP, LVAR, ST and RK (R198). -/
def Engine.withSequencerOf (f e : Engine) : Engine :=
  { f with phase := e.phase, rnd := e.rnd, lop := e.lop, lvar := e.lvar, st := e.st, rk := e.rk }

theorem Engine.withSequencerOf_eq_self_iff {e f : Engine} :
    f.withSequencerOf e = f ↔ f.phase = e.phase ∧ f.rnd = e.rnd ∧ f.lop = e.lop ∧ f.lvar = e.lvar ∧
      f.st = e.st ∧ f.rk = e.rk := by
  constructor
  · intro h
    rw [← h]
    exact ⟨rfl, rfl, rfl, rfl, rfl, rfl⟩
  · rintro ⟨hphase, hrnd, hlop, hlvar, hst, hrk⟩
    rw [withSequencerOf, ← hphase, ← hrnd, ← hlop, ← hlvar, ← hst, ← hrk]

/-- What a step makes of the engine `f` with the sequencer's state of `e`, when it makes `p.1` of `e` and
answers `doneSet = p.2`: outside the sequencer's state, DONE is set at a completion, and DOUT is written
at the completion of a cipher phase. -/
def steppedLike (cipherPhase : Bool) (f : Engine) (p : Engine × Bool) : Engine × Bool :=
  ({ f.withSequencerOf p.1 with
      done := if p.2 then true else f.done
      dout := if p.2 && cipherPhase then p.1.dout else f.dout }, p.2)

/-! The steps of a phase, with the change of engine moved into their branches: the conditions read RND, LOP
and LVAR, and each branch writes what it computes from ST and RK. -/

theorem withLvar_map (e : Engine) (k : Variant → StepResult) (g : Engine × Bool → Engine × Bool) :
    (withLvar e k).map g = withLvar e fun v => (k v).map g := by
  unfold withLvar
  cases Variant.ofCode e.lvar <;> rfl

theorem kxLast_withSequencerOf (f e : Engine) :
    kxLast (f.withSequencerOf e) = (kxLast e).map (steppedLike false f) := by
  simp only [kxLast, apply_ite (Except.map (steppedLike false f))]
  rfl

theorem kxStep_withSequencerOf (f e : Engine) :
    kxStep (f.withSequencerOf e) = (kxStep e).map (steppedLike false f) := by
  simp only [kxStep, apply_ite (Except.map (steppedLike false f)), withLvar_map,
    ← kxLast_withSequencerOf]
  rfl

theorem encStep_withSequencerOf (f e : Engine) :
    encStep (f.withSequencerOf e) = (encStep e).map (steppedLike true f) := by
  simp only [encStep, apply_ite (Except.map (steppedLike true f)), withLvar_map]
  rfl

theorem decStep_withSequencerOf (f e : Engine) :
    decStep (f.withSequencerOf e) = (decStep e).map (steppedLike true f) := by
  simp only [decStep, apply_ite (Except.map (steppedLike true f)), withLvar_map]
  rfl

/-- The step of a busy engine reads nothing but the sequencer's state (R198). -/
theorem seqStep_withSequencerOf {e : Engine} (hbusy : e.phase ≠ .idle) (f : Engine) :
    seqStep (f.withSequencerOf e) =
      (seqStep e).map (steppedLike (decide (e.phase ≠ .kx)) f) := by
  have hphase : (f.withSequencerOf e).phase = e.phase := rfl
  rw [seqStep, hphase, seqStep]
  cases hp : e.phase with
  | idle => exact absurd hp hbusy
  | kx => exact kxStep_withSequencerOf f e
  | enc => exact encStep_withSequencerOf f e
  | dec => exact decStep_withSequencerOf f e

/-- A step that takes a busy engine to IDLE completes its command (R200). -/
theorem seqStep_completes_of_idle {e e' : Engine} {b : Bool} (h : seqStep e = .ok (e', b))
    (hbusy : e.phase ≠ .idle) (hidle : e'.phase = .idle) : b = true := by
  by_contra hb
  obtain ⟨-, -, hphase⟩ := (seqStep_completion h).2 (Bool.eq_false_iff.mpr hb)
  exact hbusy (hphase.mp hidle)

/-- The steps of two busy engines with the same sequencer's state: they leave the same sequencer's state
and answer the same `doneSet`, and a completion sets DONE, and writes the same DOUT at the end of a cipher
phase. -/
theorem seqStep_sameSequencer {e f e' : Engine} {b : Bool} (hbusy : e.phase ≠ .idle)
    (hsame : f.withSequencerOf e = f) (h : seqStep e = .ok (e', b)) :
    ∃ f', seqStep f = .ok (f', b) ∧ f'.withSequencerOf e' = f' ∧
      (b = true → f'.done = true ∧ (e.phase ≠ .kx → f'.dout = e'.dout)) := by
  have hstep := seqStep_withSequencerOf hbusy f
  rw [hsame, h] at hstep
  refine ⟨_, hstep, rfl, ?_⟩
  rintro rfl
  exact ⟨rfl, fun hcipher => by simp [hcipher]⟩

/-- The host's access leaves a busy engine's sequencer's state (R57, R198). -/
theorem accessEngine_busy_withSequencerOf {e f : Engine} (h : f.withSequencerOf e = f)
    (acc acc' : Access) (b : Bool) :
    (accessEngine acc' true b f).withSequencerOf (accessEngine acc true b e) =
      accessEngine acc' true b f := by
  obtain ⟨hphase, hrnd, hlop, hlvar, hst, hrk⟩ := Engine.withSequencerOf_eq_self_iff.mp h
  have hframe := accessEngine_busy_frame acc b e
  have hframe' := accessEngine_busy_frame acc' b f
  rw [Engine.withSequencerOf_eq_self_iff]
  simp only [hframe, hframe', hphase, hrnd, hlop, hlvar, hst, hrk, and_self]

/-- Settles O30: the sequencer makes the same of both machines, and the accesses of their hosts to a busy
engine leave what the statement speaks of. -/
theorem stepReadsOnlySequencerState : Obligations.StepReadsOnlySequencerState := by
  unfold Obligations.StepReadsOnlySequencerState
  intro s₁ s₂ t₁ hcycle₁ hcycle₂ hbusy₁ hphase hrnd hlop hlvar hst hrk hstep
  have hbusy₂ : s₂.engine.phase ≠ .idle := hphase ▸ hbusy₁
  have hsame := Engine.withSequencerOf_eq_self_iff.mpr ⟨hphase, hrnd, hlop, hlvar, hst, hrk⟩
  obtain ⟨e₁, b, hseq₁, rfl⟩ := step_atCycle_next hcycle₁ hstep
  obtain ⟨e₂, hseq₂, hsame', hcompletes⟩ := seqStep_sameSequencer hbusy₁ hsame hseq₁
  refine ⟨_, step_atCycle hcycle₂ hseq₂, ?_⟩
  rw [Engine.busy_of_ne hbusy₁, Engine.busy_of_ne hbusy₂]
  obtain ⟨hphase', hrnd', hlop', hlvar', hst', hrk'⟩ := Engine.withSequencerOf_eq_self_iff.mp
    (accessEngine_busy_withSequencerOf hsame' s₁.access s₂.access b)
  refine ⟨hphase', hrnd', hlop', hlvar', hst', hrk', fun hidle => ?_⟩
  obtain ⟨hdout₁, -, -, -, hphase₁, -, -, -, hdone₁⟩ := accessEngine_busy_frame s₁.access b e₁
  obtain ⟨hdout₂, -, -, -, -, -, -, -, hdone₂⟩ := accessEngine_busy_frame s₂.access b e₂
  obtain rfl : b = true := seqStep_completes_of_idle hseq₁ hbusy₁ (hphase₁.symm.trans hidle)
  obtain ⟨-, -, -, hdone⟩ := (seqStep_completion hseq₁).1 rfl
  obtain ⟨hdone', hdout'⟩ := hcompletes rfl
  exact ⟨(hdone₁ rfl).trans hdone, (hdone₂ rfl).trans hdone', fun hcipher =>
    (hdout₂.trans (hdout' hcipher)).trans hdout₁.symm⟩

end Sys2Proof.Machine
end

section
/-! Proofs about the control commands (45_control.md): NOP (R230) and CLEAR (R231). First the engine each
leaves behind, what CLEAR leaves a bus read to see, and STATUS of an engine that has completed a command
and has nothing to report. -/

namespace Sys2Proof.Machine

/-- STATUS reads 2 when DONE alone is set (R26). -/
theorem statusWord_eq_two {e : Engine} (hidle : e.phase = .idle) (hdone : e.done = true)
    (herr : e.err = false) (hwarn : e.warn = false) (hcode : e.errcode = 0) :
    e.statusWord = 0x00000002 := by
  apply BitVec.eq_of_toNat_eq
  rw [statusWord_toNat, Engine.busy_idle hidle, hdone, herr, hwarn, hcode]
  rfl

theorem acceptedEngine_nop (e : Engine) : acceptedEngine .nop e = { e with done := true } := rfl

theorem acceptedEngine_clear (e : Engine) :
    acceptedEngine .clear e = { e with
      key := ⟨0, 0, 0, 0⟩, din := ⟨0, 0, 0, 0⟩, dout := ⟨0, 0, 0, 0⟩, bres := 0,
      rk := Vector.replicate 44 0,
      st := ⟨⟨0, 0, 0, 0⟩, ⟨0, 0, 0, 0⟩, ⟨0, 0, 0, 0⟩, ⟨0, 0, 0, 0⟩⟩,
      rnd := 0, lop := 0x00, lvar := 0, done := true } := rfl

/-- Every register of a zero group reads 0 (R41). -/
@[simp] theorem zeroRegs_get (i : Fin 4) : zeroRegs.get i = 0 := by
  revert i; decide

/-- An erased engine shows 0 in every register but STATUS, CTRL and ID (R231). -/
theorem readReg_erase (e : Engine) {r : RegName} (hr : r ∉ [.status, .ctrl, .id]) :
    e.erase.readReg r = 0 := by
  cases r with
  | status => simp at hr
  | ctrl => simp at hr
  | id => simp at hr
  | cmd => rfl
  | bres => rfl
  | key i => exact zeroRegs_get i
  | din i => exact zeroRegs_get i
  | dout i => exact zeroRegs_get i
  | rk i => simp [Engine.readReg]

/-- DONE shows in STATUS alone (R26). -/
theorem readReg_setDone (e : Engine) {r : RegName} (hr : r ≠ .status) :
    e.setDone.readReg r = e.readReg r := by
  cases r with
  | status => exact absurd rfl hr
  | _ => rfl

/-- After CLEAR every address but those of STATUS, CTRL and ID reads 0, mapped or not (R56, R231). -/
theorem readValue_acceptedEngine_clear (e : Engine) {a : Addr}
    (ha : regAt a ∉ [some .status, some .ctrl, some .id]) :
    (acceptedEngine .clear e).readValue a = 0 := by
  unfold Engine.readValue
  cases hreg : regAt a with
  | none => rfl
  | some r =>
    have hr : r ∉ [.status, .ctrl, .id] := by simpa [hreg] using ha
    have hstatus : r ≠ .status := fun h => hr (by simp [h])
    exact (readReg_setDone _ hstatus).trans (readReg_erase _ hr)

/-- Settles O14: acceptance erases the key and data state and completes, and the opcode uses no field. -/
theorem clearCommand : Obligations.ClearCommand := by
  unfold Obligations.ClearCommand
  refine ⟨rfl, ?idle, exec_busy_next .clear, ?refused⟩
  case idle =>
    intro s hidle
    refine ⟨_, exec_idle hidle .clear, ?_, fun a ha => readValue_acceptedEngine_clear _ ha, ?status⟩
    · rw [State.onEngine, acceptedEngine_clear]
    case status =>
      intro herr hwarn hcode
      exact (readValue_status _).trans (statusWord_eq_two hidle rfl herr hwarn hcode)
  case refused => exact fun w hop => rejectedWith_of_noOperands hop rfl rfl rfl

/-- Settles O13: acceptance sets DONE alone, so with IE_DONE the next cycle shows `irq`, and the word 0 is
the command's one encoding. -/
theorem nopCommand : Obligations.NopCommand := by
  unfold Obligations.NopCommand
  refine ⟨rfl, fun w => decode_eq_legal_iff, ?idle, exec_busy_next .nop, ?refused, ?fromReset⟩
  case idle =>
    intro s hidle
    refine ⟨exec_idle hidle .nop, fun hie => ⟨_, exec_idle hidle .nop, fun u hrst hedge hu => ?_⟩⟩
    rw [step_atCycle_irq ⟨hrst, hedge⟩ hu, State.onEngine_engine, acceptedEngine_nop]
    simp [Engine.irq, hie]
  case refused => exact fun w hop => rejectedWith_of_noOperands hop rfl rfl rfl
  case fromReset => exact ⟨_, rfl, by decide⟩

end Sys2Proof.Machine
end

section
/-! Proofs about the errors and the flags (60_exceptions.md): a rejection changes ERR and ERRCODE alone
(R244), the order of the error codes (R245), and what every step does to ERR, ERRCODE (R246) and WARN
(R249). First the step of each event that writes one of these flags, and the inversion of a step into
these events. -/

namespace Sys2Proof.Machine

/-! The steps that write ERR, ERRCODE or WARN. -/

/-- In IDLE the step that is due leaves the engine (R60). -/
theorem eq_of_seqStep_idle {s e : Engine} {b : Bool} (hidle : s.phase = .idle)
    (hs : seqStep s = .ok (e, b)) : e = s := by
  rw [seqStep_idle hidle] at hs
  cases hs
  rfl

/-- The step at which a CMD write is rejected (R244, R245). -/
theorem step_rejects {s : State} {c : ErrCode} (h : s.rejects c) {e : Engine} {b : Bool}
    (hs : seqStep s.engine = .ok (e, b)) : step s = .next (s.afterEdge (e.raise c)) := by
  obtain ⟨d, ⟨addr, hreg, hp⟩, ⟨hbusy, rfl⟩ | ⟨hidle, hd⟩⟩ := h
  · rw [step_presents hp hs, Engine.busy_of_ne hbusy, accessEngine_cmd_busy hreg]
  · rw [step_presents hp hs, Engine.busy_idle hidle, accessEngine_cmd_notBusy hreg,
      commandedEngine_reject hd]

/-- A step taken in reset leaves the reset engine (R270). -/
theorem engine_of_resets {s t : State} (hst : step s = .next t) (h : s.resets) :
    t.engine = Engine.reset := by
  obtain ⟨rest, hfall⟩ | ⟨hrst, hedge⟩ := h
  · rw [step_rstFall hfall] at hst
    cases hst
    rfl
  · rw [step_inReset hedge hrst] at hst
    cases hst
    rfl

theorem engine_of_accepts {s t : State} (hst : step s = .next t) {i : Instr} (h : s.accepts i) :
    t.engine = acceptedEngine i s.engine := by
  rw [step_accepts h] at hst
  cases hst
  rfl

theorem engine_of_rejects {s t : State} (hst : step s = .next t) {c : ErrCode} (h : s.rejects c) :
    ∃ e b, seqStep s.engine = .ok (e, b) ∧ t.engine = e.raise c := by
  have hcycle : s.atCycle := by
    obtain ⟨d, hw, -⟩ := h
    exact (writesReg_access hw).1
  obtain ⟨e, b, hs, -⟩ := step_atCycle_next hcycle hst
  rw [step_rejects h hs] at hst
  cases hst
  exact ⟨e, b, hs, rfl⟩

theorem engine_of_writesStatus {s t : State} (hst : step s = .next t) {d : Word}
    (h : s.writesReg .status d) :
    ∃ e b, seqStep s.engine = .ok (e, b) ∧ t.engine = e.statusWrite b d := by
  obtain ⟨e, b, hs, -⟩ := step_atCycle_next (writesReg_access h).1 hst
  rw [step_writesReg_status h hs] at hst
  cases hst
  exact ⟨e, b, hs, rfl⟩

/-- A CMD write is an acceptance or a rejection (R192, R245). -/
theorem accepts_or_rejects {s : State} {d : Word} (hw : s.writesReg .cmd d) :
    (∃ i, s.accepts i) ∨ ∃ c, s.rejects c := by
  by_cases hidle : s.engine.phase = .idle
  · cases hd : decode d with
    | legal i => exact .inl ⟨i, hidle, d, hd, hw⟩
    | reject c => exact .inr ⟨c, d, hw, .inr ⟨hidle, hd⟩⟩
  · exact .inr ⟨_, d, hw, .inl ⟨hidle, rfl⟩⟩

/-! The flags ERR, ERRCODE and WARN. -/

/-- `f` shows the same ERR, ERRCODE and WARN as `e`. -/
structure Engine.SameReports (e f : Engine) : Prop where
  err : f.err = e.err
  errcode : f.errcode = e.errcode
  warn : f.warn = e.warn

theorem Engine.SameReports.trans {e f g : Engine} (hef : e.SameReports f) (hfg : f.SameReports g) :
    e.SameReports g :=
  ⟨hfg.err.trans hef.err, hfg.errcode.trans hef.errcode, hfg.warn.trans hef.warn⟩

/-- The sequencer's steps leave ERR, ERRCODE and WARN (R198). -/
theorem seqStep_sameReports {e e' : Engine} {b : Bool} (h : seqStep e = .ok (e', b)) :
    e.SameReports e' := by
  obtain ⟨-, -, -, herr, hwarn, hcode, -⟩ := seqStep_frame h
  exact ⟨herr, hcode, hwarn⟩

/-- An access that is no write to CMD or STATUS leaves the flags (R57). -/
theorem accessEngine_sameReports {acc : Access}
    (hcmd : ∀ a d, acc = .write a d → regAt a ≠ some .cmd)
    (hstatus : ∀ a d, acc = .write a d → regAt a ≠ some .status) (busy0 doneSet : Bool)
    (e : Engine) : e.SameReports (accessEngine acc busy0 doneSet e) := by
  cases acc with
  | noAccess => exact ⟨rfl, rfl, rfl⟩
  | read a => exact ⟨rfl, rfl, rfl⟩
  | write a d =>
    cases hr : regAt a with
    | none => simp only [accessEngine, hr]; exact ⟨rfl, rfl, rfl⟩
    | some r =>
      have hr1 : r ≠ .cmd := fun h => hcmd a d rfl (h ▸ hr)
      have hr2 : r ≠ .status := fun h => hstatus a d rfl (h ▸ hr)
      rw [accessEngine_writePlain hr hr1 hr2]
      exact ⟨e.writePlain_err r d, e.writePlain_errcode r d, e.writePlain_warn r d⟩

/-- Everything a step can be to the flags, said once: an acceptance, a rejection, a write to STATUS, a
step in reset, or one that leaves ERR, ERRCODE and WARN. -/
theorem step_flagCases {s t : State} (hst : step s = .next t) :
    (∃ i, s.accepts i) ∨ (∃ c, s.rejects c) ∨ (∃ d, s.writesReg .status d) ∨ s.resets ∨
      s.engine.SameReports t.engine := by
  obtain ⟨hcycle, e, b, hs, rfl⟩ | ⟨hedge, hrst, -⟩ | ⟨rest, hfall, -⟩ | ⟨rest, -, hrise⟩ :=
    step_cases hst
  · by_cases hcmd : ∃ d, s.writesReg .cmd d
    · obtain ⟨d, hw⟩ := hcmd
      rcases accepts_or_rejects hw with haccept | hreject
      · exact .inl haccept
      · exact .inr (.inl hreject)
    · by_cases hstatus : ∃ d, s.writesReg .status d
      · exact .inr (.inr (.inl hstatus))
      · have hstep := seqStep_sameReports hs
        have haccess : e.SameReports (accessEngine s.access s.engine.busy b e) :=
          accessEngine_sameReports (fun a d hacc hreg => hcmd ⟨d, a, hreg, hcycle, hacc⟩)
            (fun a d hacc hreg => hstatus ⟨d, a, hreg, hcycle, hacc⟩) _ b e
        exact .inr (.inr (.inr (.inr (hstep.trans haccess))))
  · exact .inr (.inr (.inr (.inl (.inr ⟨hrst, hedge⟩))))
  · exact .inr (.inr (.inr (.inl (.inl ⟨rest, hfall⟩))))
  · cases hrise
    exact .inr (.inr (.inr (.inr ⟨rfl, rfl, rfl⟩)))

/-- A rejection sets ERR and writes its code, whatever ERRCODE was (R244, R246). -/
theorem err_of_rejects {s t : State} (hst : step s = .next t) {c : ErrCode} (h : s.rejects c) :
    t.engine.err = true ∧ t.engine.errcode = c.code := by
  obtain ⟨e, b, -, ht⟩ := engine_of_rejects hst h
  rw [ht]
  exact ⟨rfl, rfl⟩

/-- A rejection leaves WARN (R244). -/
theorem warn_of_rejects {s t : State} (hst : step s = .next t) {c : ErrCode} (h : s.rejects c) :
    t.engine.warn = s.engine.warn := by
  obtain ⟨e, b, hs, ht⟩ := engine_of_rejects hst h
  rw [ht]
  exact (seqStep_sameReports hs).warn

/-- An acceptance leaves ERR and ERRCODE (R193). -/
theorem err_of_accepts {s t : State} (hst : step s = .next t) {i : Instr} (h : s.accepts i) :
    t.engine.err = s.engine.err ∧ t.engine.errcode = s.engine.errcode := by
  rw [engine_of_accepts hst h]
  exact acceptedEngine_err i s.engine

/-- A write to STATUS clears ERR and ERRCODE by bit 2 and WARN by bit 3, and leaves them by a 0 (R58). -/
theorem flags_of_writesStatus {s t : State} (hst : step s = .next t) {d : Word}
    (h : s.writesReg .status d) :
    t.engine.err = (if d.getLsbD 2 then false else s.engine.err) ∧
    t.engine.errcode = (if d.getLsbD 2 then 0 else s.engine.errcode) ∧
    t.engine.warn = (if d.getLsbD 3 then false else s.engine.warn) := by
  obtain ⟨e, b, hs, ht⟩ := engine_of_writesStatus hst h
  obtain ⟨herr, hcode, hwarn⟩ := seqStep_sameReports hs
  simp only [ht, Engine.statusWrite_err, Engine.statusWrite_errcode, Engine.statusWrite_warn, herr,
    hcode, hwarn, and_self]

/-! What a command's effect makes of WARN (R249). -/

theorem clearDone_warnFor (v : Option Variant) (e : Engine) :
    e.clearDone.warnFor v =
      { e with done := false, warn := e.warn || decide (v = some .k128) } := by
  cases v with
  | none => simp [warnFor_none, Engine.clearDone]
  | some v => simp [clearDone_warnFor_some]

/-- A command's own effect does not read or write WARN. -/
theorem effectOf_withWarn (i : Instr) (e : Engine) (w : Bool) :
    effectOf i { e with warn := w } = { effectOf i e with warn := w } := by
  cases i <;> rfl

/-- WARN before an acceptance shows in WARN after it and nowhere else. -/
theorem acceptedEngine_withWarn (i : Instr) (e : Engine) (w : Bool) :
    acceptedEngine i { e with warn := w } =
      { acceptedEngine i e with warn := w || decide (i.variant = some .k128) } := by
  simp only [acceptedEngine, clearDone_warnFor]
  rw [← effectOf_withWarn]

/-- Settles O8: the rejection acts on the engine after the step that is due, which in IDLE is the engine
itself. -/
theorem rejectionChangesOnlyErrAndErrcode : Obligations.RejectionChangesOnlyErrAndErrcode := by
  unfold Obligations.RejectionChangesOnlyErrAndErrcode
  intro s c e b h hs
  exact ⟨_, step_rejects h hs, rfl, fun hidle => eq_of_seqStep_idle hidle hs⟩

/-- Settles O9: BUSY is tested before the word is decoded, and the decoder tests the form before the
variant, so each case is a rejection with its own code or an acceptance. -/
theorem rejectionPriority : Obligations.RejectionPriority := by
  unfold Obligations.RejectionPriority
  refine ⟨fun s d e b hw hs => ?_, by decide, by decide⟩
  have hst := step_atCycle (writesReg_access hw).1 hs
  refine ⟨_, hst, fun hbusy => ?_, fun hidle hform => ?_, fun hidle hform hnamed => ?_,
    fun hidle hwf => ?_⟩
  · exact err_of_rejects (c := .cmdWhileBusy) hst ⟨d, hw, .inl ⟨hbusy, rfl⟩⟩
  · exact err_of_rejects (c := .illegalCommand) hst
      ⟨d, hw, .inr ⟨hidle, decode_eq_illegalCommand_iff.mpr hform⟩⟩
  · exact err_of_rejects (c := .invalidVariant) hst
      ⟨d, hw, .inr ⟨hidle, decode_eq_invalidVariant_iff.mpr ⟨hform, hnamed⟩⟩⟩
  · obtain ⟨i, hd⟩ := exists_decode_eq_legal_iff.mpr hwf
    exact err_of_accepts hst ⟨hidle, d, hd, hw⟩

/-- Settles O10: of the steps that write the flags, an acceptance and a STATUS write with bit 2 clear
leave ERR and ERRCODE. -/
theorem errcodeHoldsMostRecentRejection : Obligations.ErrcodeHoldsMostRecentRejection := by
  unfold Obligations.ErrcodeHoldsMostRecentRejection
  intro s t hst
  refine ⟨?rejection, ?acknowledge, ?reset, ?other⟩
  case rejection => exact fun c => err_of_rejects hst
  case acknowledge =>
    intro d hw hbit
    obtain ⟨herr, hcode, -⟩ := flags_of_writesStatus hst hw
    rw [hbit] at herr hcode
    exact ⟨herr, hcode⟩
  case reset =>
    intro h
    rw [engine_of_resets hst h]
    exact ⟨rfl, rfl⟩
  case other =>
    intro hreject hbit hreset
    obtain ⟨i, hi⟩ | ⟨c, hc⟩ | ⟨d, hw⟩ | h | hsame := step_flagCases hst
    · exact err_of_accepts hst hi
    · exact absurd hc (hreject c)
    · obtain ⟨herr, hcode, -⟩ := flags_of_writesStatus hst hw
      rw [hbit d hw] at herr hcode
      exact ⟨herr, hcode⟩
    · exact absurd h hreset
    · exact ⟨hsame.err, hsame.errcode⟩

/-- Settles O11: of the steps that write the flags, a rejection and a STATUS write with bit 3 clear leave
WARN; and no command's effect reads it. -/
theorem warnMarksAcceptedK128 : Obligations.WarnMarksAcceptedK128 := by
  unfold Obligations.WarnMarksAcceptedK128
  refine ⟨fun s t hst => ⟨?acceptance, ?cleared, ?reset, ?other⟩, ?effect, fun b => ⟨rfl, rfl⟩,
    Engine.irq_withWarn⟩
  case acceptance =>
    intro i hi
    refine ⟨?_, err_of_accepts hst hi⟩
    rw [engine_of_accepts hst hi, acceptedEngine_warn]
  case cleared =>
    intro d hw hbit
    obtain ⟨-, -, hwarn⟩ := flags_of_writesStatus hst hw
    rw [hbit] at hwarn
    exact hwarn
  case reset =>
    intro h
    rw [engine_of_resets hst h]
    rfl
  case other =>
    intro haccept hbit hreset
    obtain ⟨i, hi⟩ | ⟨c, hc⟩ | ⟨d, hw⟩ | h | hsame := step_flagCases hst
    · exact absurd hi (haccept i)
    · exact warn_of_rejects hst hc
    · obtain ⟨-, -, hwarn⟩ := flags_of_writesStatus hst hw
      rw [hbit d hw] at hwarn
      exact hwarn
    · exact absurd h hreset
    · exact hsame.warn
  case effect =>
    intro i s t w hidle hexec
    rw [exec_idle hidle] at hexec
    cases hexec
    have hidle' : ({ s with engine := { s.engine with warn := w } } : State).engine.phase = .idle :=
      hidle
    rw [exec_idle hidle', State.onEngine, acceptedEngine_withWarn, State.onEngine]

end Sys2Proof.Machine
end

section
/-! Proofs about the opcode table (30_encoding.md sections 2 to 5): decoding is the inverse of
encoding, and the rows of opcode_table.json against the decoder. A word lies in a row exactly when
it has the row's opcode and is legal in form, which is where the two meet. -/

namespace Sys2Proof

/-- Settles O1: an instruction passes the checks of R86, and decode reads it back. -/
theorem encodeDecodeRoundTrip : Obligations.EncodeDecodeRoundTrip := by
  unfold Obligations.EncodeDecodeRoundTrip
  intro i
  refine ⟨?_, decode_encode i⟩
  rw [Instr.wellFormed, Command.wellFormed, ofInstr_formOk, ofInstr_variantNamed, Bool.and_self]

/-- Settles O4: the sixteen words of the format table, decoded one by one. -/
theorem wordsDecodeAsWritten : Obligations.WordsDecodeAsWritten := by
  unfold Obligations.WordsDecodeAsWritten
  decide

/-! The rows of the opcode table, field by field (R81, R82). -/

theorem Command.ofWord_and (v w : Word) :
    Command.ofWord (v &&& w) =
      ⟨(Command.ofWord v).op &&& (Command.ofWord w).op,
       (Command.ofWord v).var &&& (Command.ofWord w).var,
       (Command.ofWord v).rsv &&& (Command.ofWord w).rsv,
       (Command.ofWord v).a &&& (Command.ofWord w).a,
       (Command.ofWord v).b &&& (Command.ofWord w).b⟩ := by
  simp only [Command.ofWord, BitVec.extractLsb'_and]

/-- A row's pattern is its opcode, with 0 in every other field. -/
theorem ofWord_tableRow_pattern (i : Instr) :
    Command.ofWord (tableRow i).pattern = ⟨(Command.ofInstr i).op, 0, 0, 0, 0⟩ := by
  cases i <;> simp only [tableRow, Command.ofInstr] <;> rfl

/-- A row's mask covers OP, RSV and the fields its opcode does not use. -/
theorem ofWord_tableRow_mask (i : Instr) :
    Command.ofWord (tableRow i).mask =
      ⟨BitVec.allOnes 8, if usesVar (Command.ofInstr i).op then 0 else BitVec.allOnes 3,
       BitVec.allOnes 5, if usesA (Command.ofInstr i).op then 0 else BitVec.allOnes 8,
       if usesB (Command.ofInstr i).op then 0 else BitVec.allOnes 8⟩ := by
  cases i <;> simp only [tableRow, Command.ofInstr] <;> rfl

/-- A masked field is 0 when the mask leaves it out or the field is 0. -/
theorem and_ite_allOnes_eq_zero_iff {n : Nat} (x : BitVec n) (uses : Bool) :
    x &&& (if uses then 0 else BitVec.allOnes n) = 0 ↔ uses = true ∨ x = 0 := by
  cases uses <;> simp

/-- The word of an instruction lies in its row. -/
theorem encode_and_mask (i : Instr) : encode i &&& (tableRow i).mask = (tableRow i).pattern := by
  open Laws.EncodesInRow in
  cases i with
  | nop => exact nop
  | expand v => exact expand v
  | encrypt v => exact encrypt v
  | decrypt v => exact decrypt v
  | subbytes v => exact subbytes v
  | invsubbytes v => exact invsubbytes v
  | shiftrows => exact shiftrows
  | invshiftrows => exact invshiftrows
  | mixcolumns => exact mixcolumns
  | invmixcolumns => exact invmixcolumns
  | addroundkey => exact addroundkey
  | gfdouble a => exact gfdouble a
  | gfmul a b => exact gfmul a b
  | sbox v a => exact sbox v a
  | invsbox v a => exact invsbox v a
  | clear => exact clear

/-- A word in a row has the row's opcode and is legal in form (R85). -/
theorem op_and_formOk_of_inRow {w : Word} {i : Instr}
    (h : w &&& (tableRow i).mask = (tableRow i).pattern) :
    (Command.ofWord w).op = (Command.ofInstr i).op ∧ (Command.ofWord w).formOk = true := by
  have hfields := congrArg Command.ofWord h
  rw [Command.ofWord_and, ofWord_tableRow_pattern, ofWord_tableRow_mask, Command.mk.injEq,
    BitVec.and_allOnes, BitVec.and_allOnes, and_ite_allOnes_eq_zero_iff,
    and_ite_allOnes_eq_zero_iff, and_ite_allOnes_eq_zero_iff] at hfields
  obtain ⟨hop, hvar, hrsv, ha, hb⟩ := hfields
  rw [← hop] at hvar ha hb
  have hknown : ¬ (Command.ofWord w).op > 0x0F := hop ▸ ofInstr_op_known i
  exact ⟨hop, (Command.formOk_iff_of_known hknown).mpr ⟨hrsv, hvar, ha, hb⟩⟩

/-- Instructions with one opcode share a row. -/
theorem tableRow_eq_of_op {i j : Instr} (h : (Command.ofInstr i).op = (Command.ofInstr j).op) :
    tableRow i = tableRow j := by
  have hpattern : (tableRow i).pattern = (tableRow j).pattern := by
    rw [← Command.word_ofWord (tableRow i).pattern, ← Command.word_ofWord (tableRow j).pattern,
      ofWord_tableRow_pattern, ofWord_tableRow_pattern, h]
  have hmask : (tableRow i).mask = (tableRow j).mask := by
    rw [tableRow_mask, tableRow_mask, h]
  rw [TableRow.mk.injEq]
  exact ⟨hpattern, hmask⟩

/-- A word legal in form that names no variant has a VAR above 5 (R83). -/
theorem five_lt_var_of_unnamed {c : Command} (hform : c.formOk = true)
    (hnamed : c.variantNamed = false) : 5 < c.var := by
  have hknown : ¬ c.op > 0x0F := fun h => Bool.false_ne_true (Command.formOk_of_reserved h ▸ hform)
  by_contra hvar
  exact Bool.false_ne_true
    (hnamed ▸ (Command.variantNamed_iff_of_known hknown).mpr fun huses => hvar huses.2)

/-- Settles O5: a row fixes the opcode, so rows do not overlap, and a word in a row passes the form
check, so that only its variant can be wrong. -/
theorem opcodeTableAgreesWithDecoder : Obligations.OpcodeTableAgreesWithDecoder := by
  unfold Obligations.OpcodeTableAgreesWithDecoder
  refine ⟨fun w i hd => ?_, fun w i j hi hj => ?_, fun w i hi => ?_⟩
  · rw [decode_eq_legal_iff.mp hd]
    exact encode_and_mask i
  · obtain ⟨hopi, -⟩ := op_and_formOk_of_inRow hi
    obtain ⟨hopj, -⟩ := op_and_formOk_of_inRow hj
    exact tableRow_eq_of_op (hopi.symm.trans hopj)
  · obtain ⟨hop, hform⟩ := op_and_formOk_of_inRow hi
    obtain ⟨hbad, -⟩ | ⟨-, hnamed, hd⟩ | ⟨-, -, j, rfl, hd⟩ := decode_cases w
    · exact absurd hform (by simp [hbad])
    · exact .inr ⟨five_lt_var_of_unnamed hform hnamed, hd⟩
    · rw [ofWord_encode] at hop
      exact .inl ⟨j, hd, tableRow_eq_of_op hop⟩

end Sys2Proof
end

section
/-! Proofs about the invariant of the engine (10_state.md section 9): it holds after reset, every
step keeps it, no state of it stops, and where the model does stop (log entry 6). First what a step
at an edge can be, said once, and the clauses of R42 on PHASE, RND and LOP under one name. -/

namespace Sys2Proof.Machine

/-! What a step at an edge can be (R57, R60). -/

/-- Everything the host can do to the engine `e` that the sequencer's step leaves, said once: a
command is accepted, a CMD write is rejected, STATUS or another register is written, or nothing
changes. -/
theorem accessEngine_cases {s : State} (hc : s.atCycle) {e : Engine} {b : Bool}
    (hs : seqStep s.engine = .ok (e, b)) :
    (∃ i, s.accepts i ∧
      accessEngine s.access s.engine.busy b e = acceptedEngine i s.engine) ∨
    (∃ c, s.rejects c ∧ accessEngine s.access s.engine.busy b e = e.raise c) ∨
    (∃ d, s.writesReg .status d ∧
      accessEngine s.access s.engine.busy b e = e.statusWrite b d) ∨
    (∃ r d, r ≠ .cmd ∧ s.writesReg r d ∧
      accessEngine s.access s.engine.busy b e = e.writePlain r d) ∨
    accessEngine s.access s.engine.busy b e = e := by
  have hst := step_atCycle hc hs
  cases hacc : s.access with
  | noAccess => exact .inr (.inr (.inr (.inr rfl)))
  | read a => exact .inr (.inr (.inr (.inr rfl)))
  | write a d =>
    rw [hacc] at hst
    cases hr : regAt a with
    | none => exact .inr (.inr (.inr (.inr (by simp only [accessEngine, hr]))))
    | some r =>
      have hw : s.writesReg r d := ⟨a, hr, hc, hacc⟩
      by_cases hcmd : r = .cmd
      · subst hcmd
        obtain ⟨i, hi⟩ | ⟨c, hrej⟩ := accepts_or_rejects hw
        · exact .inl ⟨i, hi, engine_of_accepts hst hi⟩
        · have heq := (step_rejects hrej hs).symm.trans hst
          exact .inr (.inl ⟨c, hrej, (congrArg State.engine (Host.Outcome.next.inj heq)).symm⟩)
      · by_cases hstatus : r = .status
        · subst hstatus
          exact .inr (.inr (.inl ⟨d, hw, accessEngine_status hr d _ b e⟩))
        · exact .inr (.inr (.inr (.inl
            ⟨r, d, hcmd, hw, accessEngine_writePlain hr hcmd hstatus d _ b e⟩)))

/-! What an acceptance does to the sequencer's state (R194, R195, R231). -/

theorem multiStep_cases {i : Instr} (h : i.multiStep = true) :
    ∃ v, i = .expand v ∨ i = .encrypt v ∨ i = .decrypt v := by
  cases i <;> simp [Instr.multiStep] at h ⊢

/-- A single-edge command but CLEAR leaves the sequencer's state. -/
theorem acceptedEngine_withSequencerOf {i : Instr} (hsingle : i.multiStep = false)
    (hclear : i ≠ .clear) (e : Engine) :
    (acceptedEngine i e).withSequencerOf e = acceptedEngine i e := by
  rw [Engine.withSequencerOf_eq_self_iff]
  revert hsingle hclear
  cases i <;> simp [Instr.multiStep, acceptedEngine, effectOf]

/-! The invariant (R42). -/

/-- R42 (a) to (d): the rounds and the opcodes of each phase. -/
def RoundOk : Phase → BitVec 4 → BitVec 8 → Prop
  | .idle, r, _ => r = 0
  | .kx, r, op => 1 ≤ r ∧ r ≤ 10 ∧ (op = 0x01 ∨ op = 0x02 ∨ op = 0x03)
  | .enc, r, op => r ≤ 10 ∧ op = 0x02
  | .dec, r, op => r ≤ 10 ∧ op = 0x03

/-- A multi-step command starts in round 1 of KX (R194). -/
theorem roundOk_start {op : BitVec 8} (h : op = 0x01 ∨ op = 0x02 ∨ op = 0x03) :
    RoundOk .kx 1 op :=
  ⟨by decide, by decide, h⟩

/-- R42 (f) and (g): the error codes. -/
def CodeOk (err : Bool) (code : BitVec 4) : Prop :=
  (err = false → code = 0) ∧ (code = 0 ∨ code = 2 ∨ code = 5 ∨ code = 6)

theorem Engine.inv_iff (e : Engine) :
    e.Inv ↔ RoundOk e.phase e.rnd e.lop ∧ e.lvar ≤ 5 ∧ CodeOk e.err e.errcode := by
  constructor
  · intro h
    refine ⟨?_, h.variantCode, h.noCodeWithoutErr, h.codeRaised⟩
    cases hp : e.phase with
    | idle => exact h.idleRound hp
    | kx => exact h.kxRound hp
    | enc => exact h.encRound hp
    | dec => exact h.decRound hp
  · rintro ⟨hround, hvar, hnone, hcode⟩
    exact ⟨fun hp => by rwa [hp] at hround, fun hp => by rwa [hp] at hround,
      fun hp => by rwa [hp] at hround, fun hp => by rwa [hp] at hround, hvar, hnone, hcode⟩

theorem Engine.inv_reset : Engine.reset.Inv :=
  (Engine.inv_iff _).mpr ⟨rfl, by decide, fun _ => rfl, .inl rfl⟩

/-- Every row of R201–R208 leads to a round and an opcode of the new phase. -/
theorem StepRow.roundOk {v : Variant} {e e' : Engine} {b : Bool} (hrow : StepRow v e e' b)
    (h : RoundOk e.phase e.rnd e.lop) : RoundOk e'.phase e'.rnd e'.lop := by
  cases hrow with
  | idle hp => exact h
  | kxMid hp h1 h2 =>
    rw [hp] at h
    obtain ⟨-, -, hlop⟩ := h
    show RoundOk e.phase (e.rnd + 1) e.lop
    rw [hp]
    exact ⟨by bv_omega, by bv_omega, hlop⟩
  | kxExpand => rfl
  | kxEncrypt hp hr hl => exact ⟨(by decide : (0 : BitVec 4) ≤ 10), hl⟩
  | kxDecrypt hp hr hl => exact ⟨(by decide : (10 : BitVec 4) ≤ 10), hl⟩
  | encFirst hp hr =>
    rw [hp] at h
    show RoundOk e.phase 1 e.lop
    rw [hp]
    exact ⟨by decide, h.2⟩
  | encMid hp h1 h2 =>
    rw [hp] at h
    show RoundOk e.phase (e.rnd + 1) e.lop
    rw [hp]
    exact ⟨by bv_omega, h.2⟩
  | encLast => rfl
  | decFirst hp hr =>
    rw [hp] at h
    show RoundOk e.phase 9 e.lop
    rw [hp]
    exact ⟨by decide, h.2⟩
  | decMid hp h1 h2 =>
    rw [hp] at h
    show RoundOk e.phase (e.rnd - 1) e.lop
    rw [hp]
    exact ⟨by bv_omega, h.2⟩
  | decLast => rfl

/-- The sequencer's step keeps the invariant. -/
theorem seqStep_inv {e e' : Engine} {b : Bool} (hi : e.Inv) (h : seqStep e = .ok (e', b)) :
    e'.Inv := by
  obtain ⟨v, hv⟩ := hi.variant
  obtain ⟨f, c, hf, hrow⟩ := seqStep_row hi hv
  obtain ⟨rfl, rfl⟩ := Prod.mk.inj (Except.ok.inj (h.symm.trans hf))
  obtain ⟨-, -, -, herr, -, hcode, -, -, -, hlvar⟩ := seqStep_frame h
  obtain ⟨hround, hvar, hok⟩ := e.inv_iff.mp hi
  rw [Engine.inv_iff, herr, hcode, hlvar]
  exact ⟨hrow.roundOk hround, hvar, hok⟩

/-- An acceptance keeps the invariant: CLEAR returns to the reset values of the sequencer's state, a
multi-step command starts in round 1 of KX with its own opcode, and any other leaves the sequencer's
state (R194, R195, R231). -/
theorem acceptedEngine_inv {e : Engine} (hi : e.Inv) (hidle : e.phase = .idle) (i : Instr) :
    (acceptedEngine i e).Inv := by
  obtain ⟨hround, hvar, hok⟩ := e.inv_iff.mp hi
  obtain ⟨herr, hcode⟩ := acceptedEngine_err i e
  rw [Engine.inv_iff, herr, hcode]
  cases hmulti : i.multiStep with
  | true =>
    obtain ⟨v, rfl | rfl | rfl⟩ := multiStep_cases hmulti
    · exact ⟨roundOk_start (.inl rfl), code_le v, hok⟩
    · exact ⟨roundOk_start (.inr (.inl rfl)), code_le v, hok⟩
    · exact ⟨roundOk_start (.inr (.inr rfl)), code_le v, hok⟩
  | false =>
    by_cases hclear : i = .clear
    · subst hclear
      have hphase : (acceptedEngine .clear e).phase = e.phase := rfl
      rw [hphase, hidle]
      exact ⟨rfl, (by decide : (0 : BitVec 3) ≤ 5), hok⟩
    · obtain ⟨hphase, hrnd, hlop, hlvar, -, -⟩ := Engine.withSequencerOf_eq_self_iff.mp
        (acceptedEngine_withSequencerOf hmulti hclear e)
      rw [hphase, hrnd, hlop, hlvar]
      exact ⟨hround, hvar, hok⟩

/-- The decoder rejects with the codes 2 and 5 only, and a busy engine with 6 (R242, R245). -/
theorem code_of_rejects {s : State} {c : ErrCode} (h : s.rejects c) :
    c.code = 2 ∨ c.code = 5 ∨ c.code = 6 := by
  obtain ⟨d, -, ⟨-, rfl⟩ | ⟨-, hd⟩⟩ := h
  · exact .inr (.inr rfl)
  · obtain ⟨-, hw⟩ | ⟨-, -, hw⟩ | ⟨-, -, i, -, hw⟩ := decode_cases d
    · cases hw.symm.trans hd
      exact .inr (.inl rfl)
    · cases hw.symm.trans hd
      exact .inl rfl
    · cases hw.symm.trans hd

theorem raise_inv {e : Engine} (hi : e.Inv) {c : ErrCode}
    (hc : c.code = 2 ∨ c.code = 5 ∨ c.code = 6) : (e.raise c).Inv :=
  hi.congr rfl rfl rfl rfl (fun h => by cases h) (.inr hc)

theorem statusWrite_inv {e : Engine} (hi : e.Inv) (b : Bool) (d : Word) :
    (e.statusWrite b d).Inv := by
  apply hi.congr (by simp) (by simp) (by simp) (by simp)
  · rw [Engine.statusWrite_err, Engine.statusWrite_errcode]
    split_ifs
    · exact fun _ => rfl
    · exact hi.noCodeWithoutErr
  · rw [Engine.statusWrite_errcode]
    split_ifs
    · exact .inl rfl
    · exact hi.codeRaised

theorem writePlain_inv {e : Engine} (hi : e.Inv) (r : RegName) (d : Word) :
    (e.writePlain r d).Inv := by
  apply hi.congr (by simp) (by simp) (by simp) (by simp)
  · simpa using hi.noCodeWithoutErr
  · simpa using hi.codeRaised

/-- The engine after an edge at which Cycle is applied meets the invariant. -/
theorem accessEngine_inv {s : State} (hi : s.engine.Inv) (hc : s.atCycle) {e : Engine} {b : Bool}
    (hs : seqStep s.engine = .ok (e, b)) :
    (accessEngine s.access s.engine.busy b e).Inv := by
  have he : e.Inv := seqStep_inv hi hs
  obtain ⟨i, ha, h⟩ | ⟨c, hrej, h⟩ | ⟨d, -, h⟩ | ⟨r, d, -, -, h⟩ | h := accessEngine_cases hc hs
  all_goals rw [h]
  · exact acceptedEngine_inv hi ha.1 i
  · exact raise_inv he (code_of_rejects hrej)
  · exact statusWrite_inv he b d
  · exact writePlain_inv he r d
  · exact he

/-- Settles O56: at an edge the sequencer's step and then the host's access keep R42, and the reset
state meets it. -/
theorem everyStepKeepsInvariant : Obligations.EveryStepKeepsInvariant := by
  unfold Obligations.EveryStepKeepsInvariant
  intro s t hi hst
  obtain ⟨hc, e, b, hs, rfl⟩ | ⟨-, -, rfl⟩ | ⟨rest, -, hfall⟩ | ⟨rest, -, hrise⟩ := step_cases hst
  · exact ⟨accessEngine_inv hi.engine hc hs, fun hr => absurd (hc.1.symm.trans hr) (by decide)⟩
  · exact ⟨Engine.inv_reset, fun _ => rfl⟩
  · cases hfall
    exact ⟨Engine.inv_reset, fun _ => rfl⟩
  · cases hrise
    exact ⟨hi.engine, fun hr => by cases hr⟩

/-- Settles O57: a clock edge never stops in a state of the invariant, and a change of `rst_n` never
stops. -/
theorem noStopFromInvariant : Obligations.NoStopFromInvariant := by
  unfold Obligations.NoStopFromInvariant
  intro s hi
  obtain hedge | ⟨rest, hfall⟩ | ⟨rest, hrise⟩ := atEdge_or_reset s
  · exact hi.step_next_of_atEdge hedge
  · exact ⟨_, step_rstFall hfall⟩
  · exact ⟨_, step_rstRise hrise⟩

/-- Settles O55: the reset values of R41 meet the clauses of R42. -/
theorem invariantHoldsAtReset : Obligations.InvariantHoldsAtReset := by
  unfold Obligations.InvariantHoldsAtReset
  exact ⟨Engine.inv_reset, fun _ => rfl⟩

/-! Where a step stops (log entry 6). -/

/-- The sequencer has no step to answer. -/
def Stops (x : StepResult) : Prop := ∃ f, x = .error f

@[simp] theorem stops_error (f : Fault) : Stops (.error f) := ⟨f, rfl⟩

@[simp] theorem not_stops_ok (p : Engine × Bool) : ¬ Stops (.ok p) := by
  rintro ⟨f, hf⟩
  cases hf

@[simp] theorem not_stops_goesOn (e : Engine) : ¬ Stops (goesOn e) := not_stops_ok _

@[simp] theorem not_stops_completes (e : Engine) : ¬ Stops (completes e) := not_stops_ok _

/-- A step that reads the S-box stops where LVAR names no variant, or where it stops for every
variant (R37). -/
theorem stops_withLvar_iff {e : Engine} {k : Variant → StepResult} {P : Prop}
    (hk : ∀ v, Stops (k v) ↔ P) : Stops (withLvar e k) ↔ 5 < e.lvar ∨ P := by
  have hsome := ofCode_isSome e.lvar
  unfold withLvar
  cases hv : Variant.ofCode e.lvar with
  | none =>
    have hlt : 5 < e.lvar := by simpa [hv] using hsome
    exact iff_of_true (stops_error _) (.inl hlt)
  | some v =>
    have hle : ¬ 5 < e.lvar := by simpa [hv] using hsome
    exact (hk v).trans (or_iff_right hle).symm

/-- A step that reads the S-box and then never stops. -/
theorem stops_withLvar_iff_of_not {e : Engine} {k : Variant → StepResult}
    (hk : ∀ v, ¬ Stops (k v)) : Stops (withLvar e k) ↔ 5 < e.lvar :=
  (stops_withLvar_iff fun v => iff_false_intro (hk v)).trans (iff_of_eq (or_false _))

theorem stops_kxLast_iff (t : Engine) :
    Stops (kxLast t) ↔ t.lop ≠ 0x01 ∧ t.lop ≠ 0x02 ∧ t.lop ≠ 0x03 := by
  unfold kxLast
  split_ifs with h1 h2 h3
  · exact iff_of_false (not_stops_completes _) fun h => h.1 h1
  · exact iff_of_false (not_stops_goesOn _) fun h => h.2.1 h2
  · exact iff_of_false (not_stops_goesOn _) fun h => h.2.2 h3
  · exact iff_of_true (stops_error _) ⟨h1, h2, h3⟩

theorem stops_kxStep_iff (e : Engine) :
    Stops (kxStep e) ↔ e.rnd = 0 ∨ 10 < e.rnd ∨ 5 < e.lvar ∨
      (e.rnd = 10 ∧ e.lop ≠ 0x01 ∧ e.lop ≠ 0x02 ∧ e.lop ≠ 0x03) := by
  unfold kxStep
  dsimp only
  split_ifs with hout hmid
  · have hrnd : e.rnd = 0 ∨ 10 < e.rnd := by bv_omega
    exact iff_of_true (stops_error _) (by tauto)
  · have hrnd : ¬ (e.rnd = 0 ∨ 10 < e.rnd) := by bv_omega
    have hne : e.rnd ≠ 10 := by bv_omega
    rw [stops_withLvar_iff_of_not fun v => not_stops_goesOn _]
    tauto
  · have hrnd : ¬ (e.rnd = 0 ∨ 10 < e.rnd) := by bv_omega
    have hlast : e.rnd = 10 := rnd_eq_ten (by omega)
    refine (stops_withLvar_iff (P := e.lop ≠ 0x01 ∧ e.lop ≠ 0x02 ∧ e.lop ≠ 0x03)
      fun v => stops_kxLast_iff (kxEngine v e.rnd.toNat e)).trans ?_
    tauto

theorem stops_encStep_iff (e : Engine) :
    Stops (encStep e) ↔ 10 < e.rnd ∨ (e.rnd ≠ 0 ∧ 5 < e.lvar) := by
  have hreads : ∀ {k}, e.rnd.toNat ≠ 0 → e.rnd.toNat ≤ 10 → (∀ v, ¬ Stops (k v)) →
      (Stops (withLvar e k) ↔ 10 < e.rnd ∨ (e.rnd ≠ 0 ∧ 5 < e.lvar)) := by
    intro k hne hle hk
    have hne : e.rnd ≠ 0 := by bv_omega
    have hle : ¬ 10 < e.rnd := by bv_omega
    rw [stops_withLvar_iff_of_not hk]
    tauto
  unfold encStep
  dsimp only
  split_ifs with h0 h9 h10
  · have hrnd : e.rnd = 0 := rnd_eq_zero h0
    have hle : ¬ 10 < e.rnd := by bv_omega
    exact iff_of_false (not_stops_goesOn _) (by tauto)
  · exact hreads h0 (by omega) fun v => not_stops_goesOn _
  · exact hreads h0 h10.le fun v => not_stops_completes _
  · exact iff_of_true (stops_error _) (.inl (by bv_omega))

theorem stops_decStep_iff (e : Engine) :
    Stops (decStep e) ↔ 10 < e.rnd ∨ (e.rnd ≠ 10 ∧ 5 < e.lvar) := by
  have hreads : ∀ {k}, e.rnd.toNat < 10 → (∀ v, ¬ Stops (k v)) →
      (Stops (withLvar e k) ↔ 10 < e.rnd ∨ (e.rnd ≠ 10 ∧ 5 < e.lvar)) := by
    intro k hlt hk
    have hne : e.rnd ≠ 10 := by bv_omega
    have hle : ¬ 10 < e.rnd := by bv_omega
    rw [stops_withLvar_iff_of_not hk]
    tauto
  unfold decStep
  dsimp only
  split_ifs with h10 h0 h9
  · have hrnd : e.rnd = 10 := rnd_eq_ten h10
    have hle : ¬ 10 < e.rnd := by bv_omega
    exact iff_of_false (not_stops_goesOn _) (by tauto)
  · exact hreads (by omega) fun v => not_stops_completes _
  · exact hreads (by omega) fun v => not_stops_goesOn _
  · exact iff_of_true (stops_error _) (.inl (by bv_omega))

/-- The states outside R42 in which no rule gives the step that is due. -/
theorem stops_seqStep_iff (e : Engine) :
    Stops (seqStep e) ↔
      (e.phase = .kx ∧ (e.rnd = 0 ∨ 10 < e.rnd ∨ 5 < e.lvar ∨
        (e.rnd = 10 ∧ e.lop ≠ 0x01 ∧ e.lop ≠ 0x02 ∧ e.lop ≠ 0x03))) ∨
      (e.phase = .enc ∧ (10 < e.rnd ∨ (e.rnd ≠ 0 ∧ 5 < e.lvar))) ∨
      (e.phase = .dec ∧ (10 < e.rnd ∨ (e.rnd ≠ 10 ∧ 5 < e.lvar))) := by
  rw [← stops_kxStep_iff, ← stops_encStep_iff, ← stops_decStep_iff, seqStep]
  cases e.phase <;> simp

/-- A step is a fault exactly at an edge where the sequencer stops. -/
theorem step_eq_fault_iff (s : State) :
    (∃ f, step s = .fault f) ↔ s.atCycle ∧ Stops (seqStep s.engine) := by
  constructor
  · rintro ⟨f, hf⟩
    obtain hedge | ⟨rest, hfall⟩ | ⟨rest, hrise⟩ := atEdge_or_reset s
    · cases hr : s.rstN with
      | false => cases (step_inReset hedge hr).symm.trans hf
      | true =>
        have hc : s.atCycle := ⟨hr, hedge⟩
        cases hs : seqStep s.engine with
        | error g => exact ⟨hc, stops_error g⟩
        | ok p => cases (step_atCycle hc hs).symm.trans hf
    · cases (step_rstFall hfall).symm.trans hf
    · cases (step_rstRise hrise).symm.trans hf
  · rintro ⟨hc, f, hf⟩
    exact ⟨f, step_fault hc hf⟩

theorem step_ne_refused (s : State) (r : Refusal) : step s ≠ .refused r := by
  intro h
  obtain hedge | ⟨rest, hfall⟩ | ⟨rest, hrise⟩ := atEdge_or_reset s
  · cases hr : s.rstN with
    | false => cases (step_inReset hedge hr).symm.trans h
    | true =>
      have hc : s.atCycle := ⟨hr, hedge⟩
      cases hs : seqStep s.engine with
      | error f => cases (step_fault hc hs).symm.trans h
      | ok p => cases (step_atCycle hc hs).symm.trans h
  · cases (step_rstFall hfall).symm.trans h
  · cases (step_rstRise hrise).symm.trans h

/-- Settles O58: the step stops where the sequencer does, and the sequencer where one of its phases
does. -/
theorem faultsExactlyWhereNoRule : Obligations.FaultsExactlyWhereNoRule := by
  unfold Obligations.FaultsExactlyWhereNoRule
  exact ⟨fun s => (step_eq_fault_iff s).trans (and_congr_right fun _ => stops_seqStep_iff s.engine),
    step_ne_refused⟩

end Sys2Proof.Machine
end

section
/-! Proofs about single steps: the step that runs a command (44_cipher_sequencer.md section 2),
reset (70_reset_and_hazards.md section 1), who writes DONE, KEY, DIN, DOUT, BRES and RK (10_state.md
sections 2 to 4), and the frame of the single-edge commands (30_encoding.md section 4). First what
an acceptance, a host write and a sequencer step leave of each register. -/

namespace Sys2Proof

/-- Register `j` of a group after a write to register `i` (R278). -/
theorem Regs4.get_set (g : Regs4) (i j : Fin 4) (d : Word) :
    (g.set i d).get j = if j = i then d else g.get j := by
  fin_cases i <;> fin_cases j <;> rfl

end Sys2Proof

namespace Sys2Proof.Machine

/-! The step that runs a command (R57, R60, R192). -/

/-- The state after an edge at which the host writes: the event is used up, `rdata` is 0 and nothing
is recorded (R50, R90). -/
theorem afterEdge_write {s : State} {p : Pins} {rest : List HostEvent} {a : Addr} {d : Word}
    (hrst : s.rstN = true) (hhost : s.host = .clock p :: rest) (hacc : p.access = .write a d)
    (e : Engine) :
    s.afterEdge e =
      { s with engine := e, host := rest, rdata := 0, irq := s.engine.irq } := by
  simp [State.afterEdge, State.hostAfter, State.recordedAfter, State.access, outRdata, outIrq,
    hhost, hacc, hrst]

/-- The host's write of a legal word to CMD of an idle engine is the acceptance of its command. -/
theorem accepts_of_clock {s : State} {p : Pins} {rest : List HostEvent} {a : Addr} {d : Word}
    {i : Instr} (hrst : s.rstN = true) (hhost : s.host = .clock p :: rest)
    (hacc : p.access = .write a d) (hreg : regAt a = some .cmd) (hidle : s.engine.phase = .idle)
    (hd : decode d = .legal i) : s.accepts i := by
  have hedge : s.atEdge := by simp [State.atEdge, hhost, HostEvent.isEdge]
  have haccess : s.access = .write a d := by simp [State.access, hhost, hacc]
  exact ⟨hidle, d, hd, a, hreg, ⟨hrst, hedge⟩, haccess⟩

/-- Settles O6: the step is an acceptance, and exec on an idle engine is that acceptance. -/
theorem stepRunsTheDecodedCommand : Obligations.StepRunsTheDecodedCommand := by
  unfold Obligations.StepRunsTheDecodedCommand
  intro s p rest a d i hrst hhost hacc hreg hidle hd
  rw [step_accepts (accepts_of_clock hrst hhost hacc hreg hidle hd),
    afterEdge_write hrst hhost hacc]
  exact (exec_idle (s := { s with host := rest, rdata := 0, irq := s.engine.irq }) hidle i).symm

/-- Settles O7: the presented word is the host's write to CMD of an idle engine. -/
theorem presentedWordRunsNext : Obligations.PresentedWordRunsNext := by
  unfold Obligations.PresentedWordRunsNext
  intro s w i hd
  have hword : tableWord 32 w = BitVec.ofNat 32 w := by
    apply BitVec.eq_of_toNat_eq
    simp [tableWord]
  rw [← hword] at hd
  exact stepRunsTheDecodedCommand (s.withFetchWord 32 w) _ s.host RegName.cmd.addr _ i rfl rfl
    (access_pins _) (regAt_addr .cmd) rfl hd

/-! Reset (R270). -/

/-- Settles O54: a fall and a rise are steps of their own, an edge in reset leaves the reset engine,
and an edge out of reset is Cycle with the access of the cycle. -/
theorem resetOverridesEverything : Obligations.ResetOverridesEverything := by
  unfold Obligations.ResetOverridesEverything
  refine ⟨fun s rest h => step_rstFall h, ?inReset, fun s rest h => step_rstRise h, ?cycle⟩
  case inReset =>
    intro s hrst hedge
    refine ⟨_, step_inReset hedge hrst, rfl, hrst, ?_, ?_⟩
    · cases hacc : s.access <;> simp [outRdata, hacc, hrst]
    · simp [outIrq, hrst]
  case cycle =>
    intro s e b hc hs
    have hcycle : cycle s.access s = .next
        (({ s with engine := e } : State).onEngine
          (accessEngine s.access s.engine.busy b)) := by
      simp only [cycle, hs, hostAccess_eq]
    exact ⟨_, _, step_atCycle hc hs, hcycle, rfl, fun a hacc => outRdata_read ⟨hc, hacc⟩,
      fun hacc => by rw [hacc]; rfl⟩

/-! What an acceptance leaves (30_encoding.md section 4). -/

theorem acceptedEngine_keyDin {i : Instr} (h : i ≠ .clear) (e : Engine) :
    (acceptedEngine i e).key = e.key ∧ (acceptedEngine i e).din = e.din := by
  revert h
  cases i <;> simp [acceptedEngine, effectOf]

theorem acceptedEngine_dout {i : Instr} (h : Claims.writesDout i = false) (e : Engine) :
    (acceptedEngine i e).dout = e.dout := by
  revert h
  cases i <;> simp [acceptedEngine, effectOf, Claims.writesDout]

theorem acceptedEngine_bres {i : Instr} (h : Claims.writesBres i = false) (e : Engine) :
    (acceptedEngine i e).bres = e.bres := by
  revert h
  cases i <;> simp [acceptedEngine, effectOf, Claims.writesBres]

/-! What a host write and a sequencer step leave. -/

theorem writePlain_key {r : RegName} (h : ∀ i, r ≠ .key i) (d : Word) (e : Engine) :
    (e.writePlain r d).key = e.key := by
  cases r with
  | key i => exact absurd rfl (h i)
  | _ => rfl

theorem writePlain_din {r : RegName} (h : ∀ i, r ≠ .din i) (d : Word) (e : Engine) :
    (e.writePlain r d).din = e.din := by
  cases r with
  | din i => exact absurd rfl (h i)
  | _ => rfl

/-- A KX step leaves DOUT (R201, R202). -/
theorem kxStep_dout {e e' : Engine} {b : Bool} (h : kxStep e = .ok (e', b)) : e'.dout = e.dout := by
  have hself := kxStep_withSequencerOf e e
  rw [show e.withSequencerOf e = e from rfl, h] at hself
  have hdout := congrArg (fun p => p.1.dout) (Except.ok.inj hself)
  simpa [steppedLike] using hdout

/-- An ENC step leaves RK, and DOUT before round 10 (R203–R205). -/
theorem encStep_frame {e e' : Engine} {b : Bool} (h : encStep e = .ok (e', b)) :
    e'.rk = e.rk ∧ (e'.dout = e.dout ∨ e.rnd = 10) := by
  simp only [encStep, withLvar, goesOn, completes] at h
  split_ifs at h with h0 h9 h10
  · cases h
    exact ⟨rfl, .inl rfl⟩
  · split at h <;> cases h
    exact ⟨rfl, .inl rfl⟩
  · split at h <;> cases h
    exact ⟨rfl, .inr (rnd_eq_ten h10)⟩

/-- A DEC step leaves RK, and DOUT before round 0 (R206–R208). -/
theorem decStep_frame {e e' : Engine} {b : Bool} (h : decStep e = .ok (e', b)) :
    e'.rk = e.rk ∧ (e'.dout = e.dout ∨ e.rnd = 0) := by
  simp only [decStep, withLvar, goesOn, completes] at h
  split_ifs at h with h10 h0 h9
  · cases h
    exact ⟨rfl, .inl rfl⟩
  · split at h <;> cases h
    exact ⟨rfl, .inr (rnd_eq_zero h0)⟩
  · split at h <;> cases h
    exact ⟨rfl, .inl rfl⟩

/-- The steps that write RK and DOUT: a KX step, and the last round of a cipher phase. -/
theorem seqStep_results {e e' : Engine} {b : Bool} (h : seqStep e = .ok (e', b)) :
    (e'.rk = e.rk ∨ e.phase = .kx) ∧
    (e'.dout = e.dout ∨ (e.phase = .enc ∧ e.rnd = 10) ∨ (e.phase = .dec ∧ e.rnd = 0)) := by
  unfold seqStep at h
  cases hp : e.phase with
  | idle =>
    rw [hp] at h
    cases h
    exact ⟨.inl rfl, .inl rfl⟩
  | kx =>
    rw [hp] at h
    exact ⟨.inr rfl, .inl (kxStep_dout h)⟩
  | enc =>
    rw [hp] at h
    obtain ⟨hrk, hdout⟩ := encStep_frame h
    exact ⟨.inl hrk, hdout.imp_right fun hr => .inl ⟨rfl, hr⟩⟩
  | dec =>
    rw [hp] at h
    obtain ⟨hrk, hdout⟩ := decStep_frame h
    exact ⟨.inl hrk, hdout.imp_right fun hr => .inr ⟨rfl, hr⟩⟩

/-! DONE (10_state.md section 3). -/

/-- A step that completes shows DONE = 1, whatever the host does at the edge (R58, R200). -/
theorem done_of_completes {s : State} {e : Engine} (hs : seqStep s.engine = .ok (e, true)) :
    (accessEngine s.access s.engine.busy true e).done = true := by
  obtain ⟨hbusy, -, -, hdone⟩ := (seqStep_completion hs).1 rfl
  obtain ⟨-, -, -, -, -, -, -, -, hkeeps⟩ := accessEngine_busy_frame s.access true e
  rw [Engine.busy_of_ne hbusy, hkeeps rfl, hdone]

/-- Settles O12: of what the host can do at an edge, only an acceptance and a STATUS write touch
DONE. -/
theorem doneMarksCompletion : Obligations.DoneMarksCompletion := by
  unfold Obligations.DoneMarksCompletion
  refine ⟨fun s t e b hc hs hst => ?_, fun s t hst hreset => ?_⟩
  · refine ⟨?completes, ?accepts, ?cleared, ?other⟩
    case completes =>
      rintro rfl
      cases (step_atCycle hc hs).symm.trans hst
      exact done_of_completes hs
    case accepts =>
      intro i hi
      rw [engine_of_accepts hst hi, acceptedEngine_done]
    case cleared =>
      rintro rfl d hw hbit
      cases (step_writesReg_status hw hs).symm.trans hst
      simp [Engine.statusWrite_done, hbit]
    case other =>
      rintro rfl haccept hbit
      obtain ⟨hdone, -, -⟩ := (seqStep_completion hs).2 rfl
      cases (step_atCycle hc hs).symm.trans hst
      rw [State.afterEdge_engine, ← hdone]
      obtain ⟨i, hi, -⟩ | ⟨c, -, h⟩ | ⟨d, hw, h⟩ | ⟨r, d, -, -, h⟩ | h := accessEngine_cases hc hs
      · exact absurd hi (haccept i)
      · rw [h, Engine.raise_done]
      · rw [h, Engine.statusWrite_done, hbit d hw]
        rfl
      · rw [h, Engine.writePlain_done]
      · rw [h]
  · rw [engine_of_resets hst hreset]
    rfl

/-! Who writes the registers (10_state.md sections 2 and 4). -/

/-- What a step can do to the engine, said once: a step in reset, a rise of `rst_n`, which leaves
it, or Cycle. -/
theorem step_engineCases {s t : State} (hst : step s = .next t) :
    s.resets ∨ t.engine = s.engine ∨
    (s.atCycle ∧ ∃ e b, seqStep s.engine = .ok (e, b) ∧
      t.engine = accessEngine s.access s.engine.busy b e) := by
  obtain ⟨hc, e, b, hs, rfl⟩ | ⟨hedge, hrst, -⟩ | ⟨rest, hfall, -⟩ | ⟨rest, -, hrise⟩ :=
    step_cases hst
  · exact .inr (.inr ⟨hc, e, b, hs, rfl⟩)
  · exact .inl (.inr ⟨hrst, hedge⟩)
  · exact .inl (.inl ⟨rest, hfall⟩)
  · cases hrise
    exact .inr (.inl rfl)

/-- Settles O49: a sequencer step leaves KEY and DIN, CLEAR is the one command that writes them, and
a host write reaches its own register alone. -/
theorem keyAndDinWriters : Obligations.KeyAndDinWriters := by
  unfold Obligations.KeyAndDinWriters
  intro s t hst
  obtain hreset | hsame | ⟨hc, e, b, hs, ht⟩ := step_engineCases hst
  · exact ⟨fun _ => .inr (.inr hreset), fun _ => .inr (.inr hreset)⟩
  · exact ⟨fun h => absurd (by rw [hsame]) h, fun h => absurd (by rw [hsame]) h⟩
  · obtain ⟨hkey, hdin, -⟩ := seqStep_frame hs
    obtain ⟨i, hi, h⟩ | ⟨c, -, h⟩ | ⟨d, -, h⟩ | ⟨r, d, -, hw, h⟩ | h := accessEngine_cases hc hs
    all_goals rw [ht, h]
    · by_cases hclear : i = .clear
      · subst hclear
        exact ⟨fun _ => .inr (.inl hi), fun _ => .inr (.inl hi)⟩
      · obtain ⟨hkey', hdin'⟩ := acceptedEngine_keyDin hclear s.engine
        exact ⟨fun h => absurd hkey' h, fun h => absurd hdin' h⟩
    · exact ⟨fun h => absurd hkey h, fun h => absurd hdin h⟩
    · rw [Engine.statusWrite_key, Engine.statusWrite_din]
      exact ⟨fun h => absurd hkey h, fun h => absurd hdin h⟩
    · constructor
      · intro hne
        by_contra hnone
        have hr : ∀ i, r ≠ .key i := fun i hri => hnone (.inl ⟨i, d, hri ▸ hw⟩)
        exact hne ((writePlain_key hr d e).trans hkey)
      · intro hne
        by_contra hnone
        have hr : ∀ i, r ≠ .din i := fun i hri => hnone (.inl ⟨i, d, hri ▸ hw⟩)
        exact hne ((writePlain_din hr d e).trans hdin)
    · exact ⟨fun h => absurd hkey h, fun h => absurd hdin h⟩

/-- Whatever the host does at an edge but have a command accepted, DOUT, BRES and RK are left. -/
theorem accessEngine_results {s : State} (hc : s.atCycle) {e : Engine} {b : Bool}
    (hs : seqStep s.engine = .ok (e, b)) :
    (∃ i, s.accepts i ∧
      accessEngine s.access s.engine.busy b e = acceptedEngine i s.engine) ∨
    ((accessEngine s.access s.engine.busy b e).dout = e.dout ∧
      (accessEngine s.access s.engine.busy b e).bres = e.bres ∧
      (accessEngine s.access s.engine.busy b e).rk = e.rk) := by
  obtain haccept | ⟨c, -, h⟩ | ⟨d, -, h⟩ | ⟨r, d, -, -, h⟩ | h := accessEngine_cases hc hs
  · exact .inl haccept
  all_goals refine .inr ?_; rw [h]
  · exact ⟨rfl, rfl, rfl⟩
  · exact ⟨e.statusWrite_dout b d, e.statusWrite_bres b d, e.statusWrite_rk b d⟩
  · exact ⟨e.writePlain_dout r d, e.writePlain_bres r d, e.writePlain_rk r d⟩
  · exact ⟨rfl, rfl, rfl⟩

/-- RK changes at an acceptance only of a multi-step command or CLEAR (R31). -/
theorem acceptedEngine_rk {i : Instr} (hsingle : i.multiStep = false) (hclear : i ≠ .clear)
    (e : Engine) : (acceptedEngine i e).rk = e.rk := by
  obtain ⟨-, -, -, -, -, hrk⟩ := Engine.withSequencerOf_eq_self_iff.mp
    (acceptedEngine_withSequencerOf hsingle hclear e)
  exact hrk

/-- Settles O50: an acceptance writes its command's result, and without one the sequencer's step is
the only writer. -/
theorem resultRegisterWriters : Obligations.ResultRegisterWriters := by
  unfold Obligations.ResultRegisterWriters
  intro s t hst
  obtain hreset | hsame | ⟨hc, e, b, hs, ht⟩ := step_engineCases hst
  · exact ⟨fun _ => .inr (.inr (.inr hreset)), fun _ => .inr hreset, fun _ => .inr (.inr hreset)⟩
  · rw [hsame]
    exact ⟨fun h => absurd rfl h, fun h => absurd rfl h, fun h => absurd rfl h⟩
  · rw [ht]
    obtain ⟨i, hi, h⟩ | ⟨hdout, hbres, hrk⟩ := accessEngine_results hc hs
    · rw [h]
      refine ⟨fun hne => ?dout, fun hne => ?bres, fun hne => ?rk⟩
      case dout =>
        have hw : Claims.writesDout i ≠ false := fun hw => hne (acceptedEngine_dout hw _)
        exact .inr (.inr (.inl ⟨i, hi, Bool.ne_false_iff.mp hw⟩))
      case bres =>
        have hw : Claims.writesBres i ≠ false := fun hw => hne (acceptedEngine_bres hw _)
        exact .inl ⟨i, hi, Bool.ne_false_iff.mp hw⟩
      case rk =>
        refine .inr (.inl ⟨i, hi, ?_⟩)
        by_contra hnot
        obtain ⟨hsingle, hclear⟩ := not_or.mp hnot
        exact hne (acceptedEngine_rk (Bool.not_eq_true _ ▸ hsingle) hclear _)
    · obtain ⟨hrk', hdout'⟩ := seqStep_results hs
      obtain ⟨-, -, hbres', -⟩ := seqStep_frame hs
      rw [hdout, hbres, hrk]
      refine ⟨fun hne => ?dout, fun hne => absurd hbres' hne,
        fun hne => .inl (hrk'.resolve_left hne)⟩
      case dout =>
        obtain henc | hdec := hdout'.resolve_left hne
        · exact .inl henc
        · exact .inr (.inl hdec)

/-- Settles O51: a step that stays busy does not complete, so neither it nor the host writes DOUT.
-/
theorem doutHeldWhileBusy : Obligations.DoutHeldWhileBusy := by
  unfold Obligations.DoutHeldWhileBusy
  intro s t hc hbusy hst hbusy'
  obtain ⟨e, b, hs, rfl⟩ := step_atCycle_next hc hst
  rw [State.afterEdge_engine, Engine.busy_of_ne hbusy] at hbusy' ⊢
  obtain ⟨hdout, -, -, -, hphase, -⟩ := accessEngine_busy_frame s.access b e
  rw [hphase] at hbusy'
  have hb : b = false := by
    by_contra hb
    obtain ⟨-, hidle, -⟩ := (seqStep_completion hs).1 (Bool.not_eq_false _ ▸ hb)
    exact hbusy' hidle
  obtain ⟨-, hdout', -⟩ := (seqStep_completion hs).2 hb
  exact hdout.trans hdout'

/-! Bus reads after a command or a host write (R53). -/

theorem readValue_congr {e f : Engine} {a : Addr}
    (h : ∀ r, regAt a = some r → f.readReg r = e.readReg r) : f.readValue a = e.readValue a := by
  unfold Engine.readValue
  cases hr : regAt a with
  | none => rfl
  | some r => exact h r hr

/-- A single-edge command but CLEAR shows in STATUS and in the register of its result alone. -/
theorem readReg_acceptedEngine {i : Instr} (hsingle : i.multiStep = false) (hclear : i ≠ .clear)
    (e : Engine) {r : RegName} (hstatus : r ≠ .status)
    (hdout : Claims.writesDout i = true → ∀ j, r ≠ .dout j)
    (hbres : Claims.writesBres i = true → r ≠ .bres) :
    (acceptedEngine i e).readReg r = e.readReg r := by
  obtain ⟨hkey, hdin⟩ := acceptedEngine_keyDin hclear e
  obtain ⟨hieDone, hieErr⟩ := acceptedEngine_enables i e
  obtain ⟨hphase, -, -, -, -, hrk⟩ := Engine.withSequencerOf_eq_self_iff.mp
    (acceptedEngine_withSequencerOf hsingle hclear e)
  cases r with
  | cmd => rfl
  | status => exact absurd rfl hstatus
  | ctrl => simp only [Engine.readReg, Engine.ctrlWord, hieDone, hieErr]
  | bres =>
    have hw : Claims.writesBres i = false := Bool.eq_false_iff.mpr fun hw => hbres hw rfl
    simp only [Engine.readReg, acceptedEngine_bres hw]
  | id => rfl
  | key j => simp only [Engine.readReg, hkey]
  | din j => simp only [Engine.readReg, hdin]
  | dout j =>
    have hw : Claims.writesDout i = false := Bool.eq_false_iff.mpr fun hw => hdout hw j rfl
    simp only [Engine.readReg, acceptedEngine_dout hw]
  | rk j =>
    have hbusy : (acceptedEngine i e).busy = e.busy := by simp only [Engine.busy, hphase]
    simp only [Engine.readReg, hbusy, hrk]

/-- Settles O52: an acceptance changes the engine alone, and in it the command's result and STATUS.
-/
theorem singleEdgeFrame : Obligations.SingleEdgeFrame := by
  unfold Obligations.SingleEdgeFrame
  intro i s hsingle hclear hidle
  obtain ⟨hphase, hrnd, hlop, hlvar, hst, hrk⟩ := Engine.withSequencerOf_eq_self_iff.mp
    (acceptedEngine_withSequencerOf hsingle hclear s.engine)
  refine ⟨_, exec_idle hidle i, fun a hstatus hdout hbres => ?_, hrk, hst, hphase.trans hidle, hrnd,
    hlop, hlvar, rfl, rfl, rfl, rfl, rfl⟩
  apply readValue_congr
  intro r hr
  rw [hr] at hstatus hdout hbres
  simp only [ne_eq, Option.some.injEq] at hstatus hdout hbres
  exact readReg_acceptedEngine hsingle hclear s.engine hstatus hdout hbres

/-- KEY[i] and DIN[i] hold what was written to them (R21, R22, R57). -/
theorem readReg_writePlain_same {r : RegName} (h : ∃ i, r = .key i ∨ r = .din i) (d : Word)
    (e : Engine) : (e.writePlain r d).readReg r = d := by
  obtain ⟨i, rfl | rfl⟩ := h
  · exact (Regs4.get_set e.key i i d).trans (if_pos rfl)
  · exact (Regs4.get_set e.din i i d).trans (if_pos rfl)

/-- A write to a register other than CMD and STATUS shows in no other register (R57, R278). -/
theorem readReg_writePlain_ne {r r' : RegName} (h : r' ≠ r) (d : Word) (e : Engine) :
    (e.writePlain r d).readReg r' = e.readReg r' := by
  cases r with
  | key i =>
    cases r' with
    | key j =>
      have hne : j ≠ i := fun hij => h (congrArg RegName.key hij)
      exact (Regs4.get_set e.key i j d).trans (if_neg hne)
    | _ => rfl
  | din i =>
    cases r' with
    | din j =>
      have hne : j ≠ i := fun hij => h (congrArg RegName.din hij)
      exact (Regs4.get_set e.din i j d).trans (if_neg hne)
    | _ => rfl
  | ctrl =>
    cases r' with
    | ctrl => exact absurd rfl h
    | _ => rfl
  | _ => rfl

/-- On an idle engine a write to KEY or DIN reads back, and no other address reads otherwise. -/
theorem readBack_of_writesReg {s : State} {r : RegName} {d : Word}
    (hr : ∃ i, r = .key i ∨ r = .din i) (hidle : s.engine.phase = .idle) (hw : s.writesReg r d) :
    ∃ t, step s = .next t ∧ t.engine.readValue r.addr = d ∧
      ∀ a, regAt a ≠ some r → t.engine.readValue a = s.engine.readValue a := by
  have hcmd : r ≠ .cmd := by rintro rfl; simp at hr
  have hstatus : r ≠ .status := by rintro rfl; simp at hr
  refine ⟨_, step_writesReg_plain hw hcmd hstatus (seqStep_idle hidle), ?_, fun a ha => ?_⟩
  · rw [State.afterEdge_engine, readValue_addr, readReg_writePlain_same hr]
  · apply readValue_congr
    intro r' hr'
    have hne : r' ≠ r := by
      rintro rfl
      exact ha hr'
    exact readReg_writePlain_ne hne d s.engine

/-- Settles O47: a KEY or DIN write is seen at its own register and nowhere else. -/
theorem keyAndDinReadBack : Obligations.KeyAndDinReadBack := by
  unfold Obligations.KeyAndDinReadBack
  intro s i d hidle
  exact ⟨readBack_of_writesReg ⟨i, .inl rfl⟩ hidle, readBack_of_writesReg ⟨i, .inr rfl⟩ hidle⟩

end Sys2Proof.Machine
end

section
/-! Proofs about the arithmetic of GF(2^8) (40_gf_arith.md sections 1 to 3): the laws of `gf_mul`,
and that it is the product of polynomials modulo 0x11B. Both sides of each law are additive in every
operand, so a law holds when it holds for the powers of {02}. -/

namespace Sys2Proof.Machine

/-! The inverse of a byte. -/

/-- The inverse of the affine map of R124. -/
def unaffine (x : Byte) : Byte := x.rotateLeft 1 ^^^ x.rotateLeft 3 ^^^ x.rotateLeft 6 ^^^ 0x05

theorem affine_unaffine (x : Byte) : Claims.affine (unaffine x) = x := by
  revert x; decide

/-- The inverse of `b` in GF(2^8), and 0 for 0, read off the Original table (R124). -/
def gfInverse (b : Byte) : Byte := unaffine (sboxFwd .original b)

theorem gfMul_gfInverse (b : Byte) :
    (b = 0x00 ∧ gfInverse b = 0x00) ∨ gfMul b (gfInverse b) = 0x01 := by
  revert b; decide

/-- Settles O37: the table is the affine map of the inverses read off it, and these are the
inverses. -/
theorem originalSboxIsAffineOfInverse : Obligations.OriginalSboxIsAffineOfInverse := by
  unfold Obligations.OriginalSboxIsAffineOfInverse
  exact fun b => ⟨gfInverse b, gfMul_gfInverse b, (affine_unaffine _).symm⟩

/-! The laws of R105. -/

theorem gfMul_two (a : Byte) : gfMul a 0x02 = gfDouble a :=
  (gfMul_comm a 0x02).trans (two_gfMul a)

theorem gfMul_three (a : Byte) : gfMul a 0x03 = gfDouble a ^^^ a :=
  (gfMul_comm a 0x03).trans (three_gfMul a)

/-- Associativity (R105 (f)): both sides are additive in `a`, and for a power of {02} both are
doublings of the product of `b` and `c`. -/
theorem gfMul_assoc (a b c : Byte) : gfMul a (gfMul b c) = gfMul (gfMul a b) c := by
  induction a using byte_induction with
  | zero => simp only [zero_gfMul]
  | xor x y hx hy => rw [gfMul_xor_left, hx, hy, ← gfMul_xor_left, ← gfMul_xor_left]
  | power i hi => simp only [gfMul_gfDouble_iterate_left, one_gfMul]

theorem gfDouble_eq_zero {a : Byte} (h : gfDouble a = 0x00) : a = 0x00 := by
  revert a; decide

/-- Doubling is additive and takes only 0 to 0, so it is one to one on the 256 bytes. -/
theorem gfDouble_bijective : Function.Bijective gfDouble := by
  have hinj : Function.Injective gfDouble := by
    intro a b h
    have hzero : gfDouble (a ^^^ b) = 0 := by rw [gfDouble_xor, h]; exact BitVec.xor_self
    exact BitVec.xor_eq_zero_iff.mp (gfDouble_eq_zero hzero)
  exact ⟨hinj, Finite.injective_iff_surjective.mp hinj⟩

/-- A byte other than 0 has one inverse: two inverses of `a` differ by the factor `1 = b · a`. -/
theorem existsUnique_gfMul_eq_one {a : Byte} (ha : a ≠ 0x00) : ∃! b, gfMul a b = 0x01 := by
  have hinv : gfMul a (gfInverse a) = 0x01 := (gfMul_gfInverse a).resolve_left fun h => ha h.1
  refine ⟨gfInverse a, hinv, fun b hb => ?_⟩
  calc b = gfMul b (gfMul a (gfInverse a)) := by rw [hinv, gfMul_one]
    _ = gfMul (gfMul a b) (gfInverse a) := by rw [gfMul_assoc, gfMul_comm b a]
    _ = gfInverse a := by rw [hb, one_gfMul]

/-- Settles O35: the nine laws of R105. -/
theorem gfLaws : Obligations.GfLaws := by
  unfold Obligations.GfLaws
  exact ⟨fun a => ⟨gfMul_zero a, zero_gfMul a⟩, fun a => ⟨gfMul_one a, one_gfMul a⟩, gfMul_two,
    gfMul_three, gfMul_comm, gfMul_assoc, gfMul_xor_right,
    ⟨gfDouble_bijective, fun a => gfDouble_eq_zero⟩, fun a => existsUnique_gfMul_eq_one⟩

/-! The product of polynomials and its remainder (R100, R101). -/

/-- Two terms chosen by two bits add up to the sum of the terms chosen. -/
theorem xor_ite_xor {n : Nat} (s t : Bool) (p q x : BitVec n) :
    (if s ^^ t then p ^^^ q ^^^ x else p ^^^ q) =
      (if s then p ^^^ x else p) ^^^ (if t then q ^^^ x else q) := by
  have hboth : (p ^^^ x) ^^^ (q ^^^ x) = p ^^^ q ^^^ (x ^^^ x) := by ac_rfl
  rw [BitVec.xor_self, BitVec.xor_zero] at hboth
  cases s <;> cases t
  case true.true => exact hboth.symm
  all_goals simp only [Bool.xor_false, Bool.xor_true, Bool.not_false, Bool.false_eq_true, if_true,
    if_false]
  all_goals ac_rfl

/-- Long division is additive in the dividend (R101). -/
theorem polyMod_xor (p q : BitVec 16) :
    Claims.polyMod (p ^^^ q) = Claims.polyMod p ^^^ Claims.polyMod q := by
  unfold Claims.polyMod
  rw [← BitVec.setWidth_xor]
  congr 1
  generalize [14, 13, 12, 11, 10, 9, 8] = degrees
  induction degrees generalizing p q with
  | nil => rfl
  | cons d ds ih => rw [List.foldl_cons, BitVec.getLsbD_xor, xor_ite_xor, ih]; rfl

/-- What bit `i` of `b` adds to the product (R100). -/
def polyTerm (a b : Byte) (i : Nat) : BitVec 16 := if b.getLsbD i then a.setWidth 16 <<< i else 0

theorem polyTerm_xor_left (a a' b : Byte) (i : Nat) :
    polyTerm (a ^^^ a') b i = polyTerm a b i ^^^ polyTerm a' b i := by
  unfold polyTerm
  split_ifs
  · rw [BitVec.setWidth_xor, BitVec.shiftLeft_xor_distrib]
  · rfl

theorem polyTerm_xor_right (a b b' : Byte) (i : Nat) :
    polyTerm a (b ^^^ b') i = polyTerm a b i ^^^ polyTerm a b' i := by
  unfold polyTerm
  rw [BitVec.getLsbD_xor]
  cases b.getLsbD i <;> cases b'.getLsbD i <;> simp

theorem polyProduct_eq_foldl (a b : Byte) :
    Claims.polyProduct a b =
      [0, 1, 2, 3, 4, 5, 6, 7].foldl (fun p i => p ^^^ polyTerm a b i) 0 := by
  have hstep : (fun (p : BitVec 16) i => if b.getLsbD i then p ^^^ (a.setWidth 16 <<< i) else p) =
      fun p i => p ^^^ polyTerm a b i := by
    funext p i
    unfold polyTerm
    split_ifs
    · rfl
    · exact BitVec.xor_zero.symm
  rw [Claims.polyProduct, hstep]

/-- A sum of sums is the sum of the two sums. -/
theorem foldl_xor_xor {n : Nat} (s t : Nat → BitVec n) (is : List Nat) (p q : BitVec n) :
    is.foldl (fun p i => p ^^^ (s i ^^^ t i)) (p ^^^ q) =
      is.foldl (fun p i => p ^^^ s i) p ^^^ is.foldl (fun p i => p ^^^ t i) q := by
  induction is generalizing p q with
  | nil => rfl
  | cons i is ih =>
    have hterms : p ^^^ q ^^^ (s i ^^^ t i) = (p ^^^ s i) ^^^ (q ^^^ t i) := by ac_rfl
    simp only [List.foldl_cons, hterms, ih]

/-- The product is additive in its first factor (R100). -/
theorem polyProduct_xor_left (a a' b : Byte) :
    Claims.polyProduct (a ^^^ a') b = Claims.polyProduct a b ^^^ Claims.polyProduct a' b := by
  simp only [polyProduct_eq_foldl, polyTerm_xor_left]
  exact foldl_xor_xor _ _ _ 0 0

/-- The product is additive in its second factor (R100). -/
theorem polyProduct_xor_right (a b b' : Byte) :
    Claims.polyProduct a (b ^^^ b') = Claims.polyProduct a b ^^^ Claims.polyProduct a b' := by
  simp only [polyProduct_eq_foldl, polyTerm_xor_right]
  exact foldl_xor_xor _ _ _ 0 0

theorem zero_polyProduct (b : Byte) : Claims.polyProduct 0 b = 0 := by
  have h := polyProduct_xor_left 0 0 b
  rwa [BitVec.xor_self, BitVec.xor_self] at h

theorem polyProduct_zero (a : Byte) : Claims.polyProduct a 0 = 0 := by
  have h := polyProduct_xor_right a 0 0
  rwa [BitVec.xor_self, BitVec.xor_self] at h

/-- On the powers of {02} the loop and the division agree. -/
theorem gfMul_power_eq_polyMod : ∀ i < 8, ∀ j < 8,
    gfMul (gfDouble^[i] 1) (gfDouble^[j] 1) =
      Claims.polyMod (Claims.polyProduct (gfDouble^[i] 1) (gfDouble^[j] 1)) := by
  decide

/-- Settles O36: both sides are additive in `a` and in `b`, and agree on the powers of {02}. -/
theorem gfMulIsProductModPolynomial : Obligations.GfMulIsProductModPolynomial := by
  unfold Obligations.GfMulIsProductModPolynomial
  intro a b
  induction a using byte_induction with
  | zero => rw [zero_gfMul, zero_polyProduct]; rfl
  | xor x y hx hy => rw [gfMul_xor_left, polyProduct_xor_left, polyMod_xor, hx, hy]
  | power i hi =>
    induction b using byte_induction with
    | zero => rw [gfMul_zero, polyProduct_zero]; rfl
    | xor x y hx hy => rw [gfMul_xor_right, polyProduct_xor_right, polyMod_xor, hx, hy]
    | power j hj => exact gfMul_power_eq_polyMod i hi j hj

end Sys2Proof.Machine
end

section
/-! Proofs about the S-box tables (41_sbox.md section 2) and the laws of the round transforms
(43_round_transforms.md section 2). First additive facts of columns: a law of MixColumns that is
additive holds when it holds for the columns with one power of {02} and three zeros. -/

namespace Sys2Proof

/-! Exclusive-or of Words and Blocks by their elements (R9). -/

@[simp] theorem ByteWord.get_xor (v w : ByteWord) (r : Fin 4) :
    (v.xor w).get r = v.get r ^^^ w.get r := by
  fin_cases r <;> rfl

@[simp] theorem Block.col_xor (s k : Block) (c : Fin 4) :
    (s.xor k).col c = (s.col c).xor (k.col c) := by
  fin_cases c <;> rfl

@[simp] theorem Block.entry_xor (s k : Block) (r c : Fin 4) :
    (s.xor k).entry r c = s.entry r c ^^^ k.entry r c := by
  rw [Block.entry, Block.col_xor, ByteWord.get_xor]
  rfl

theorem Block.ext_col {s t : Block} (h : ∀ c, s.col c = t.col c) : s = t := by
  rw [Block.mk.injEq]
  exact ⟨h 0, h 1, h 2, h 3⟩

/-- The column with `x` in row `r` and 0 in the others. -/
def ByteWord.single (r : Fin 4) (x : Byte) : ByteWord :=
  ⟨if r = 0 then x else 0, if r = 1 then x else 0, if r = 2 then x else 0, if r = 3 then x else 0⟩

theorem ByteWord.get_single (r : Fin 4) (x : Byte) (j : Fin 4) :
    (single r x).get j = if r = j then x else 0 := by
  fin_cases j <;> rfl

theorem ByteWord.single_xor (r : Fin 4) (x y : Byte) :
    single r (x ^^^ y) = (single r x).xor (single r y) := by
  apply ByteWord.ext_get
  intro j
  rw [get_xor, get_single, get_single, get_single]
  split_ifs
  · rfl
  · rfl

/-- A column is the sum of its four elements. -/
theorem ByteWord.eq_xor_single (w : ByteWord) :
    w = ((single 0 w.b0).xor (single 1 w.b1)).xor ((single 2 w.b2).xor (single 3 w.b3)) := by
  simp [ByteWord.xor, single]

open Machine in
/-- The columns with one power of {02} and three zeros span the columns. -/
theorem ByteWord.xor_induction {P : ByteWord → Prop} (xor : ∀ v w, P v → P w → P (v.xor w))
    (zero : P ⟨0, 0, 0, 0⟩) (power : ∀ r, ∀ i < 8, P (single r (gfDouble^[i] 1))) (w : ByteWord) :
    P w := by
  have hsingle : ∀ r x, P (single r x) := by
    intro r x
    induction x using byte_induction with
    | zero =>
      have hzero : single r 0 = ⟨0, 0, 0, 0⟩ := by simp [single]
      exact hzero ▸ zero
    | xor x y hx hy => exact single_xor r x y ▸ xor _ _ hx hy
    | power i hi => exact power r i hi
  rw [eq_xor_single w]
  exact xor _ _ (xor _ _ (hsingle 0 _) (hsingle 1 _)) (xor _ _ (hsingle 2 _) (hsingle 3 _))

end Sys2Proof

namespace Sys2Proof.Machine

/-! The tables (R125, R126). -/

/-- A table pair that undoes itself one way does so the other way, because a table has 256 entries
(R126 (a)). -/
theorem sboxFwd_sboxInv {v : Variant} (hv : v ≠ .k128) (b : Byte) :
    sboxFwd v (sboxInv v b) = b := by
  have hleft : Function.LeftInverse (sboxInv v) (sboxFwd v) := sboxInv_sboxFwd hv
  exact hleft.rightInverse_of_surjective (Finite.injective_iff_surjective.mp hleft.injective) b

/-- Original has no fixed point and no opposite fixed point (R127). -/
theorem sboxFwd_original_ne (b : Byte) :
    sboxFwd .original b ≠ b ∧ sboxFwd .original b ≠ b ^^^ 0xFF := by
  revert b; decide

/-- Settles O38: one direction is the constraint on the tables, and the other follows from their
size. -/
theorem sboxTablesAreInverse : Obligations.SboxTablesAreInverse := by
  unfold Obligations.SboxTablesAreInverse
  exact ⟨fun v hv b => ⟨sboxInv_sboxFwd hv b, sboxFwd_sboxInv hv b⟩, Config.k128.broken,
    sboxFwd_original_ne, by decide, by decide⟩

/-! The round transforms (R168, R169). -/

theorem shiftRows_invShiftRows (s : Block) : shiftRows (invShiftRows s) = s := by
  apply Block.ext_entry
  intro r c
  rw [shiftRows_entry, invShiftRows_entry, add_sub_cancel_right]

theorem mixColumn_xor (v w : ByteWord) : mixColumn (v.xor w) = (mixColumn v).xor (mixColumn w) := by
  apply ByteWord.ext_get
  intro r
  simp only [mixColumn_get, ByteWord.get_xor, gfMul_xor_right]
  ac_rfl

theorem invMixColumn_xor (v w : ByteWord) :
    invMixColumn (v.xor w) = (invMixColumn v).xor (invMixColumn w) := by
  apply ByteWord.ext_get
  intro r
  simp only [invMixColumn_get, ByteWord.get_xor, gfMul_xor_right]
  ac_rfl

/-- The matrices of R164 and R165 are inverse to each other: checked on the powers of {02} in each
row, which span the columns. -/
theorem invMixColumn_mixColumn (w : ByteWord) : invMixColumn (mixColumn w) = w := by
  induction w using ByteWord.xor_induction with
  | xor v w hv hw => rw [mixColumn_xor, invMixColumn_xor, hv, hw]
  | zero => decide
  | power r i hi => revert r i; decide

theorem mixColumn_invMixColumn (w : ByteWord) : mixColumn (invMixColumn w) = w := by
  induction w using ByteWord.xor_induction with
  | xor v w hv hw => rw [invMixColumn_xor, mixColumn_xor, hv, hw]
  | zero => decide
  | power r i hi => revert r i; decide

theorem invMixColumns_mixColumns (s : Block) : invMixColumns (mixColumns s) = s := by
  apply Block.ext_col
  intro c
  rw [invMixColumns_col, mixColumns_col, invMixColumn_mixColumn]

theorem mixColumns_invMixColumns (s : Block) : mixColumns (invMixColumns s) = s := by
  apply Block.ext_col
  intro c
  rw [mixColumns_col, invMixColumns_col, mixColumn_invMixColumn]

theorem mixColumns_xor (s k : Block) :
    mixColumns (s.xor k) = (mixColumns s).xor (mixColumns k) := by
  apply Block.ext_col
  intro c
  simp only [mixColumns_col, Block.col_xor, mixColumn_xor]

theorem invMixColumns_xor (s k : Block) :
    invMixColumns (s.xor k) = (invMixColumns s).xor (invMixColumns k) := by
  apply Block.ext_col
  intro c
  simp only [invMixColumns_col, Block.col_xor, invMixColumn_xor]

/-- AddRoundKey is its own inverse (R168). -/
@[simp] theorem addRoundKey_addRoundKey (s k : Block) : addRoundKey (addRoundKey s k) k = s := by
  apply Block.ext_entry
  intro r c
  rw [addRoundKey, addRoundKey, Block.entry_xor, Block.entry_xor, BitVec.xor_assoc]
  exact (congrArg _ BitVec.xor_self).trans BitVec.xor_zero

theorem subBytes_shiftRows (v : Variant) (s : Block) :
    subBytes v (shiftRows s) = shiftRows (subBytes v s) := by
  apply Block.ext_entry
  intro r c
  rw [subBytes, subBytes, Block.entry_map, shiftRows_entry, shiftRows_entry, Block.entry_map]

theorem invSubBytes_invShiftRows (v : Variant) (s : Block) :
    invSubBytes v (invShiftRows s) = invShiftRows (invSubBytes v s) := by
  apply Block.ext_entry
  intro r c
  rw [invSubBytes, invSubBytes, Block.entry_map, invShiftRows_entry, invShiftRows_entry,
    Block.entry_map]

/-- A block with an element that K128 does not restore is not restored (R126 (b)). -/
theorem exists_invSubBytes_k128_ne : ∃ s, invSubBytes .k128 (subBytes .k128 s) ≠ s := by
  obtain ⟨b, hb⟩ := Config.k128.broken
  refine ⟨(⟨⟨b, b, b, b⟩, ⟨b, b, b, b⟩, ⟨b, b, b, b⟩, ⟨b, b, b, b⟩⟩ : Block), fun h => hb ?_⟩
  exact congrArg (fun s => s.entry 0 0) h

/-- Settles O39: the inverses and the linearity hold column by column or element by element. -/
theorem roundTransformLaws : Obligations.RoundTransformLaws := by
  unfold Obligations.RoundTransformLaws
  exact ⟨fun s => ⟨invShiftRows_shiftRows s, shiftRows_invShiftRows s⟩,
    fun s => ⟨invMixColumns_mixColumns s, mixColumns_invMixColumns s⟩, addRoundKey_addRoundKey,
    fun s k => ⟨mixColumns_xor s k, invMixColumns_xor s k⟩,
    fun v s => ⟨subBytes_shiftRows v s, invSubBytes_invShiftRows v s⟩,
    fun v s hv => invSubBytes_subBytes hv s, exists_invSubBytes_k128_ne⟩

end Sys2Proof.Machine
end

section
/-! Proofs about byte order (20_memory.md section 3, 10_state.md section 4) and the key schedule
(42_key_schedule.md section 1). First the words of the byte-by-byte expansion of R141: each turn of
its loop appends one, and later turns leave it. -/

namespace Sys2Proof

@[simp] theorem Block.bytes_length (s : Block) : s.bytes.length = 16 := rfl

theorem ByteWord.xor_assoc (u v w : ByteWord) : (u.xor v).xor w = u.xor (v.xor w) := by
  simp only [ByteWord.xor, BitVec.xor_assoc]

end Sys2Proof

namespace Sys2Proof.Machine

/-! Byte order (R31, R52). -/

theorem w2b_get (w : Word) (r : Fin 4) : (w2b w).get r = w.extractLsb' (24 - 8 * r.val) 8 := by
  fin_cases r <;> rfl

@[simp] theorem blockOf_col (g : Regs4) (c : Fin 4) : (blockOf g).col c = w2b (g.get c) := by
  fin_cases c <;> rfl

theorem rkGroup_get (rk : RoundKeys) (n : Nat) (i : Fin 4) :
    (rkGroup rk n).get i = rkWord rk (4 * n + i.val) := by
  fin_cases i <;> rfl

/-- Byte `k` of a register group (R52). -/
theorem blockOf_byte (g : Regs4) (k : Fin 16) :
    (blockOf g).byte k = (g.get ⟨k.val / 4, by omega⟩).extractLsb' (24 - 8 * (k.val % 4)) 8 := by
  rw [Block.byte, Block.entry, blockOf_col, w2b_get]

/-- Byte `k` of round key `n` is expanded-key byte `16n + k` (R31, R32). -/
theorem roundKeyRK_byte (rk : RoundKeys) (n : Nat) (k : Fin 16) :
    (roundKeyRK rk n).byte k = rkByte rk (16 * n + k.val) := by
  have hword : (16 * n + k.val) / 4 = 4 * n + k.val / 4 := by omega
  have hbyte : (16 * n + k.val) % 4 = k.val % 4 := by omega
  rw [roundKeyRK, blockOf_byte, rkGroup_get, rkByte, hword, hbyte]

/-- Settles O48: byte `r` of a word is the slice at `24 - 8r`, and the rest is the words' own
indexing. -/
theorem bytesAreBigEndianInWords : Obligations.BytesAreBigEndianInWords := by
  unfold Obligations.BytesAreBigEndianInWords
  exact ⟨blockOf_byte, blockOf_packed, packed_blockOf, fun rk n k _ => roundKeyRK_byte rk n k,
    by decide⟩

/-! Words of a byte sequence. -/

theorem wordAt_get (xs : List Byte) (j : Nat) (r : Fin 4) :
    (wordAt xs j).get r = xs.getD (j + r.val) 0 := by
  fin_cases r <;> rfl

theorem blockAt_col (xs : List Byte) (j : Nat) (c : Fin 4) :
    (blockAt xs j).col c = wordAt xs (j + 4 * c.val) := by
  fin_cases c <;> rfl

/-- Byte `k` of round key `n` of an expanded key (R10). -/
theorem roundKey_byte (xs : List Byte) (n : Nat) (k : Fin 16) :
    (roundKey xs n).byte k = xs.getD (16 * n + k.val) 0 := by
  have hk : 16 * n + 4 * (k.val / 4) + k.val % 4 = 16 * n + k.val := by omega
  rw [roundKey, Block.byte, Block.entry, blockAt_col, wordAt_get, hk]

theorem wordAt_of_prefix {xs ys : List Byte} (h : xs <+: ys) {j : Nat} (hj : j + 4 ≤ xs.length) :
    wordAt ys j = wordAt xs j := by
  obtain ⟨zs, rfl⟩ := h
  apply ByteWord.ext_get
  intro r
  rw [wordAt_get, wordAt_get, List.getD_append _ _ _ _ (by omega)]

theorem wordAt_append_length (xs : List Byte) (w : ByteWord) :
    wordAt (xs ++ [w.b0, w.b1, w.b2, w.b3]) xs.length = w := by
  apply ByteWord.ext_get
  intro r
  rw [wordAt_get, List.getD_append_right _ _ _ _ (by omega), Nat.add_sub_cancel_left]
  fin_cases r <;> rfl

/-! The loop of R141. -/

theorem appendWord_length (v : Variant) (xk : List Byte) :
    (appendWord v xk).length = xk.length + 4 := by
  simp [appendWord]

/-- One more turn of the loop. -/
theorem appendWords_succ (v : Variant) (n : Nat) (xk : List Byte) :
    appendWords v (n + 1) xk = appendWord v (appendWords v n xk) := by
  induction n generalizing xk with
  | zero => rfl
  | succ n ih => exact ih (appendWord v xk)

theorem appendWords_length (v : Variant) (n : Nat) (xk : List Byte) :
    (appendWords v n xk).length = xk.length + 4 * n := by
  induction n with
  | zero => rfl
  | succ n ih => rw [appendWords_succ, appendWord_length, ih]; omega

/-- The loop only appends. -/
theorem appendWords_prefix (v : Variant) {m n : Nat} (h : m ≤ n) (xk : List Byte) :
    appendWords v m xk <+: appendWords v n xk := by
  induction n, h using Nat.le_induction with
  | base => exact List.prefix_rfl
  | succ n _ ih =>
    rw [appendWords_succ]
    exact ih.trans (List.prefix_append _ _)

theorem scheduleWord_of_prefix (v : Variant) {xs ys : List Byte} (h : xs <+: ys)
    (h4 : 4 ≤ xs.length) : scheduleWord v ys xs.length = scheduleWord v xs xs.length := by
  unfold scheduleWord
  rw [wordAt_of_prefix h (by omega)]

theorem keyExpansion_length (key : Block) (v : Variant) : (keyExpansion key v).length = 176 :=
  appendWords_length v 40 key.bytes

theorem bytes_prefix_keyExpansion (key : Block) (v : Variant) :
    key.bytes <+: keyExpansion key v :=
  appendWords_prefix v (Nat.zero_le 40) key.bytes

/-- The recurrence of R141 in the finished expansion: the word at byte offset `i`. -/
theorem wordAt_keyExpansion (key : Block) (v : Variant) {i : Nat} (h16 : 16 ≤ i) (hi : i < 176)
    (h4 : i % 4 = 0) :
    wordAt (keyExpansion key v) i =
      (wordAt (keyExpansion key v) (i - 16)).xor (scheduleWord v (keyExpansion key v) i) := by
  obtain ⟨m, hm⟩ : ∃ m, i = 16 + 4 * m := ⟨(i - 16) / 4, by omega⟩
  have hlength : (appendWords v m key.bytes).length = i := by
    rw [appendWords_length, Block.bytes_length, hm]
  have hbefore : appendWords v m key.bytes <+: keyExpansion key v :=
    appendWords_prefix v (by omega) _
  have hafter : appendWord v (appendWords v m key.bytes) <+: keyExpansion key v := by
    rw [← appendWords_succ]
    exact appendWords_prefix v (by omega) _
  subst hlength
  rw [wordAt_of_prefix hafter (by rw [appendWord_length]),
    wordAt_of_prefix hbefore (by omega), scheduleWord_of_prefix v hbefore (by omega)]
  exact wordAt_append_length _ _

theorem roundKey_zero_keyExpansion (key : Block) (v : Variant) :
    roundKey (keyExpansion key v) 0 = key := by
  have hword : ∀ j, j + 4 ≤ 16 → wordAt (keyExpansion key v) j = wordAt key.bytes j :=
    fun j hj => wordAt_of_prefix (bytes_prefix_keyExpansion key v) hj
  rw [roundKey, blockAt, hword _ (by decide), hword _ (by decide), hword _ (by decide),
    hword _ (by decide)]
  rfl

/-- The first word of a round key (R144). -/
theorem wordAt_keyExpansion_first (key : Block) (v : Variant) {r : Nat} (h1 : 1 ≤ r)
    (h10 : r ≤ 10) :
    wordAt (keyExpansion key v) (16 * r) =
      ((wordAt (keyExpansion key v) (16 * r - 16)).xor
        (subWord v (rotWord (wordAt (keyExpansion key v) (16 * r - 4))))).xor
          ⟨rcon r, 0x00, 0x00, 0x00⟩ := by
  rw [wordAt_keyExpansion key v (by omega) (by omega) (by omega), scheduleWord,
    if_pos (Nat.mul_mod_right 16 r), Nat.mul_div_cancel_left r (by decide), ByteWord.xor_assoc]

/-- The other words of a round key: each adds the word before it (R144). -/
theorem wordAt_keyExpansion_next (key : Block) (v : Variant) {i : Nat} (h16 : 16 ≤ i) (hi : i < 176)
    (h4 : i % 4 = 0) (hfirst : i % 16 ≠ 0) :
    wordAt (keyExpansion key v) i =
      (wordAt (keyExpansion key v) (i - 16)).xor (wordAt (keyExpansion key v) (i - 4)) := by
  rw [wordAt_keyExpansion key v h16 hi h4, scheduleWord, if_neg hfirst]

/-- The words of round key `r` from those of round key `r - 1` (R144). -/
theorem keyExpansion_round (key : Block) (v : Variant) {r : Nat} (h1 : 1 ≤ r) (h10 : r ≤ 10) :
    wordAt (keyExpansion key v) (16 * r) =
        ((wordAt (keyExpansion key v) (16 * r - 16)).xor
          (subWord v (rotWord (wordAt (keyExpansion key v) (16 * r - 4))))).xor
            ⟨rcon r, 0x00, 0x00, 0x00⟩ ∧
      wordAt (keyExpansion key v) (16 * r + 4) =
        (wordAt (keyExpansion key v) (16 * r - 12)).xor (wordAt (keyExpansion key v) (16 * r)) ∧
      wordAt (keyExpansion key v) (16 * r + 8) =
        (wordAt (keyExpansion key v) (16 * r - 8)).xor (wordAt (keyExpansion key v) (16 * r + 4)) ∧
      wordAt (keyExpansion key v) (16 * r + 12) =
        (wordAt (keyExpansion key v) (16 * r - 4)).xor
          (wordAt (keyExpansion key v) (16 * r + 8)) := by
  have hnext : ∀ j, j < 16 → j % 4 = 0 → j ≠ 0 → wordAt (keyExpansion key v) (16 * r + j) =
      (wordAt (keyExpansion key v) (16 * r + j - 16)).xor
        (wordAt (keyExpansion key v) (16 * r + j - 4)) := fun j hj h4 h0 =>
    wordAt_keyExpansion_next key v (by omega) (by omega) (by omega) (by omega)
  refine ⟨wordAt_keyExpansion_first key v h1 h10, ?_, ?_, ?_⟩
  · rw [hnext 4 (by decide) rfl (by decide), show 16 * r + 4 - 16 = 16 * r - 12 by omega]
    rfl
  · rw [hnext 8 (by decide) rfl (by decide), show 16 * r + 8 - 16 = 16 * r - 8 by omega]
    rfl
  · rw [hnext 12 (by decide) rfl (by decide), show 16 * r + 12 - 16 = 16 * r - 4 by omega]
    rfl

/-- Settles O40: the loop appends, so the key stays in front and each round's words keep the
recurrence they were appended by. -/
theorem keyExpansionRoundForm : Obligations.KeyExpansionRoundForm := by
  unfold Obligations.KeyExpansionRoundForm
  intro key v
  refine ⟨keyExpansion_length key v, ?_, roundKey_zero_keyExpansion key v,
    fun r h1 h10 => keyExpansion_round key v h1 h10⟩
  exact (List.prefix_iff_eq_take.mp (bytes_prefix_keyExpansion key v)).symm

end Sys2Proof.Machine
end

section
/-! Proofs about the cipher functions (44_cipher_sequencer.md section 4): that the inverse cipher
undoes the cipher. Both are first written round by round, as the sequencer makes them: `encSteps`
and `decSteps` are the working block after so many steps of the ENC and the DEC phase. -/

namespace Sys2Proof.Machine

/-- What the ENC step of round `r` makes of the block, with the round key `k` (R203–R205). -/
def encAt (v : Variant) (r : Nat) (k s : Block) : Block :=
  if r = 0 then addRoundKey s k else if r ≤ 9 then encRound v k s else encLastRound v k s

/-- What the DEC step of round `r` makes of the block, with the round key `k` (R206–R208). -/
def decAt (v : Variant) (r : Nat) (k s : Block) : Block :=
  if r = 10 then addRoundKey s k else if r = 0 then decLastRound v k s else decRound v k s

/-- The block after the ENC steps of the rounds `0, …, n - 1`. -/
def encSteps (v : Variant) (xk : List Byte) (b : Block) : Nat → Block
  | 0 => b
  | n + 1 => encAt v n (roundKey xk n) (encSteps v xk b n)

/-- The block after the DEC steps of the rounds `10, …, 11 - n`. -/
def decSteps (v : Variant) (xk : List Byte) (b : Block) : Nat → Block
  | 0 => b
  | n + 1 => decAt v (10 - n) (roundKey xk (10 - n)) (decSteps v xk b n)

/-- The cipher is the eleven ENC steps (R190). -/
theorem cipher_eq_encSteps (b key : Block) (v : Variant) :
    cipher b key v = encSteps v (keyExpansion key v) b 11 := rfl

/-- The inverse cipher is the eleven DEC steps (R191). -/
theorem invCipher_eq_decSteps (b key : Block) (v : Variant) :
    invCipher b key v = decSteps v (keyExpansion key v) b 11 := rfl

theorem encAt_mid (v : Variant) {r : Nat} (h1 : 1 ≤ r) (h9 : r ≤ 9) (k s : Block) :
    encAt v r k s = encRound v k s := by
  rw [encAt, if_neg (by omega), if_pos h9]

theorem decAt_mid (v : Variant) {r : Nat} (h1 : 1 ≤ r) (h9 : r ≤ 9) (k s : Block) :
    decAt v r k s = decRound v k s := by
  rw [decAt, if_neg (by omega), if_neg (by omega)]

/-- InvShiftRows and InvSubBytes undo SubBytes and ShiftRows together (R168). -/
theorem invSubBytes_invShiftRows_shiftRows_subBytes {v : Variant} (hv : v ≠ .k128) (s : Block) :
    invSubBytes v (invShiftRows (shiftRows (subBytes v s))) = s := by
  rw [invShiftRows_shiftRows, invSubBytes_subBytes hv]

/-- After `n + 1` DEC steps on the ciphertext, the block is the one inside ENC round `10 - n`,
between its ShiftRows and its MixColumns. -/
theorem decSteps_encSteps {v : Variant} (hv : v ≠ .k128) (xk : List Byte) (p : Block) {n : Nat}
    (hn : n ≤ 9) :
    decSteps v xk (encSteps v xk p 11) (n + 1) =
      shiftRows (subBytes v (encSteps v xk p (10 - n))) := by
  induction n with
  | zero => exact addRoundKey_addRoundKey _ _
  | succ n ih =>
    have hround : encSteps v xk p (10 - n) =
        encRound v (roundKey xk (10 - (n + 1))) (encSteps v xk p (10 - (n + 1))) := by
      rw [show 10 - n = 10 - (n + 1) + 1 by omega, encSteps, encAt_mid v (by omega) (by omega)]
    rw [decSteps, ih (by omega), decAt_mid v (by omega) (by omega), decRound,
      invSubBytes_invShiftRows_shiftRows_subBytes hv, hround, encRound, addRoundKey_addRoundKey,
      invMixColumns_mixColumns]

/-- Settles O34: each DEC step undoes one ENC round, and the last one removes round key 0. -/
theorem decryptionInvertsEncryption : Obligations.DecryptionInvertsEncryption := by
  unfold Obligations.DecryptionInvertsEncryption
  intro v p k hv
  rw [invCipher_eq_decSteps, cipher_eq_encSteps, decSteps, decSteps_encSteps hv _ _ le_rfl]
  exact (congrArg (addRoundKey · _) (invSubBytes_invShiftRows_shiftRows_subBytes hv _)).trans
    (addRoundKey_addRoundKey _ _)

end Sys2Proof.Machine
end

section
/-! Runs of clock edges (44_cipher_sequencer.md section 3, 70_reset_and_hazards.md section 3): the
induction over the edges of a command, packaged once for a host that does anything and once for a
host that waits. -/

namespace Sys2Proof.Machine

theorem run_succ_of_next {M : Host.Core} {s t : M.State} (h : M.step s = .next t) (n : Nat) :
    M.run (n + 1) s = M.run n t := by
  rw [Host.Core.run, h]

/-- A run of one step more, seen from its end. -/
theorem run_succ_last_of_next {M : Host.Core} {s t : M.State} {n : Nat} (h : M.run n s = .next t) :
    M.run (n + 1) s = M.step t := by
  induction n generalizing s with
  | zero =>
    obtain rfl : s = t := Host.Outcome.next.inj h
    rw [Host.Core.run]
    cases hst : M.step s <;> rfl
  | succ n ih =>
    rw [Host.Core.run] at h ⊢
    cases hst : M.step s with
    | next u => rw [hst] at h; exact ih h
    | fault f => rw [hst] at h; cases h
    | refused r => rw [hst] at h; cases h

theorem run_succ {s t : State} (h : step s = .next t) (n : Nat) :
    Host.Core.run core (n + 1) s = Host.Core.run core n t :=
  run_succ_of_next (M := core) h n

theorem run_succ_last {s t : State} {n : Nat} (h : Host.Core.run core n s = .next t) :
    Host.Core.run core (n + 1) s = step t :=
  run_succ_last_of_next (M := core) h

/-- `Q n` holds of the engine after edge `n` of a command that completes at edge `N`: before edge
`N` the engine is busy, and an edge leads to the next, whatever the host does at it. -/
def Advances (N : Nat) (Q : Nat → Engine → Prop) : Prop :=
  ∀ n < N, ∀ e, Q n e → e.phase ≠ .idle ∧
    ∃ e' b, seqStep e = .ok (e', b) ∧ ∀ acc, Q (n + 1) (accessEngine acc true b e')

theorem Advances.step {N : Nat} {Q : Nat → Engine → Prop} (h : Advances N Q) {n : Nat} (hn : n < N)
    {s : State} (hc : s.atCycle) (hq : Q n s.engine) :
    s.engine.phase ≠ .idle ∧ ∃ e, Machine.step s = .next (s.afterEdge e) ∧ Q (n + 1) e := by
  obtain ⟨hbusy, e, b, hs, hnext⟩ := h n hn s.engine hq
  refine ⟨hbusy, _, step_atCycle hc hs, ?_⟩
  rw [Engine.busy_of_ne hbusy]
  exact hnext s.access

/-- A step uses up the host's event, or leaves the host's list (R91). -/
theorem hostAfter_cases (s : State) : s.hostAfter = s.host ∨ ∃ ev, s.host = ev :: s.hostAfter := by
  unfold State.hostAfter
  rcases hh : s.host with _ | ⟨ev, rest⟩
  · exact .inl rfl
  · cases ev with
    | wait =>
      dsimp only
      split_ifs
      · exact .inl rfl
      · exact .inr ⟨_, rfl⟩
    | _ => exact .inr ⟨_, rfl⟩

theorem edgesAhead_afterEdge {s : State} {n : Nat} (h : s.edgesAhead (n + 1)) (e : Engine) :
    (s.afterEdge e).edgesAhead n := by
  intro ev hev
  rw [State.afterEdge_host] at hev
  apply h
  obtain hsame | ⟨ev', hused⟩ := hostAfter_cases s
  · rw [← hsame]
    exact (List.take_prefix_take_left (Nat.le_succ n)).subset hev
  · rw [hused, List.take_succ_cons]
    exact List.mem_cons_of_mem _ hev

theorem atEdge_of_edgesAhead {s : State} {n : Nat} (h : s.edgesAhead (n + 1)) : s.atEdge := by
  unfold State.atEdge
  cases hh : s.host with
  | nil => trivial
  | cons ev rest => exact h ev (by simp [hh])

/-- The induction over the edges of a command, whatever the host does at them. -/
theorem Advances.run {N : Nat} {Q : Nat → Engine → Prop} (h : Advances N Q) {k n : Nat}
    (hN : n + k ≤ N) {s : State} (hrst : s.rstN = true) (hedges : s.edgesAhead k)
    (hq : Q n s.engine) :
    ∃ t, Host.Core.run core k s = .next t ∧ Q (n + k) t.engine := by
  induction k generalizing n s with
  | zero => exact ⟨s, rfl, hq⟩
  | succ k ih =>
    obtain ⟨-, e, hst, hnext⟩ := h.step (by omega) ⟨hrst, atEdge_of_edgesAhead hedges⟩ hq
    obtain ⟨t, hrun, ht⟩ := ih (n := n + 1) (by omega) (s := s.afterEdge e) hrst
      (edgesAhead_afterEdge hedges e) hnext
    rw [run_succ hst]
    exact ⟨t, hrun, (by omega : n + 1 + k = n + (k + 1)) ▸ ht⟩

/-- The same induction for a host that waits: the WAIT stays, and nothing is recorded (R91). -/
theorem Advances.run_wait {N : Nat} {Q : Nat → Engine → Prop} (h : Advances N Q) {k n : Nat}
    (hN : n + k ≤ N) {s : State} {rest : List HostEvent} (hrst : s.rstN = true)
    (hhost : s.host = .wait :: rest) (hq : Q n s.engine) :
    ∃ t, Host.Core.run core k s = .next t ∧ t.rstN = true ∧ t.host = .wait :: rest ∧
      t.recorded = s.recorded ∧ Q (n + k) t.engine := by
  induction k generalizing n s with
  | zero => exact ⟨s, rfl, hrst, hhost, rfl, hq⟩
  | succ k ih =>
    have hedge : s.atEdge := by simp [State.atEdge, hhost, HostEvent.isEdge]
    obtain ⟨hbusy, e, hst, hnext⟩ := h.step (by omega) ⟨hrst, hedge⟩ hq
    have hhost' : (s.afterEdge e).host = .wait :: rest := by
      simp [State.hostAfter, hhost, hrst, hbusy]
    have hrecorded : (s.afterEdge e).recorded = s.recorded := by
      simp [State.afterEdge, State.recordedAfter, hhost, hrst, hbusy]
    obtain ⟨t, hrun, hrst', hwait, hrec, ht⟩ := ih (n := n + 1) (by omega) (s := s.afterEdge e)
      hrst hhost' hnext
    rw [run_succ hst]
    exact ⟨t, hrun, hrst', hwait, hrec.trans hrecorded,
      (by omega : n + 1 + k = n + (k + 1)) ▸ ht⟩

/-- The last turn of a WAIT: it reads BUSY = 0, ends, and records STATUS (R91). -/
theorem step_wait_idle {s : State} {rest : List HostEvent} (hrst : s.rstN = true)
    (hhost : s.host = .wait :: rest) (hidle : s.engine.phase = .idle) :
    ∃ t, step s = .next t ∧ t.host = rest ∧ t.recorded = s.recorded ++ [s.engine.statusWord] := by
  have hedge : s.atEdge := by simp [State.atEdge, hhost, HostEvent.isEdge]
  refine ⟨_, step_atCycle ⟨hrst, hedge⟩ (seqStep_idle hidle), ?_, ?_⟩
  · simp [State.hostAfter, hhost, hidle]
  · simp [State.afterEdge, State.recordedAfter, hhost, hidle, outRdata, hrst, Engine.readReg]

end Sys2Proof.Machine
end

section
/-! A multi-step command edge by edge (44_cipher_sequencer.md sections 2 and 3): what each edge does
to PHASE, RND, RK, ST and DOUT, from the acceptance, which latches the key and the block, to the
completion edge. -/

namespace Sys2Proof.Machine

open Claims

/-! The round keys a KX step writes (R201). -/

theorem w2b_rotWord32 (w : Word) : w2b (rotWord32 w) = rotWord (w2b w) := by
  have hbyte : ∀ lo, lo + 8 ≤ 24 →
      (rotWord32 w).extractLsb' (lo + 8) 8 = w.extractLsb' lo 8 := by
    intro lo hlo
    apply BitVec.eq_of_getLsbD_eq
    intro i hi
    simp only [rotWord32, BitVec.getLsbD_extractLsb', BitVec.getLsbD_append]
    simp [hi, show ¬ lo + 8 + i < 8 by omega, show lo + 8 + i - 8 = lo + i by omega,
      show lo + i < 24 by omega]
  have hlow : (rotWord32 w).extractLsb' 0 8 = w.extractLsb' 24 8 := by
    apply BitVec.eq_of_getLsbD_eq
    intro i hi
    simp only [rotWord32, BitVec.getLsbD_extractLsb', BitVec.getLsbD_append]
    simp [hi]
  rw [w2b, w2b, rotWord, hlow, hbyte 16 (by decide), hbyte 8 (by decide), hbyte 0 (by decide)]

theorem w2b_rcon (x : Byte) : w2b (x.setWidth 32 <<< 24) = ⟨x, 0x00, 0x00, 0x00⟩ := by
  revert x; decide

/-- Round key `r` on packed words is round key `r` of the byte-by-byte expansion (R144, R201). -/
theorem blockOf_nextRoundKey {key : Block} {v : Variant} {r : Nat} (h1 : 1 ≤ r) (h10 : r ≤ 10)
    {g : Regs4} (hg : blockOf g = roundKey (keyExpansion key v) (r - 1)) :
    blockOf (nextRoundKey v r g) = roundKey (keyExpansion key v) r := by
  obtain ⟨hw0, hw1, hw2, hw3⟩ := keyExpansion_round key v h1 h10
  rw [blockOf, roundKey, blockAt, Block.mk.injEq] at hg
  obtain ⟨hg0, hg1, hg2, hg3⟩ := hg
  rw [show 16 * (r - 1) = 16 * r - 16 by omega] at hg0
  rw [show 16 * (r - 1) + 4 = 16 * r - 12 by omega] at hg1
  rw [show 16 * (r - 1) + 8 = 16 * r - 8 by omega] at hg2
  rw [show 16 * (r - 1) + 12 = 16 * r - 4 by omega] at hg3
  rw [roundKey, blockAt, hw3, hw2, hw1, hw0, ← hg0, ← hg1, ← hg2, ← hg3]
  simp only [blockOf, nextRoundKey, w2b_xor, w2b_b2w, w2b_rotWord32, w2b_rcon]

/-! What a step of each phase does to the sequencer's state (R201–R208). -/

/-- A KX step: round key `r` is written, and the next round, the next phase or IDLE follows. -/
theorem seqStep_kx_row {e : Engine} {v : Variant} {r : Nat} (hp : e.phase = .kx)
    (hv : Variant.ofCode e.lvar = some v) (hr : e.rnd.toNat = r) (h1 : 1 ≤ r) (h10 : r ≤ 10)
    (hlop : e.lop = 0x01 ∨ e.lop = 0x02 ∨ e.lop = 0x03) :
    ∃ e' b, seqStep e = .ok (e', b) ∧ e'.rk = (kxEngine v r e).rk ∧ e'.st = e.st ∧
      (e'.phase, e'.rnd) =
        if r < 10 then (.kx, e.rnd + 1)
        else if e.lop = 0x01 then (.idle, 0)
        else if e.lop = 0x02 then (.enc, 0)
        else (.dec, 10) := by
  subst hr
  obtain ⟨t, b, hs, hrk, hmid, hexpand, hencrypt, hdecrypt⟩ := seqStep_kx hp hv h1 h10 hlop
  refine ⟨t, b, hs, hrk, ?_⟩
  obtain hlt | hlast := h10.lt_or_eq
  · obtain ⟨-, ht⟩ := hmid hlt
    rw [if_pos hlt, ht]
    exact ⟨rfl, congrArg (·, _) hp⟩
  · rw [if_neg (by omega)]
    obtain hl | hl | hl := hlop
    · obtain ⟨-, ht⟩ := hexpand hlast hl
      rw [ht, hl]
      exact ⟨rfl, rfl⟩
    · obtain ⟨-, ht⟩ := hencrypt hlast hl
      rw [ht, hl]
      exact ⟨rfl, rfl⟩
    · obtain ⟨-, ht⟩ := hdecrypt hlast hl
      rw [ht, hl]
      exact ⟨rfl, rfl⟩

/-- An ENC step: the block of the next round, or the result and IDLE. -/
theorem seqStep_enc_row {e : Engine} {v : Variant} {r : Nat} (hp : e.phase = .enc)
    (hv : Variant.ofCode e.lvar = some v) (hr : e.rnd.toNat = r) (h10 : r ≤ 10) :
    ∃ e' b, seqStep e = .ok (e', b) ∧ e'.rk = e.rk ∧ e'.st = encAt v r (roundKeyRK e.rk r) e.st ∧
      (e'.phase, e'.rnd) = (if r < 10 then (.enc, e.rnd + 1) else (.idle, 0)) ∧
      (r = 10 → e'.dout = packed e'.st) := by
  subst hr
  by_cases h0 : e.rnd.toNat = 0
  · have hrnd : e.rnd = 0 := rnd_eq_zero h0
    refine ⟨_, _, seqStep_enc_first hp hrnd, rfl, ?_, ?_, by omega⟩
    · rw [hrnd]; rfl
    · rw [hrnd]; exact congrArg (·, _) hp
  · by_cases h9 : e.rnd.toNat ≤ 9
    · refine ⟨_, _, seqStep_enc_mid hp hv (by omega) h9, rfl, ?_, ?_, by omega⟩
      · rw [encAt_mid v (by omega) h9]
      · rw [if_pos (by omega)]; exact congrArg (·, _) hp
    · have hrnd : e.rnd = 10 := rnd_eq_ten (by omega)
      refine ⟨_, _, seqStep_enc_last hp hv hrnd, rfl, ?_, ?_, fun _ => rfl⟩
      · rw [hrnd]; rfl
      · rw [hrnd]; rfl

/-- A DEC step: the block of the next round, or the result and IDLE. -/
theorem seqStep_dec_row {e : Engine} {v : Variant} {r : Nat} (hp : e.phase = .dec)
    (hv : Variant.ofCode e.lvar = some v) (hr : e.rnd.toNat = r) (h10 : r ≤ 10) :
    ∃ e' b, seqStep e = .ok (e', b) ∧ e'.rk = e.rk ∧ e'.st = decAt v r (roundKeyRK e.rk r) e.st ∧
      (e'.phase, e'.rnd) = (if 0 < r then (.dec, e.rnd - 1) else (.idle, 0)) ∧
      (r = 0 → e'.dout = packed e'.st) := by
  subst hr
  by_cases h0 : e.rnd.toNat = 0
  · have hrnd : e.rnd = 0 := rnd_eq_zero h0
    refine ⟨_, _, seqStep_dec_last hp hv hrnd, rfl, ?_, ?_, fun _ => rfl⟩
    · rw [hrnd]; rfl
    · rw [hrnd]; rfl
  · by_cases h9 : e.rnd.toNat ≤ 9
    · refine ⟨_, _, seqStep_dec_mid hp hv (by omega) h9, rfl, ?_, ?_, by omega⟩
      · rw [decAt_mid v (by omega) h9]
      · rw [if_pos (by omega)]; exact congrArg (·, _) hp
    · have hrnd : e.rnd = 10 := rnd_eq_ten (by omega)
      refine ⟨_, _, seqStep_dec_first hp hrnd, rfl, ?_, ?_, by omega⟩
      · rw [hrnd]; rfl
      · rw [hrnd]; exact congrArg (·, _) hp

/-! A multi-step command, edge by edge. -/

/-- ST after edge `n` of a command that latched the block `b`: ten KX steps leave it, and each later
edge is a step of the cipher phase. -/
def blockAfter (v : Variant) (xk : List Byte) (b : Block) (n : Nat) : Instr → Block
  | .encrypt _ => encSteps v xk b (n - 10)
  | .decrypt _ => decSteps v xk b (n - 10)
  | _ => b

/-- The engine after edge `n` of the multi-step command `i`, which latched `key` and the block `b`:
it is where the schedule says, the round keys up to `n` are in RK, and ST holds the block of the
round. -/
structure Engine.Runs (i : Instr) (v : Variant) (key b : Block) (n : Nat) (e : Engine) : Prop where
  position : (e.phase, e.rnd) = schedule i n
  lop : e.lop = (Command.ofInstr i).op
  lvar : Variant.ofCode e.lvar = some v
  keys : ∀ m ≤ min n 10, roundKeyRK e.rk m = roundKey (keyExpansion key v) m
  st : e.st = blockAfter v (keyExpansion key v) b n i
  result : n = 21 → e.dout = packed e.st

/-- The host's access at an edge of a running command leaves all of this (R198). -/
theorem Engine.Runs.access {i : Instr} {v : Variant} {key b : Block} {n : Nat} {e : Engine}
    (h : e.Runs i v key b n) (acc : Access) (doneSet : Bool) :
    (accessEngine acc true doneSet e).Runs i v key b n := by
  obtain ⟨hdout, -, hrk, hst, hphase, hrnd, hlop, hlvar, -⟩ := accessEngine_busy_frame acc doneSet e
  exact ⟨by rw [hphase, hrnd, h.position], by rw [hlop, h.lop], by rw [hlvar, h.lvar],
    by rw [hrk]; exact h.keys, by rw [hst, h.st], by rw [hdout, hst]; exact h.result⟩

theorem completionEdge_single {i : Instr} (h : i.multiStep = false) : completionEdge i = 0 := by
  revert h
  cases i <;> simp [Instr.multiStep, completionEdge]

theorem ten_le_completionEdge {i : Instr} (h : i.multiStep = true) : 10 ≤ completionEdge i := by
  obtain ⟨v, rfl | rfl | rfl⟩ := multiStep_cases h <;> simp [completionEdge]

/-- PHASE and RND in KX (R197). -/
theorem schedule_kx {i : Instr} (hi : i.multiStep = true) {n : Nat} (hn : n < 10) :
    schedule i n = (.kx, BitVec.ofNat 4 (n + 1)) := by
  have hlt : ¬ completionEdge i ≤ n := by
    have := ten_le_completionEdge hi
    omega
  unfold schedule
  rw [if_neg hlt, if_pos hn]

/-- PHASE and RND after the ten KX steps, with `r` steps of the cipher phase done (R197). -/
theorem schedule_encrypt (v : Variant) (r : Nat) :
    schedule (.encrypt v) (10 + r) = if r ≤ 10 then (.enc, BitVec.ofNat 4 r) else (.idle, 0) := by
  have hlast : completionEdge (.encrypt v) = 21 := rfl
  unfold schedule
  rw [hlast]
  by_cases h : r ≤ 10
  · rw [if_neg (show ¬ 21 ≤ 10 + r by omega), if_neg (show ¬ 10 + r < 10 by omega), if_pos h]
    dsimp only
    rw [Nat.add_sub_cancel_left]
  · rw [if_pos (show 21 ≤ 10 + r by omega), if_neg h]

theorem schedule_decrypt (v : Variant) (r : Nat) :
    schedule (.decrypt v) (10 + r) =
      if r ≤ 10 then (.dec, BitVec.ofNat 4 (10 - r)) else (.idle, 0) := by
  have hlast : completionEdge (.decrypt v) = 21 := rfl
  unfold schedule
  rw [hlast]
  by_cases h : r ≤ 10
  · rw [if_neg (show ¬ 21 ≤ 10 + r by omega), if_neg (show ¬ 10 + r < 10 by omega), if_pos h]
    dsimp only
    rw [show 20 - (10 + r) = 10 - r by omega]
  · rw [if_pos (show 21 ≤ 10 + r by omega), if_neg h]

theorem rnd_ofNat_add_one (n : Nat) : BitVec.ofNat 4 n + 1 = BitVec.ofNat 4 (n + 1) := by
  apply BitVec.eq_of_toNat_eq
  simp

/-- The steps of KX: each writes the next round key (R201, R202). -/
theorem Engine.Runs.kx {i : Instr} {v : Variant} {key b : Block} {n : Nat} {e : Engine}
    (h : e.Runs i v key b n) (hi : i.multiStep = true) (hn : n < 10) :
    ∃ e' c, seqStep e = .ok (e', c) ∧ e'.Runs i v key b (n + 1) := by
  obtain ⟨hp, hr⟩ := Prod.mk.inj (h.position.trans (schedule_kx hi hn))
  have hlop : e.lop = 0x01 ∨ e.lop = 0x02 ∨ e.lop = 0x03 := by
    rw [h.lop]
    obtain ⟨w, rfl | rfl | rfl⟩ := multiStep_cases hi
    exacts [.inl rfl, .inr (.inl rfl), .inr (.inr rfl)]
  have hround : e.rnd.toNat = n + 1 := by
    rw [hr, BitVec.toNat_ofNat]
    omega
  obtain ⟨e', c, hs, hrk, hst, hposition⟩ :=
    seqStep_kx_row hp h.lvar hround (by omega) (by omega) hlop
  obtain ⟨-, -, -, -, -, -, -, -, hlop', hlvar'⟩ := seqStep_frame hs
  refine ⟨e', c, hs, ?position, hlop'.trans h.lop, hlvar' ▸ h.lvar, ?keys, ?st, by omega⟩
  case position =>
    rw [hposition, hr, rnd_ofNat_add_one]
    by_cases hlast : n + 1 < 10
    · rw [if_pos hlast, schedule_kx hi hlast]
    · obtain rfl : n = 9 := by omega
      rw [h.lop]
      obtain ⟨w, rfl | rfl | rfl⟩ := multiStep_cases hi <;> rfl
  case keys =>
    intro m hm
    rw [roundKeyRK, hrk]
    by_cases hnew : m = n + 1
    · subst hnew
      rw [rkGroup_kxEngine_same v (by omega)]
      exact blockOf_nextRoundKey (by omega) (by omega) (h.keys n (by omega))
    · have hold : rkGroup (kxEngine v (n + 1) e).rk m = rkGroup e.rk m :=
        rkGroup_setGroup_ne _ _ _ _ (by omega) hnew
      rw [hold]
      exact h.keys m (by omega)
  case st =>
    rw [hst, h.st]
    have hnone : n + 1 - 10 = n - 10 := by omega
    cases i <;> simp only [blockAfter, hnone]

/-- The steps of the cipher phase of ENCRYPT (R203–R205). -/
theorem Engine.Runs.enc {w v : Variant} {key b : Block} {r : Nat} {e : Engine}
    (h : e.Runs (.encrypt w) v key b (10 + r)) (hr : r ≤ 10) :
    ∃ e' c, seqStep e = .ok (e', c) ∧ e'.Runs (.encrypt w) v key b (10 + r + 1) := by
  have hpos := h.position
  rw [schedule_encrypt, if_pos hr] at hpos
  obtain ⟨hp, hrnd⟩ := Prod.mk.inj hpos
  have hround : e.rnd.toNat = r := by
    rw [hrnd, BitVec.toNat_ofNat]
    omega
  obtain ⟨e', c, hs, hrk, hst, hposition, hdout⟩ := seqStep_enc_row hp h.lvar hround hr
  obtain ⟨-, -, -, -, -, -, -, -, hlop', hlvar'⟩ := seqStep_frame hs
  have hkeys : ∀ m ≤ 10, roundKeyRK e.rk m = roundKey (keyExpansion key v) m :=
    fun m hm => h.keys m (by omega)
  refine ⟨e', c, hs, ?position, hlop'.trans h.lop, hlvar' ▸ h.lvar, ?keys, ?st, ?result⟩
  case position =>
    rw [hposition, hrnd, rnd_ofNat_add_one, Nat.add_assoc, schedule_encrypt]
    by_cases hlast : r < 10
    · rw [if_pos hlast, if_pos (by omega)]
    · rw [if_neg hlast, if_neg (by omega)]
  case keys => exact fun m hm => hrk ▸ hkeys m (by omega)
  case st =>
    have hsteps : blockAfter v (keyExpansion key v) b (10 + r) (.encrypt w) =
        encSteps v (keyExpansion key v) b r := by
      rw [blockAfter, Nat.add_sub_cancel_left]
    rw [hst, hkeys r hr, h.st, hsteps, blockAfter, Nat.add_assoc, Nat.add_sub_cancel_left, encSteps]
  case result => exact fun hlast => hdout (by omega)

/-- The steps of the cipher phase of DECRYPT (R206–R208): step `r` is round `10 - r`. -/
theorem Engine.Runs.dec {w v : Variant} {key b : Block} {r : Nat} {e : Engine}
    (h : e.Runs (.decrypt w) v key b (10 + r)) (hr : r ≤ 10) :
    ∃ e' c, seqStep e = .ok (e', c) ∧ e'.Runs (.decrypt w) v key b (10 + r + 1) := by
  have hpos := h.position
  rw [schedule_decrypt, if_pos hr] at hpos
  obtain ⟨hp, hrnd⟩ := Prod.mk.inj hpos
  have hround : e.rnd.toNat = 10 - r := by
    rw [hrnd, BitVec.toNat_ofNat]
    omega
  obtain ⟨e', c, hs, hrk, hst, hposition, hdout⟩ :=
    seqStep_dec_row hp h.lvar hround (Nat.sub_le 10 r)
  obtain ⟨-, -, -, -, -, -, -, -, hlop', hlvar'⟩ := seqStep_frame hs
  have hkeys : ∀ m ≤ 10, roundKeyRK e.rk m = roundKey (keyExpansion key v) m :=
    fun m hm => h.keys m (by omega)
  refine ⟨e', c, hs, ?position, hlop'.trans h.lop, hlvar' ▸ h.lvar, ?keys, ?st, ?result⟩
  case position =>
    rw [hposition, hrnd, Nat.add_assoc, schedule_decrypt]
    by_cases hlast : r < 10
    · have hpred : BitVec.ofNat 4 (10 - r) - 1 = BitVec.ofNat 4 (10 - (r + 1)) := by
        rw [show 10 - r = 10 - (r + 1) + 1 by omega, ← rnd_ofNat_add_one, BitVec.add_sub_cancel]
      rw [if_pos (by omega), if_pos (by omega), hpred]
    · rw [if_neg (by omega), if_neg (by omega)]
  case keys => exact fun m hm => hrk ▸ hkeys m (by omega)
  case st =>
    have hsteps : blockAfter v (keyExpansion key v) b (10 + r) (.decrypt w) =
        decSteps v (keyExpansion key v) b r := by
      rw [blockAfter, Nat.add_sub_cancel_left]
    rw [hst, hkeys (10 - r) (Nat.sub_le 10 r), h.st, hsteps, blockAfter, Nat.add_assoc,
      Nat.add_sub_cancel_left, decSteps]
  case result => exact fun hlast => hdout (by omega)

/-- Before its completion edge a running command has a step to take, and it leads to the next edge.
-/
theorem Engine.Runs.step {i : Instr} {v : Variant} {key b : Block} {n : Nat} {e : Engine}
    (h : e.Runs i v key b n) (hi : i.multiStep = true) (hn : n < completionEdge i) :
    ∃ e' c, seqStep e = .ok (e', c) ∧ e'.Runs i v key b (n + 1) := by
  by_cases hkx : n < 10
  · exact h.kx hi hkx
  · obtain ⟨r, rfl⟩ := Nat.exists_eq_add_of_le (Nat.not_lt.mp hkx)
    obtain ⟨w, rfl | rfl | rfl⟩ := multiStep_cases hi
    · exact absurd hn hkx
    · exact h.enc (Nat.le_of_lt_succ (Nat.lt_of_add_lt_add_left hn))
    · exact h.dec (Nat.le_of_lt_succ (Nat.lt_of_add_lt_add_left hn))

/-- PHASE is IDLE at the completion edge and not before (R197). -/
theorem schedule_idle_iff (i : Instr) (n : Nat) :
    (schedule i n).1 = .idle ↔ completionEdge i ≤ n := by
  unfold schedule
  split_ifs with hdone hkx
  · exact iff_of_true rfl hdone
  · exact iff_of_false (by simp) hdone
  · refine iff_of_false ?_ hdone
    split <;> simp

/-- What the timing statements say of the engine after edge `n` of a command: it is where the
schedule says, and at the completion edge DONE is 1. -/
def Engine.OnSchedule (i : Instr) (n : Nat) (e : Engine) : Prop :=
  (e.phase, e.rnd) = schedule i n ∧ (n = completionEdge i → e.done = true)

theorem Engine.Runs.onSchedule {i : Instr} {v : Variant} {key b : Block} {e : Engine}
    (h : e.Runs i v key b 0) (hi : i.multiStep = true) : e.OnSchedule i 0 := by
  refine ⟨h.position, fun hlast => ?_⟩
  have := ten_le_completionEdge hi
  omega

/-- A running command advances from edge to edge, and completes with DONE = 1 (R200). -/
theorem advances_runs {i : Instr} (hi : i.multiStep = true) (v : Variant) (key b : Block) :
    Advances (completionEdge i) fun n e => e.Runs i v key b n ∧ e.OnSchedule i n := by
  rintro n hn e ⟨h, -⟩
  have hbusy : e.phase ≠ .idle := by
    have hp := congrArg Prod.fst h.position
    rw [show e.phase = (schedule i n).1 from hp, ne_eq, schedule_idle_iff]
    omega
  obtain ⟨e', c, hs, h'⟩ := h.step hi hn
  refine ⟨hbusy, e', c, hs, fun acc =>
    ⟨h'.access acc c, (h'.access acc c).position, fun hlast => ?_⟩⟩
  have hidle : e'.phase = .idle :=
    (congrArg Prod.fst h'.position).trans ((schedule_idle_iff i (n + 1)).mpr hlast.ge)
  obtain rfl : c = true := seqStep_completes_of_idle hs hbusy hidle
  obtain ⟨-, -, -, -, -, -, -, -, hdone⟩ := accessEngine_busy_frame acc true e'
  obtain ⟨-, -, -, hset⟩ := (seqStep_completion hs).1 rfl
  exact (hdone rfl).trans hset

/-- The acceptance of a multi-step command latches its key, its block and its variant (R194). -/
theorem runs_acceptedEngine {i : Instr} (hi : i.multiStep = true) {v : Variant}
    (hv : i.variant = some v) (e : Engine) :
    ∃ b, (acceptedEngine i e).Runs i v (blockOf e.key) b 0 ∧
      ((∃ w, i = .expand w) ∨ b = blockOf e.din) := by
  have hkeys : ∀ m ≤ min 0 10, roundKeyRK (rkSetGroup e.rk 0 e.key) m =
      roundKey (keyExpansion (blockOf e.key) v) m := by
    intro m hm
    obtain rfl : m = 0 := by omega
    rw [roundKeyRK, rkGroup_setGroup_same _ _ _ (by decide), roundKey_zero_keyExpansion]
  obtain ⟨w, rfl | rfl | rfl⟩ := multiStep_cases hi
  all_goals obtain rfl : w = v := Option.some.inj hv
  · rw [acceptedEngine_expand]
    exact ⟨e.st, ⟨rfl, rfl, ofCode_code w, hkeys, rfl, nofun⟩, .inl ⟨w, rfl⟩⟩
  · rw [acceptedEngine_encrypt]
    exact ⟨blockOf e.din, ⟨rfl, rfl, ofCode_code w, hkeys, rfl, nofun⟩, .inr rfl⟩
  · rw [acceptedEngine_decrypt]
    exact ⟨blockOf e.din, ⟨rfl, rfl, ofCode_code w, hkeys, rfl, nofun⟩, .inr rfl⟩

end Sys2Proof.Machine
end

section
/-! Proofs about whole commands (44_cipher_sequencer.md sections 3 and 4, 70_reset_and_hazards.md
section 3): the step sequence of a command, what the sequencer computes, the reads of a WAIT, and
that the timing depends on the opcode only. -/

namespace Sys2Proof.Machine

open Claims

/-! The acceptance edge, and what follows it. -/

/-- The acceptance of a single-edge command on an engine in round 0 is its completion (R195). -/
theorem onSchedule_acceptedEngine_single {i : Instr} (hi : i.multiStep = false) {e : Engine}
    (hidle : e.phase = .idle) (hrnd : e.rnd = 0) : (acceptedEngine i e).OnSchedule i 0 := by
  have hschedule : schedule i 0 = (.idle, 0) := by
    unfold schedule
    exact if_pos (completionEdge_single hi).le
  refine ⟨?_, fun _ => by rw [acceptedEngine_done, hi]; rfl⟩
  rw [hschedule]
  by_cases hclear : i = .clear
  · subst hclear
    exact congrArg (·, 0) hidle
  · obtain ⟨hphase, hrnd', -⟩ := Engine.withSequencerOf_eq_self_iff.mp
      (acceptedEngine_withSequencerOf hi hclear e)
    rw [hphase, hrnd', hidle, hrnd]

/-- Every command advances on its schedule from its acceptance to its completion edge. -/
theorem exists_advances (i : Instr) {e : Engine} (hidle : e.phase = .idle) (hrnd : e.rnd = 0) :
    ∃ Q, Advances (completionEdge i) Q ∧ Q 0 (acceptedEngine i e) ∧
      ∀ n f, Q n f → f.OnSchedule i n := by
  cases hi : i.multiStep with
  | false =>
    refine ⟨fun n f => f.OnSchedule i n, fun n hn => ?_,
      onSchedule_acceptedEngine_single hi hidle hrnd, fun n f h => h⟩
    rw [completionEdge_single hi] at hn
    exact absurd hn n.not_lt_zero
  | true =>
    obtain ⟨v, hv⟩ : ∃ v, i.variant = some v := by
      obtain ⟨v, rfl | rfl | rfl⟩ := multiStep_cases hi <;> exact ⟨v, rfl⟩
    obtain ⟨b, hruns, -⟩ := runs_acceptedEngine hi hv e
    exact ⟨_, advances_runs hi v _ b, ⟨hruns, hruns.onSchedule hi⟩, fun n f h => h.2⟩

theorem rstN_of_accepts {s : State} {i : Instr} (h : s.accepts i) : s.rstN = true := by
  obtain ⟨-, d, -, hw⟩ := h
  exact (writesReg_access hw).1.1

/-- Settles O32: after the acceptance the engine is on the command's schedule at every edge. -/
theorem stepSequenceOfEveryCommand : Obligations.StepSequenceOfEveryCommand := by
  unfold Obligations.StepSequenceOfEveryCommand
  intro s i n hrnd haccept hedges hn
  have hrst : s.rstN = true := rstN_of_accepts haccept
  obtain ⟨Q, hadvances, hstart, hschedule⟩ := exists_advances i haccept.1 hrnd
  obtain ⟨t, hrun, ht⟩ := hadvances.run (k := n) (n := 0) (by omega)
    (s := s.afterEdge (acceptedEngine i s.engine)) hrst
    (edgesAhead_afterEdge hedges _) hstart
  rw [run_succ (step_accepts haccept)]
  rw [Nat.zero_add] at ht
  exact ⟨t, hrun, (hschedule n t.engine ht).1⟩

/-- The eleven round keys of RK are the bytes of the expanded key (R31, R32). -/
theorem rkByte_of_roundKeys {rk : RoundKeys} {xk : List Byte}
    (h : ∀ m ≤ 10, roundKeyRK rk m = roundKey xk m) {j : Nat} (hj : j < 176) :
    rkByte rk j = xk.getD j 0 := by
  have hsplit : 16 * (j / 16) + j % 16 = j := Nat.div_add_mod j 16
  have hbyte := congrArg (·.byte ⟨j % 16, Nat.mod_lt _ (by decide)⟩) (h (j / 16) (by omega))
  simpa only [roundKeyRK_byte, roundKey_byte, hsplit] using hbyte

/-- A multi-step command runs to its completion edge, whatever the host does: the machine is idle,
DONE is 1, RK holds the expansion of the latched key, and ST the block of the last round. -/
theorem run_to_completion {s : State} {i : Instr} (hi : i.multiStep = true) {v : Variant}
    (hv : i.variant = some v) (haccept : s.accepts i)
    (hedges : s.edgesAhead (completionEdge i + 1)) :
    ∃ t b, Host.Core.run core (completionEdge i + 1) s = .next t ∧ t.engine.phase = .idle ∧
      t.engine.done = true ∧ ((∃ w, i = .expand w) ∨ b = blockOf s.engine.din) ∧
      t.engine.Runs i v (blockOf s.engine.key) b (completionEdge i) := by
  have hrst : s.rstN = true := rstN_of_accepts haccept
  obtain ⟨b, hruns, hb⟩ := runs_acceptedEngine hi hv s.engine
  obtain ⟨t, hrun, ht, -, hdone⟩ := (advances_runs hi v _ b).run (k := completionEdge i) (n := 0)
    (by omega) (s := s.afterEdge (acceptedEngine i s.engine)) hrst
    (edgesAhead_afterEdge hedges _) ⟨hruns, hruns.onSchedule hi⟩
  rw [Nat.zero_add] at ht hdone
  have hidle : t.engine.phase = .idle :=
    (congrArg Prod.fst ht.position).trans ((schedule_idle_iff i _).mpr le_rfl)
  exact ⟨t, b, (run_succ (step_accepts haccept) _).trans hrun, hidle, hdone rfl, hb, ht⟩

/-- Settles O33: at the completion edge RK holds the eleven round keys, and ST and DOUT the eleven
ENC or DEC steps on the latched block, which are the cipher and the inverse cipher. -/
theorem sequencerComputesTheCipher : Obligations.SequencerComputesTheCipher := by
  unfold Obligations.SequencerComputesTheCipher
  intro s v
  refine ⟨fun haccept hedges => ?expand, fun haccept hedges => ?encrypt,
    fun haccept hedges => ?decrypt⟩
  case expand =>
    obtain ⟨t, b, hrun, hidle, hdone, -, hruns⟩ :=
      run_to_completion (i := .expand v) rfl rfl haccept hedges
    exact ⟨t, hrun, hidle, hdone, fun j hj => rkByte_of_roundKeys hruns.keys hj⟩
  case encrypt =>
    obtain ⟨t, b, hrun, hidle, hdone, hb, hruns⟩ :=
      run_to_completion (i := .encrypt v) rfl rfl haccept hedges
    obtain rfl : b = blockOf s.engine.din := hb.resolve_left (by simp)
    have hst : t.engine.st = cipher (blockOf s.engine.din) (blockOf s.engine.key) v := hruns.st
    refine ⟨t, hrun, hidle, hdone, ?_, hst, fun j hj => rkByte_of_roundKeys hruns.keys hj⟩
    rw [hruns.result rfl, blockOf_packed, hst]
  case decrypt =>
    obtain ⟨t, b, hrun, hidle, hdone, hb, hruns⟩ :=
      run_to_completion (i := .decrypt v) rfl rfl haccept hedges
    obtain rfl : b = blockOf s.engine.din := hb.resolve_left (by simp)
    have hst : t.engine.st = invCipher (blockOf s.engine.din) (blockOf s.engine.key) v := hruns.st
    refine ⟨t, hrun, hidle, hdone, ?_, hst, fun j hj => rkByte_of_roundKeys hruns.keys hj⟩
    rw [hruns.result rfl, blockOf_packed, hst]

/-- Settles O59: the WAIT stays while the command is busy, and reads BUSY = 0 and DONE = 1 in the
cycle after its completion edge. -/
theorem waitReadsAfterCommand : Obligations.WaitReadsAfterCommand := by
  unfold Obligations.WaitReadsAfterCommand
  intro s p rest a d i hrst hidle hrnd hhost hacc hreg hd
  have haccept : s.accepts i := accepts_of_clock hrst hhost hacc hreg hidle hd
  have hstep : step s = .next _ := step_accepts haccept
  rw [afterEdge_write hrst hhost hacc] at hstep
  obtain ⟨Q, hadvances, hstart, hschedule⟩ := exists_advances i hidle hrnd
  have hwait : ∀ n ≤ completionEdge i, ∃ t, Host.Core.run core (n + 1) s = .next t ∧
      t.rstN = true ∧ t.host = .wait :: rest ∧ t.recorded = s.recorded ∧ Q n t.engine := by
    intro n hn
    obtain ⟨t, hrun, hrst', hhost', hrec, hq⟩ :=
      hadvances.run_wait (k := n) (n := 0) (by omega) (rest := rest)
        (s := { s with engine := acceptedEngine i s.engine, host := .wait :: rest, rdata := 0,
                       irq := s.engine.irq })
        hrst rfl hstart
    rw [Nat.zero_add] at hq
    exact ⟨t, (run_succ hstep n).trans hrun, hrst', hhost', hrec, hq⟩
  constructor
  · intro n hn
    obtain ⟨t, hrun, -, hhost', hrec, -⟩ := hwait n hn
    exact ⟨t, hrun, hhost', hrec⟩
  · obtain ⟨t, hrun, hrst', hhost', hrec, hq⟩ := hwait _ le_rfl
    obtain ⟨hposition, hdone⟩ := hschedule _ _ hq
    have hidle' : t.engine.phase = .idle :=
      (congrArg Prod.fst hposition).trans ((schedule_idle_iff i _).mpr le_rfl)
    obtain ⟨u, hu, hrest, hrec'⟩ := step_wait_idle hrst' hhost' hidle'
    refine ⟨u, _, (run_succ_last hrun).trans hu, hrest, hrec ▸ hrec', ?_, ?_⟩
    · rw [statusWord_getLsbD, if_pos rfl, Engine.busy_idle hidle']
    · rw [statusWord_getLsbD, if_neg (by decide), if_pos rfl, hdone rfl]

/-! The timing depends on the opcode only (70_reset_and_hazards.md section 3). -/

/-- PHASE and RND after a step, from PHASE, RND and LOP before it (R197). -/
def nextPosition (p : Phase) (r : BitVec 4) (op : BitVec 8) : Phase × BitVec 4 :=
  match p with
  | .idle => (.idle, r)
  | .kx =>
    if r.toNat < 10 then (.kx, r + 1) else if op = 0x01 then (.idle, 0)
    else if op = 0x02 then (.enc, 0) else (.dec, 10)
  | .enc => if r = 10 then (.idle, 0) else (.enc, r + 1)
  | .dec => if r = 0 then (.idle, 0) else (.dec, r - 1)

/-- Each row of R201–R208 moves as `nextPosition` says, which no data, key or variant enters. -/
theorem StepRow.position {v : Variant} {e e' : Engine} {b : Bool} (h : StepRow v e e' b) :
    (e'.phase, e'.rnd) = nextPosition e.phase e.rnd e.lop := by
  cases h with
  | idle hp => rw [hp]; rfl
  | kxMid hp h1 h2 => rw [hp, nextPosition, if_pos h2]; exact congrArg (·, _) hp
  | kxExpand hp hr hl => rw [hp, hr, hl]; rfl
  | kxEncrypt hp hr hl => rw [hp, hr, hl]; rfl
  | kxDecrypt hp hr hl => rw [hp, hr, hl]; rfl
  | encFirst hp hr => rw [hp, hr]; rfl
  | encMid hp h1 h2 =>
    have hne : e.rnd ≠ 10 := by bv_omega
    rw [hp, nextPosition, if_neg hne]
  | encLast hp hr => rw [hp, hr]; rfl
  | decFirst hp hr => rw [hp, hr]; rfl
  | decMid hp h1 h2 =>
    have hne : e.rnd ≠ 0 := by bv_omega
    rw [hp, nextPosition, if_neg hne]
  | decLast hp hr => rw [hp, hr]; rfl

/-- The step of a busy machine of the invariant, as far as the timing goes. -/
theorem State.Inv.step_position {s : State} (hi : s.Inv) (hc : s.atCycle)
    (hbusy : s.engine.phase ≠ .idle) :
    ∃ t, step s = .next t ∧ t.engine.lop = s.engine.lop ∧
      (t.engine.phase, t.engine.rnd) =
        nextPosition s.engine.phase s.engine.rnd s.engine.lop := by
  obtain ⟨v, hv⟩ := hi.engine.variant
  obtain ⟨e, b, hs, hrow⟩ := seqStep_row hi.engine hv
  obtain ⟨-, -, -, -, -, -, -, -, hlop, -⟩ := seqStep_frame hs
  obtain ⟨-, -, -, -, hphase, hrnd, hlop', -, -⟩ := accessEngine_busy_frame s.access b e
  refine ⟨_, step_atCycle hc hs, ?_, ?_⟩
  all_goals rw [State.afterEdge_engine, Engine.busy_of_ne hbusy]
  · rw [hlop', hlop]
  · rw [hphase, hrnd, hrow.position]

/-- Where the acceptance leaves the engine, by the opcode alone (R194, R195). -/
theorem schedule_zero (i : Instr) :
    schedule i 0 =
      if (Command.ofInstr i).op ∈ [0x01#8, 0x02#8, 0x03#8] then (.kx, 1) else (.idle, 0) := by
  cases i <;> rfl

/-- LOP holds the opcode of the command that runs on (R194). -/
theorem acceptedEngine_lop {i : Instr} {e : Engine} (hidle : e.phase = .idle)
    (hbusy : (acceptedEngine i e).phase ≠ .idle) :
    (acceptedEngine i e).lop = (Command.ofInstr i).op := by
  cases hi : i.multiStep with
  | true => obtain ⟨v, rfl | rfl | rfl⟩ := multiStep_cases hi <;> rfl
  | false =>
    refine absurd ?_ hbusy
    by_cases hclear : i = .clear
    · rw [hclear]
      exact hidle
    · obtain ⟨hphase, -⟩ := Engine.withSequencerOf_eq_self_iff.mp
        (acceptedEngine_withSequencerOf hi hclear e)
      exact hphase.trans hidle

/-- Settles O31: a step moves by PHASE, RND and LOP alone, and an acceptance by the opcode. -/
theorem timingDependsOnOpcodeOnly : Obligations.TimingDependsOnOpcodeOnly := by
  unfold Obligations.TimingDependsOnOpcodeOnly
  constructor
  · intro s₁ s₂ hi₁ hi₂ hc₁ hc₂ hbusy hphase hrnd hlop
    obtain ⟨t₁, hst₁, hlop₁, hpos₁⟩ := hi₁.step_position hc₁ hbusy
    obtain ⟨t₂, hst₂, hlop₂, hpos₂⟩ := hi₂.step_position hc₂ (hphase ▸ hbusy)
    rw [hphase, hrnd, hlop, ← hpos₁] at hpos₂
    obtain ⟨hphase', hrnd'⟩ := Prod.mk.inj hpos₂
    exact ⟨t₁, t₂, hst₁, hst₂, hphase', hrnd', by rw [hlop₂, hlop, hlop₁]⟩
  · intro s₁ s₂ i₁ i₂ hrnd₁ hrnd₂ ha₁ ha₂ hop
    have hstart : ∀ {s : State} {i : Instr}, s.engine.rnd = 0 → s.accepts i →
        ((acceptedEngine i s.engine).phase, (acceptedEngine i s.engine).rnd) = schedule i 0 := by
      intro s i hrnd ha
      obtain ⟨Q, -, hq, hschedule⟩ := exists_advances i ha.1 hrnd
      exact (hschedule 0 _ hq).1
    have hsame := hstart hrnd₂ ha₂
    rw [schedule_zero, ← hop, ← schedule_zero, ← hstart hrnd₁ ha₁] at hsame
    obtain ⟨hphase, hrnd⟩ := Prod.mk.inj hsame
    refine ⟨_, _, step_accepts ha₁, step_accepts ha₂, hphase, hrnd, fun hbusy => ?_⟩
    have hbusy₂ : (acceptedEngine i₂ s₂.engine).phase ≠ .idle :=
      fun h => hbusy (hphase.symm.trans h)
    calc (acceptedEngine i₂ s₂.engine).lop
        = (Command.ofInstr i₂).op := acceptedEngine_lop ha₂.1 hbusy₂
      _ = (Command.ofInstr i₁).op := hop.symm
      _ = (acceptedEngine i₁ s₁.engine).lop := (acceptedEngine_lop ha₁.1 hbusy).symm

end Sys2Proof.Machine
end
